-- ==== Sys2Proof/Word.lean ====
section
/-! DEFINITION. The words the UART block exchanges and moves: bytes, 32-bit operands, the 144-bit command word and the
32-bit event word (spec/30_encoding.md R90). -/

namespace Sys2Proof

/-- One byte of buffer memory, of a register or of a FIFO (20_memory.md R63, R79). -/
abbrev Byte := BitVec 8

/-- A 32-bit operand: address, length, callback, context, result (00_scope.md R5, R7). -/
abbrev Word32 := BitVec 32

/-- The instance field of a word, 8 bits (30_encoding.md R92, R94). -/
abbrev Inst := BitVec 8

/-- StatusFlags, 9 bits (30_encoding.md R104). -/
abbrev StatusFlags := BitVec 9

/-- What an agent brings to a step (30_encoding.md R90): the Host a command word, the other agents an event word. -/
inductive InputWord where
  /-- A command word, format CMD (R92). -/
  | cmd (w : BitVec 144)
  /-- An event word, format EVT (R94). -/
  | evt (w : BitVec 32)
  deriving DecidableEq, Repr

end Sys2Proof
end

