-- ==== Sys2Proof/Syntax.lean ====
section
/-! DEFINITION. The 17 commands and 8 events, one constructor per row of spec/opcode_table.json, with the operands of
spec/30_encoding.md R95 and R96 at the widths the rules give them. -/

namespace Sys2Proof

/-- Commands of the Host (R95) and events of the Handler, Dma and Line agents (R96). -/
inductive Instr where
  /-- `set_config`, op 0x01; `divHigh` is a1[31:24], which must be 0 (R100). -/
  | setConfig (inst : Inst) (lc : BitVec 8) (div : BitVec 24) (divHigh : BitVec 8) (fc ie valid : Bool)
  /-- `get_status`, op 0x02. -/
  | getStatus (inst : Inst)
  /-- `write`, op 0x03. -/
  | write (inst : Inst) (byte : Byte)
  /-- `read`, op 0x04. -/
  | read (inst : Inst)
  /-- `write_non_block`, op 0x05. -/
  | writeNonBlock (inst : Inst) (byte : Byte)
  /-- `read_non_block`, op 0x06. -/
  | readNonBlock (inst : Inst)
  /-- `write_buffer`, op 0x07. -/
  | writeBuffer (inst : Inst) (buf len : Word32)
  /-- `irq_write`, op 0x08. -/
  | irqWrite (inst : Inst) (buf len cb ctx : Word32)
  /-- `irq_read`, op 0x09. -/
  | irqRead (inst : Inst) (buf len cb ctx : Word32)
  /-- `irq_write_terminate`, op 0x0A. -/
  | irqWriteTerminate (inst : Inst)
  /-- `irq_read_terminate`, op 0x0B. -/
  | irqReadTerminate (inst : Inst)
  /-- `dma_channel_config`, op 0x0C; `dir` is the whole of a2 (R97). -/
  | dmaChannelConfig (inst : Inst) (ctrl chan dir : Word32)
  /-- `dma_write`, op 0x0D. -/
  | dmaWrite (inst : Inst) (buf len cb ctx : Word32)
  /-- `dma_read`, op 0x0E. -/
  | dmaRead (inst : Inst) (buf len cb ctx : Word32)
  /-- `dma_write_terminate`, op 0x0F. -/
  | dmaWriteTerminate (inst : Inst)
  /-- `dma_read_terminate`, op 0x10. -/
  | dmaReadTerminate (inst : Inst)
  /-- `set_threshold`, op 0x11; `preset` is the whole of a0, since R130 tests `a0 > 1`. -/
  | setThreshold (inst : Inst) (preset : Word32)
  /-- `IRQ`, code 0x80. -/
  | irq (inst : Inst)
  /-- `DMA_BEAT`, code 0x81; `dir` is e0, 0 = TX, 1 = RX. -/
  | dmaBeat (inst : Inst) (dir : BitVec 8)
  /-- `DMA_DONE`, code 0x82. -/
  | dmaDone (inst : Inst) (dir : BitVec 8) (ok : Bool)
  /-- `LINE_RX`, code 0x88. -/
  | lineRx (inst : Inst) (data : Byte) (pe fe bi : Bool)
  /-- `LINE_TX_LOAD`, code 0x89. -/
  | lineTxLoad (inst : Inst)
  /-- `LINE_TX_DONE`, code 0x8A. -/
  | lineTxDone (inst : Inst)
  /-- `LINE_CTO`, code 0x8B. -/
  | lineCto (inst : Inst)
  /-- `LINE_CTS`, code 0x8C. -/
  | lineCts (inst : Inst) (level : Bool)
  deriving DecidableEq, Repr

/-- The instance operand every command and event carries (R92, R94). -/
def Instr.inst : Instr → Inst
  | .setConfig i _ _ _ _ _ _ => i
  | .getStatus i => i
  | .write i _ => i
  | .read i => i
  | .writeNonBlock i _ => i
  | .readNonBlock i => i
  | .writeBuffer i _ _ => i
  | .irqWrite i _ _ _ _ => i
  | .irqRead i _ _ _ _ => i
  | .irqWriteTerminate i => i
  | .irqReadTerminate i => i
  | .dmaChannelConfig i _ _ _ => i
  | .dmaWrite i _ _ _ _ => i
  | .dmaRead i _ _ _ _ => i
  | .dmaWriteTerminate i => i
  | .dmaReadTerminate i => i
  | .setThreshold i _ => i
  | .irq i => i
  | .dmaBeat i _ => i
  | .dmaDone i _ _ => i
  | .lineRx i _ _ _ _ => i
  | .lineTxLoad i => i
  | .lineTxDone i => i
  | .lineCto i => i
  | .lineCts i _ => i

/-- The opcode or event code of each row (R95, R96). -/
def Instr.code : Instr → BitVec 8
  | .setConfig .. => 0x01
  | .getStatus .. => 0x02
  | .write .. => 0x03
  | .read .. => 0x04
  | .writeNonBlock .. => 0x05
  | .readNonBlock .. => 0x06
  | .writeBuffer .. => 0x07
  | .irqWrite .. => 0x08
  | .irqRead .. => 0x09
  | .irqWriteTerminate .. => 0x0A
  | .irqReadTerminate .. => 0x0B
  | .dmaChannelConfig .. => 0x0C
  | .dmaWrite .. => 0x0D
  | .dmaRead .. => 0x0E
  | .dmaWriteTerminate .. => 0x0F
  | .dmaReadTerminate .. => 0x10
  | .setThreshold .. => 0x11
  | .irq .. => 0x80
  | .dmaBeat .. => 0x81
  | .dmaDone .. => 0x82
  | .lineRx .. => 0x88
  | .lineTxLoad .. => 0x89
  | .lineTxDone .. => 0x8A
  | .lineCto .. => 0x8B
  | .lineCts .. => 0x8C

/-- Is it one of the 17 commands of the Host (R95), rather than an event (R96)? -/
def Instr.isCommand (i : Instr) : Bool := i.code ≤ 0x11

/-- The three commands that can hold (60_exceptions.md R266, R270). -/
def Instr.canHold : Instr → Bool
  | .write .. => true
  | .read .. => true
  | .writeBuffer .. => true
  | _ => false

end Sys2Proof
end

