-- ==== Sys2Proof/WellFormed.lean ====
section
/-! DEFINITION. The checks an instruction passes to be one the tables of spec/30_encoding.md encode. Every operand fills its
field, so the only check left is the direction operand of the two DMA events (R96: 0 = TX, 1 = RX). -/

namespace Sys2Proof

/-- An instruction of the tables R95 and R96. Operands that a command rejects with an error result (a bad instance, a bad
line-control code, a direction above 1 in `dma_channel_config`) are well-formed: the rules give them a response. -/
def Instr.WellFormed : Instr → Bool
  | .setConfig .. => true
  | .getStatus .. => true
  | .write .. => true
  | .read .. => true
  | .writeNonBlock .. => true
  | .readNonBlock .. => true
  | .writeBuffer .. => true
  | .irqWrite .. => true
  | .irqRead .. => true
  | .irqWriteTerminate .. => true
  | .irqReadTerminate .. => true
  | .dmaChannelConfig .. => true
  | .dmaWrite .. => true
  | .dmaRead .. => true
  | .dmaWriteTerminate .. => true
  | .dmaReadTerminate .. => true
  | .setThreshold .. => true
  | .irq .. => true
  | .dmaBeat _ dir => dir ≤ 1
  | .dmaDone _ dir _ => dir ≤ 1
  | .lineRx .. => true
  | .lineTxLoad .. => true
  | .lineTxDone .. => true
  | .lineCto .. => true
  | .lineCts .. => true

end Sys2Proof
end

