-- ==== Sys2Proof/Decode.lean ====
section
/-! DEFINITION. Decoding of the command word CMD and the event word EVT (spec/30_encoding.md R92, R94 to R101), total on
every word and rejecting by name; then the encoder, written from the same tables. -/

namespace Sys2Proof

/-- Why a word is no instruction. -/
inductive DecodeReject where
  /-- `op` is not in R95: the command answers E_INVAL (R101). -/
  | illegalOpcode
  /-- The event code is not in R96: the word labels no step (R101). -/
  | illegalEventCode
  /-- A DMA event whose `dir` byte is neither 0 nor 1 (R96). -/
  | badDirection
  deriving DecidableEq, Repr

/-! ### Fields of the two formats -/

/-- `op`, bits 7:0 of a command word (R92). -/
def cmdOp (w : BitVec 144) : BitVec 8 := w.extractLsb' 0 8
/-- `inst`, bits 15:8 of a command word (R92). -/
def cmdInst (w : BitVec 144) : Inst := w.extractLsb' 8 8
/-- `a0`, bits 47:16 (R92). -/
def cmdA0 (w : BitVec 144) : Word32 := w.extractLsb' 16 32
/-- `a1`, bits 79:48 (R92). -/
def cmdA1 (w : BitVec 144) : Word32 := w.extractLsb' 48 32
/-- `a2`, bits 111:80 (R92). -/
def cmdA2 (w : BitVec 144) : Word32 := w.extractLsb' 80 32
/-- `a3`, bits 143:112 (R92). -/
def cmdA3 (w : BitVec 144) : Word32 := w.extractLsb' 112 32

/-- `code`, bits 7:0 of an event word (R94). -/
def evtCode (w : BitVec 32) : BitVec 8 := w.extractLsb' 0 8
/-- `inst`, bits 15:8 of an event word (R94). -/
def evtInst (w : BitVec 32) : Inst := w.extractLsb' 8 8
/-- `e0`, bits 23:16 (R94). -/
def evtE0 (w : BitVec 32) : BitVec 8 := w.extractLsb' 16 8
/-- `e1`, bits 31:24 (R94). -/
def evtE1 (w : BitVec 32) : BitVec 8 := w.extractLsb' 24 8

/-! ### Decoding -/

/-- The command table R95, operands assembled as R97 to R100 say. Operand bits a command does not use are ignored (R92). -/
def decodeCommand (w : BitVec 144) : Except DecodeReject Instr :=
  let i := cmdInst w
  match cmdOp w with
  | 0x01#8 => .ok (.setConfig i ((cmdA0 w).extractLsb' 0 8) ((cmdA1 w).extractLsb' 0 24) ((cmdA1 w).extractLsb' 24 8)
      ((cmdA2 w).getLsbD 0) ((cmdA2 w).getLsbD 1) ((cmdA3 w).getLsbD 0))
  | 0x02#8 => .ok (.getStatus i)
  | 0x03#8 => .ok (.write i ((cmdA0 w).extractLsb' 0 8))
  | 0x04#8 => .ok (.read i)
  | 0x05#8 => .ok (.writeNonBlock i ((cmdA0 w).extractLsb' 0 8))
  | 0x06#8 => .ok (.readNonBlock i)
  | 0x07#8 => .ok (.writeBuffer i (cmdA0 w) (cmdA1 w))
  | 0x08#8 => .ok (.irqWrite i (cmdA0 w) (cmdA1 w) (cmdA2 w) (cmdA3 w))
  | 0x09#8 => .ok (.irqRead i (cmdA0 w) (cmdA1 w) (cmdA2 w) (cmdA3 w))
  | 0x0A#8 => .ok (.irqWriteTerminate i)
  | 0x0B#8 => .ok (.irqReadTerminate i)
  | 0x0C#8 => .ok (.dmaChannelConfig i (cmdA0 w) (cmdA1 w) (cmdA2 w))
  | 0x0D#8 => .ok (.dmaWrite i (cmdA0 w) (cmdA1 w) (cmdA2 w) (cmdA3 w))
  | 0x0E#8 => .ok (.dmaRead i (cmdA0 w) (cmdA1 w) (cmdA2 w) (cmdA3 w))
  | 0x0F#8 => .ok (.dmaWriteTerminate i)
  | 0x10#8 => .ok (.dmaReadTerminate i)
  | 0x11#8 => .ok (.setThreshold i (cmdA0 w))
  | _ => .error .illegalOpcode

/-- The event table R96. Event bits an event does not use are ignored (log entry 14). -/
def decodeEvent (w : BitVec 32) : Except DecodeReject Instr :=
  let i := evtInst w
  match evtCode w with
  | 0x80#8 => .ok (.irq i)
  | 0x81#8 => if evtE0 w ≤ 1 then .ok (.dmaBeat i (evtE0 w)) else .error .badDirection
  | 0x82#8 => if evtE0 w ≤ 1 then .ok (.dmaDone i (evtE0 w) ((evtE1 w).getLsbD 0)) else .error .badDirection
  | 0x88#8 => .ok (.lineRx i (evtE0 w) ((evtE1 w).getLsbD 0) ((evtE1 w).getLsbD 1) ((evtE1 w).getLsbD 2))
  | 0x89#8 => .ok (.lineTxLoad i)
  | 0x8A#8 => .ok (.lineTxDone i)
  | 0x8B#8 => .ok (.lineCto i)
  | 0x8C#8 => .ok (.lineCts i ((evtE0 w).getLsbD 0))
  | _ => .error .illegalEventCode

/-- The decoder: total on every command and event word. -/
def decode : InputWord → Except DecodeReject Instr
  | .cmd w => decodeCommand w
  | .evt w => decodeEvent w

/-! ### Encoding -/

/-- A command word from its fields, most significant first as R112 prints it: `a3 a2 a1 a0 inst op`. -/
def cmdWord (a3 a2 a1 a0 : Word32) (i : Inst) (op : BitVec 8) : InputWord :=
  .cmd (a3 ++ a2 ++ a1 ++ a0 ++ i ++ op)

/-- An event word from its fields, most significant first: `e1 e0 inst code` (R112). -/
def evtWord (e1 e0 : BitVec 8) (i : Inst) (code : BitVec 8) : InputWord :=
  .evt (e1 ++ e0 ++ i ++ code)

/-- The word of a written instruction (R112); operand bits the instruction does not use are 0. -/
def encode : Instr → InputWord
  | .setConfig i lc div divHigh fc ie valid =>
      cmdWord ((BitVec.ofBool valid).setWidth 32) ((BitVec.ofBool ie ++ BitVec.ofBool fc).setWidth 32)
        (divHigh ++ div) (lc.setWidth 32) i 0x01
  | .getStatus i => cmdWord 0 0 0 0 i 0x02
  | .write i b => cmdWord 0 0 0 (b.setWidth 32) i 0x03
  | .read i => cmdWord 0 0 0 0 i 0x04
  | .writeNonBlock i b => cmdWord 0 0 0 (b.setWidth 32) i 0x05
  | .readNonBlock i => cmdWord 0 0 0 0 i 0x06
  | .writeBuffer i buf len => cmdWord 0 0 len buf i 0x07
  | .irqWrite i buf len cb ctx => cmdWord ctx cb len buf i 0x08
  | .irqRead i buf len cb ctx => cmdWord ctx cb len buf i 0x09
  | .irqWriteTerminate i => cmdWord 0 0 0 0 i 0x0A
  | .irqReadTerminate i => cmdWord 0 0 0 0 i 0x0B
  | .dmaChannelConfig i ctrl chan dir => cmdWord 0 dir chan ctrl i 0x0C
  | .dmaWrite i buf len cb ctx => cmdWord ctx cb len buf i 0x0D
  | .dmaRead i buf len cb ctx => cmdWord ctx cb len buf i 0x0E
  | .dmaWriteTerminate i => cmdWord 0 0 0 0 i 0x0F
  | .dmaReadTerminate i => cmdWord 0 0 0 0 i 0x10
  | .setThreshold i preset => cmdWord 0 0 0 preset i 0x11
  | .irq i => evtWord 0 0 i 0x80
  | .dmaBeat i dir => evtWord 0 dir i 0x81
  | .dmaDone i dir ok => evtWord ((BitVec.ofBool ok).setWidth 8) dir i 0x82
  | .lineRx i data pe fe bi =>
      evtWord ((BitVec.ofBool bi ++ BitVec.ofBool fe ++ BitVec.ofBool pe).setWidth 8) data i 0x88
  | .lineTxLoad i => evtWord 0 0 i 0x89
  | .lineTxDone i => evtWord 0 0 i 0x8A
  | .lineCto i => evtWord 0 0 i 0x8B
  | .lineCts i level => evtWord 0 ((BitVec.ofBool level).setWidth 8) i 0x8C

/-! ### Words as the opcode table numbers their bits -/

/-- The word whose bits are `w`. A command's `op` and an event's `code` are both bits 7:0 and their values are disjoint
(R95: 0x01 to 0x11; R96: 0x80 and above), so a word of at most 32 bits with a code from 0x80 on is an event, any other a
command; bits above `nbits` are 0 (log entry 14). -/
def tableWord (nbits w : Nat) : InputWord :=
  let v := w % 2 ^ nbits
  if nbits ≤ 32 ∧ 0x80 ≤ v % 256 then .evt (BitVec.ofNat 32 v) else .cmd (BitVec.ofNat 144 v)

/-- The instruction the decoder reads from a word given by its bits, or none where it refuses. -/
def decodeTableWord (nbits w : Nat) : Option Instr :=
  match decode (tableWord nbits w) with
  | .ok i => some i
  | .error _ => none

end Sys2Proof
end

