-- ==== Sys2Proof/Config.lean ====
section
/-! DEFINITION. What an implementation fixes: the fixed sizes of spec/00_scope.md R5, the register places (20_memory.md R61), the
OPEN parameters of R5 and 10_state.md R51 with their defaults, and the free values of 93_implementation_defined.md. -/

namespace Sys2Proof

/-! ### Fixed sizes (00_scope.md R5) -/

/-- `FIFO_DEPTH`. -/
def fifoDepth : Nat := 16
/-- `TX_CHUNK`, FIFO half depth. -/
def txChunk : Nat := 8
/-- `RX_DRAIN_MAX`. -/
def rxDrainMax : Nat := 16
/-- `DMA_MAX_LEN`. -/
def dmaMaxLen : Nat := 4096

/-! ### Register places (20_memory.md R61) -/

/-- The eight places of the register space, the rows of R61. What a place reaches depends on the direction of the access and,
for the first two, on LCR.DLAB (R62). -/
inductive Place where
  /-- RBR on a read, THR on a write; DLL while DLAB = 1. -/
  | data
  /-- IER; DLH while DLAB = 1. -/
  | enable
  /-- IIR on a read, FCR on a write. -/
  | identity
  /-- LCR. -/
  | lineControl
  /-- MCR. -/
  | modemControl
  /-- LSR; writes are ignored. -/
  | lineStatus
  /-- FSR; writes are ignored. -/
  | fifoStatus
  /-- DLF. -/
  | divisorFraction
  deriving DecidableEq, Repr

/-! ### OPEN parameters -/

/-- The byte offsets of the eight places from an instance's base, OPEN (R5, 20_memory.md R61). No rule uses a number: every rule
names its register (log entry 16). -/
structure RegisterOffsets where
  data : Nat
  enable : Nat
  identity : Nat
  lineControl : Nat
  modemControl : Nat
  lineStatus : Nat
  fifoStatus : Nat
  divisorFraction : Nat
  deriving DecidableEq, Repr

/-- The offset of a place. -/
def RegisterOffsets.offset (r : RegisterOffsets) : Place → Nat
  | .data => r.data
  | .enable => r.enable
  | .identity => r.identity
  | .lineControl => r.lineControl
  | .modemControl => r.modemControl
  | .lineStatus => r.lineStatus
  | .fifoStatus => r.fifoStatus
  | .divisorFraction => r.divisorFraction

/-- The error kinds of 60_exceptions.md R247. -/
inductive ErrorKind where
  /-- InvalidArgument, `E_INVAL`. -/
  | inval
  /-- Busy, `E_BUSY`. -/
  | busy
  /-- WouldBlock, `E_AGAIN`. -/
  | again
  /-- InvalidState, `E_STATE`. -/
  | state
  /-- LineError, and DMA Errored, `E_IO`. -/
  | io
  /-- Cancelled, `E_CANCELED`. -/
  | canceled
  deriving DecidableEq, Repr

/-- The six OPEN error codes, 32-bit two's complement (R5, 30_encoding.md R109). -/
structure ErrorCodes where
  inval : Word32
  busy : Word32
  again : Word32
  state : Word32
  io : Word32
  canceled : Word32
  deriving DecidableEq, Repr

/-- The code of a kind. -/
def ErrorCodes.code (c : ErrorCodes) : ErrorKind → Word32
  | .inval => c.inval
  | .busy => c.busy
  | .again => c.again
  | .state => c.state
  | .io => c.io
  | .canceled => c.canceled

/-- The six codes in one list, for the condition of R5. -/
def ErrorCodes.all (c : ErrorCodes) : List Word32 := [c.inval, c.busy, c.again, c.state, c.io, c.canceled]

/-- "The six error codes must be negative and pairwise distinct" (R5). -/
abbrev ErrorCodes.Valid (c : ErrorCodes) : Prop := c.all.all (fun e => e.msb) = true ∧ c.all.Nodup

/-- The OPEN parameters a machine is built with. `N_INST` is not here: it is the number of instances State lists. They stand in
State because no other argument reaches the step; no step changes them (log entry 1). -/
structure Params where
  /-- The six error codes. -/
  err : ErrorCodes
  /-- `N_DMA_CTRL`. -/
  nDmaCtrl : Nat
  /-- `N_DMA_CHAN`. -/
  nDmaChan : Nat
  /-- The (controller, channel) pairs for which the external predicate `DmaReady` is false (10_state.md R51). -/
  dmaNotReady : List (BitVec 8 × BitVec 8)
  /-- The register byte offsets (20_memory.md R61). -/
  offsets : RegisterOffsets
  deriving DecidableEq, Repr

/-- Parameters R5 admits; controllers and channels have 8-bit identifiers (10_state.md R24). -/
abbrev Params.Valid (p : Params) : Prop := p.err.Valid ∧ p.nDmaCtrl ≤ 256 ∧ p.nDmaChan ≤ 256

/-- `DmaReady(ctrl, chan)` (10_state.md R51). -/
def Params.dmaReady (p : Params) (ctrl chan : BitVec 8) : Bool := !p.dmaNotReady.contains (ctrl, chan)

/-- The defaults of R5, "the value the test vectors use", and of 20_memory.md R61; `DmaReady` true for every pair
(95_test_vectors.md). -/
def Params.default : Params where
  err := {
    inval := -22#32
    busy := -16#32
    again := -11#32
    state := -19#32
    io := -5#32
    canceled := -125#32 }
  nDmaCtrl := 1
  nDmaChan := 8
  dmaNotReady := []
  offsets := {
    data := 0x00
    enable := 0x04
    identity := 0x08
    lineControl := 0x0C
    modemControl := 0x10
    lineStatus := 0x14
    fifoStatus := 0x7C
    divisorFraction := 0xC0 }

/-- The default of `N_INST` (R5). -/
def defaultNInst : Nat := 2

/-! ### Free values -/

/-- FREE VALUE (93_implementation_defined.md U1): the byte an RBR read returns when the RX FIFO is empty. Nothing constrains it
(log entry 10). -/
opaque Config.emptyRbr : Nat → BitVec 8

/-- FREE VALUE (93_implementation_defined.md U3): bits 7:4 of a read of IIR. Nothing constrains it (log entry 10). -/
opaque Config.iirHigh : Nat → BitVec 4

end Sys2Proof
end

