-- ==== Sys2Proof/Machine/State.lean ====
section
/-! DEFINITION. The state of the UART block as plain data (spec/10_state.md), the command port (30_encoding.md R91, 60_exceptions.md
R270), the reasons a step can stop, and the state after reset (10_state.md R53). -/

namespace Sys2Proof.Machine

/-! ### Parts of one instance -/

/-- A direction, 0 = TX, 1 = RX (10_state.md R20). -/
inductive Dir where
  | tx
  | rx
  deriving DecidableEq, Repr

/-- Which engine accepted a transfer (10_state.md R21). -/
inductive Engine where
  | irq
  | dma
  deriving DecidableEq, Repr

/-- The fields of a slot that hold a value while it is Active (10_state.md R21). -/
structure Transfer where
  engine : Engine
  buf : Word32
  len : Word32
  done : Word32
  cb : Word32
  ctx : Word32
  deriving DecidableEq, Repr

/-- `slot[i][d]`: `state` Idle or Active. "While `state = Idle` the other six fields hold no value" (10_state.md R21), so they are
present only while Active (log entry 7). -/
inductive Slot where
  | idle
  | active (t : Transfer)
  deriving DecidableEq, Repr

/-- `dma_bind[i][d]`: `valid` 0 is Unconfigured, 1 is Configured with its identifiers (10_state.md R24; log entry 7). -/
inductive DmaBinding where
  | unconfigured
  | configured (ctrl chan : BitVec 8)
  deriving DecidableEq, Repr

/-- `thr_preset`: 0 = HALF_HALF, 1 = EMPTY_ONE (10_state.md R26). -/
inductive Preset where
  | halfHalf
  | emptyOne
  deriving DecidableEq, Repr

/-- `cfg`, the Configuration the instance owns (10_state.md R25). -/
structure Configuration where
  lineControl : BitVec 8
  baudDivisor : BitVec 24
  hwFc : Bool
  intEn : Bool
  deriving DecidableEq, Repr

/-- One entry of `rx_fifo`: a character with the indicators of its own frame (10_state.md R41). -/
structure RxEntry where
  data : Byte
  pe : Bool
  fe : Bool
  bi : Bool
  deriving DecidableEq, Repr

/-- The transmit shifter: `tx_shift_busy`, and `tx_shift_byte` "meaningful while busy" (10_state.md R43; log entry 7). -/
inductive Shifter where
  | idle
  | busy (byte : Byte)
  deriving DecidableEq, Repr

/-- `U[i]`: everything the spec gives one instance. -/
structure Uart where
  /-- LCR (R31). -/
  lcr : Byte
  /-- MCR (R32). -/
  mcr : Byte
  /-- IER (R34). -/
  ier : Byte
  /-- FCR shadow: FIFO enable (R33). -/
  fifoe : Bool
  /-- FCR shadow: TX-empty trigger (R33). -/
  tet : BitVec 2
  /-- FCR shadow: RX trigger (R33). -/
  rt : BitVec 2
  /-- Divisor latch low (R37). -/
  dll : Byte
  /-- Divisor latch high (R37). -/
  dlh : Byte
  /-- Divisor latch fraction (R37). -/
  dlf : Byte
  /-- LSR latch, overrun (R29, R35). -/
  latOe : Bool
  /-- LSR latch, parity error. -/
  latPe : Bool
  /-- LSR latch, framing error. -/
  latFe : Bool
  /-- LSR latch, break. -/
  latBi : Bool
  /-- TX FIFO, oldest first (R40). -/
  txFifo : List Byte
  /-- RX FIFO, oldest first (R41). -/
  rxFifo : List RxEntry
  /-- Transmit shifter (R43). -/
  shifter : Shifter
  /-- Character-timeout indication (R44). -/
  cto : Bool
  /-- Clear-to-send input (R45). -/
  ctsIn : Bool
  /-- Mask at the interrupt subsystem (R46). -/
  irqMasked : Bool
  /-- FIFO threshold preset (R26). -/
  thrPreset : Preset
  /-- Current configuration (R25). -/
  cfg : Configuration
  /-- `slot[i][TX]` (R21). -/
  txSlot : Slot
  /-- `slot[i][RX]` (R21). -/
  rxSlot : Slot
  /-- `dma_bind[i][TX]` (R24). -/
  txBind : DmaBinding
  /-- `dma_bind[i][RX]` (R24). -/
  rxBind : DmaBinding
  /-- `wire_log[i]`, oldest first (R50). -/
  wireLog : List Byte
  deriving DecidableEq, Repr

/-! ### Traces -/

/-- A callback record (30_encoding.md R110). -/
structure CbRecord where
  inst : Inst
  dir : Dir
  cb : Word32
  ctx : Word32
  err : Word32
  st : StatusFlags
  n : Word32
  deriving DecidableEq, Repr

/-- An entry of `dma_log` (10_state.md R50). -/
inductive DmaRecord where
  | cfg (inst : Inst) (dir : Dir) (ctrl chan : BitVec 8)
  | arm (inst : Inst) (dir : Dir) (ctrl chan : BitVec 8) (buf len : Word32)
  | disarm (inst : Inst) (dir : Dir) (ctrl chan : BitVec 8)
  deriving DecidableEq, Repr

/-! ### The command port and the agents' turns -/

/-- The execution contexts (60_exceptions.md R265): one foreground context per caller thread, the interrupt context and the
DMA-completion context. -/
inductive Context where
  | foreground (thread : Nat)
  | interrupt
  | dmaCompletion
  deriving DecidableEq, Repr

/-- A command word a context has presented on the command port and that is not yet taken (30_encoding.md R91). -/
structure Presented where
  ctx : Context
  word : BitVec 144
  deriving DecidableEq, Repr

/-- A held command (60_exceptions.md R270), with the number of bytes it has already moved: 0 but for `write_buffer`, which is a
sequence of held steps (20_memory.md R84). -/
structure Held where
  ctx : Context
  instr : Instr
  progress : Word32
  deriving DecidableEq, Repr

/-- A response (30_encoding.md R93); its 96-bit word is `Response.word`. -/
structure Response where
  res : Word32
  v0 : Word32
  v1 : Word32
  deriving DecidableEq, Repr

/-- Who moves next: the environment's choice, as data (00_scope.md R10, 20_memory.md R83; log entry 2). -/
inductive Turn where
  /-- The Host, in this context: its held command, or else the next command it presented. -/
  | host (ctx : Context)
  /-- The Handler, Dma or Line agent, the step labelled by this event word (30_encoding.md R94). -/
  | event (w : BitVec 32)
  /-- The caller's own program stores a byte to buffer memory (70_reset_and_hazards.md R292; log entry 12). -/
  | store (addr : Word32) (byte : Byte)
  /-- The completion callback running in this context, the one dispatched last, returns (46_callback.md R236, 60_exceptions.md R265;
  log entry 5). -/
  | callbackReturn (ctx : Context)
  deriving DecidableEq, Repr

/-! ### The whole state -/

/-- The state of the block, its command port and its traces. -/
structure State where
  /-- `U[0]`, `U[1]`, ...; the length is `N_INST` (00_scope.md R5). -/
  uarts : List Uart
  /-- The caller's buffer memory `mem` (10_state.md R49), sorted by address; an address not listed holds no value (R55). -/
  mem : List Host.Cell
  /-- `cb_log`, oldest first (R50). -/
  cbLog : List CbRecord
  /-- `dma_log`, oldest first (R50). -/
  dmaLog : List DmaRecord
  /-- Command words presented and not yet taken, in order (30_encoding.md R91). -/
  presented : List Presented
  /-- Held commands, at most one a context (60_exceptions.md R270). -/
  held : List Held
  /-- Responses returned so far, oldest first, each with its context (30_encoding.md R93). -/
  responses : List (Context × Response)
  /-- The context whose command is being performed; set by the step before a command runs (log entry 5). -/
  active : Context
  /-- The contexts in which completion callbacks are running, the one dispatched last first: entered by `Dispatch`, left when the
  callback returns (46_callback.md R236, R240, 60_exceptions.md R265; log entry 5). -/
  callbacks : List Context
  /-- Who moves next, in order (log entry 2). -/
  turns : List Turn
  /-- The OPEN parameters; no step changes them (log entry 1). -/
  params : Params
  /-- The counter the free values are applied to (log entry 10). -/
  freeCount : Nat
  deriving DecidableEq, Repr

/-- Why the machine stops. -/
inductive Fault where
  /-- A `MemRead` of a byte nothing has written: "a fault of the caller's program" (10_state.md R55, 93_implementation_defined.md
  U6; log entry 6). Raised by `write_buffer`, the TX service of `IRQ` and the TX beat of `DMA_BEAT`. Safe: the hardware would send
  some byte. The other fault U6 names, an access outside what the launch memory admits, has no counterpart here (log entry 19). -/
  | unwrittenByte (addr : Word32)
  deriving DecidableEq, Repr

/-- Why an instruction is given no effect. -/
inductive Refusal where
  /-- An instruction with no meaning yet; only arms of `exec` answer it, and none does. Safe. -/
  | notModelled (mnemonic : String)
  /-- A completion callback issues `write`, `read` or `write_buffer`: "the model refuses such a program" (46_callback.md R240,
  93_implementation_defined.md U7). Raised by those three commands. Safe. -/
  | blockingInCallback
  deriving DecidableEq, Repr

/-! ### Reset (10_state.md R53, 70_reset_and_hazards.md R280 to R282) -/

/-- One instance after reset. `ctsIn` and `cfg` have no reset value in the spec; the model's are log entries 8 and 9. -/
def Uart.reset : Uart where
  lcr := 0x00
  mcr := 0x00
  ier := 0x00
  fifoe := false
  tet := 0
  rt := 0
  dll := 0x00
  dlh := 0x00
  dlf := 0x00
  latOe := false
  latPe := false
  latFe := false
  latBi := false
  txFifo := []
  rxFifo := []
  shifter := .idle
  cto := false
  ctsIn := false
  irqMasked := true
  thrPreset := .halfHalf
  cfg := { lineControl := 0x00, baudDivisor := 0, hwFc := false, intEn := false }
  txSlot := .idle
  rxSlot := .idle
  txBind := .unconfigured
  rxBind := .unconfigured
  wireLog := []

/-- The machine right after reset, with the default parameters of 00_scope.md R5: no command presented and no turn given. -/
def State.reset : State where
  uarts := List.replicate defaultNInst Uart.reset
  mem := []
  cbLog := []
  dmaLog := []
  presented := []
  held := []
  responses := []
  active := .foreground 0
  callbacks := []
  turns := []
  params := Params.default
  freeCount := 0

end Sys2Proof.Machine
end

