-- ==== Sys2Proof/Machine/Flags.lean ====
section
/-! DEFINITION. Everything the UART block derives from its state: sizes and levels (spec/10_state.md R42), the LSR and FSR bytes
(R35, R38), the derived signals (R45, R47), StatusFlags (42_status_fifo.md R141, R142) and the interrupt conditions
(60_exceptions.md R252 to R256). -/

namespace Sys2Proof.Machine

/-! ### Register bits (30_encoding.md R103) -/

/-- LCR.DLAB, bit 7. -/
def Uart.dlab (u : Uart) : Bool := u.lcr.getLsbD 7
/-- MCR.AFCE, bit 5. -/
def Uart.afce (u : Uart) : Bool := u.mcr.getLsbD 5
/-- MCR.RTS, bit 1. -/
def Uart.rts (u : Uart) : Bool := u.mcr.getLsbD 1
/-- IER.RXAV, bit 0. -/
def Uart.rxav (u : Uart) : Bool := u.ier.getLsbD 0
/-- IER.THRE, bit 1. -/
def Uart.threEnable (u : Uart) : Bool := u.ier.getLsbD 1
/-- IER.LS, bit 2. -/
def Uart.lsEnable (u : Uart) : Bool := u.ier.getLsbD 2
/-- IER.PTIME, bit 7. -/
def Uart.ptime (u : Uart) : Bool := u.ier.getLsbD 7

/-! ### Sizes and levels -/

/-- `tx_count` (R40). -/
def Uart.txCount (u : Uart) : Nat := u.txFifo.length
/-- `rx_count` (R41). -/
def Uart.rxCount (u : Uart) : Nat := u.rxFifo.length
/-- `DEPTH(i)` (R42). -/
def Uart.depth (u : Uart) : Nat := if u.fifoe then fifoDepth else 1

/-- The TX-empty trigger levels (R33). -/
def tetLevel (t : BitVec 2) : Nat :=
  match t with
  | 0#2 => 0
  | 1#2 => 2
  | 2#2 => 4
  | 3#2 => 8

/-- The RX trigger levels (R33). -/
def rtLevel (t : BitVec 2) : Nat :=
  match t with
  | 0#2 => 1
  | 1#2 => 4
  | 2#2 => 8
  | 3#2 => 14

/-- `tx_level(i)` (R42). -/
def Uart.txLevel (u : Uart) : Nat := if u.fifoe && u.ptime then tetLevel u.tet else 0
/-- `rx_level(i)` (R42). -/
def Uart.rxLevel (u : Uart) : Nat := if u.fifoe then rtLevel u.rt else 1

/-! ### Signals (R45, R47) -/

/-- `tx_shift_busy` (R43). -/
def Uart.shiftBusy (u : Uart) : Bool :=
  match u.shifter with
  | .idle => false
  | .busy _ => true

/-- `thre(i)`: the data port can accept a byte. -/
def Uart.thre (u : Uart) : Bool := decide (u.txCount < u.depth)
/-- `temt(i)`. -/
def Uart.temt (u : Uart) : Bool := decide (u.txCount = 0) && !u.shiftBusy
/-- `dr(i)`. -/
def Uart.dr (u : Uart) : Bool := decide (0 < u.rxCount)
/-- `line_err(i)`. -/
def Uart.lineErr (u : Uart) : Bool := u.latOe || u.latPe || u.latFe || u.latBi
/-- `tx_cond(i)`. -/
def Uart.txCond (u : Uart) : Bool := decide (u.txCount ≤ u.txLevel)
/-- `rx_cond(i)`. -/
def Uart.rxCond (u : Uart) : Bool := decide (u.rxLevel ≤ u.rxCount)
/-- `rts_out(i)` (R45). -/
def Uart.rtsOut (u : Uart) : Bool := u.rts && (!u.afce || decide (u.rxCount < u.rxLevel))

/-- Does an entry carry an error indicator? -/
def RxEntry.flagged (e : RxEntry) : Bool := e.pe || e.fe || e.bi

/-- The byte a read of LSR returns (R35), most significant bit first. -/
def Uart.lsr (u : Uart) : Byte :=
  BitVec.ofBool (u.rxFifo.any RxEntry.flagged) ++ BitVec.ofBool u.temt ++ BitVec.ofBool u.thre ++ BitVec.ofBool u.latBi
    ++ BitVec.ofBool u.latFe ++ BitVec.ofBool u.latPe ++ BitVec.ofBool u.latOe ++ BitVec.ofBool u.dr

/-- The byte a read of FSR returns (R38): bit 3 RFNE, bit 1 TFNF. -/
def Uart.fsr (u : Uart) : Byte :=
  0#4 ++ BitVec.ofBool u.dr ++ 0#1 ++ BitVec.ofBool u.thre ++ 0#1

/-! ### StatusFlags -/

/-- `StatusOf(lsr, fsr)` (42_status_fifo.md R141). -/
def statusOf (lsr fsr : Byte) : StatusFlags :=
  (lsr.setWidth 9 &&& 0x01E)
    ||| (if lsr.getLsbD 6 then 0 else 0x020)
    ||| (if lsr.getLsbD 0 then 0x040 else 0)
    ||| (if fsr.getLsbD 1 then 0x080 else 0)
    ||| (if fsr.getLsbD 3 then 0x100 else 0)

/-- `ErrOf(lsr)` (42_status_fifo.md R142). -/
def errOf (lsr : Byte) : StatusFlags := lsr.setWidth 9 &&& 0x01E

/-! ### Interrupt conditions (60_exceptions.md R252 to R256) -/

/-- `pend_ls(i)`. -/
def Uart.pendLs (u : Uart) : Bool := u.lsEnable && u.lineErr
/-- `pend_rx(i)`. -/
def Uart.pendRx (u : Uart) : Bool := u.rxav && u.rxCond
/-- `pend_cto(i)`. -/
def Uart.pendCto (u : Uart) : Bool := u.rxav && u.cto
/-- `pend_tx(i)`. -/
def Uart.pendTx (u : Uart) : Bool := u.threEnable && u.txCond

/-- `iid(i)`: identity of the highest-priority pending source (R255), the low nibble of IIR. -/
def Uart.iid (u : Uart) : BitVec 4 :=
  if u.pendLs then 0x6
  else if u.pendRx then 0x4
  else if u.pendCto then 0xC
  else if u.pendTx then 0x2
  else 0x1

/-- `irq_out(i)`, the interrupt line (R256). -/
def Uart.irqOut (u : Uart) : Bool := u.pendLs || u.pendRx || u.pendCto || u.pendTx

/-- Is the `IRQ` event of the instance enabled (R256)? -/
def Uart.irqEnabled (u : Uart) : Bool := u.irqOut && !u.irqMasked

end Sys2Proof.Machine
end

