-- ==== Sys2Proof/Machine/Operands.lean ====
section
/-! DEFINITION. The operand forms and operand checks of the commands and events: directions (spec/30_encoding.md R97), line-control
codes (41_config.md R123) and their codec (30_encoding.md R106), the divisor (R105), the FCR value of a preset (R108), the word mask
(42_status_fifo.md R156) and the region and null checks (44_irq.md R185). -/

namespace Sys2Proof.Machine

/-- The direction of a DMA event: 0 = TX, 1 = RX; another byte names none (30_encoding.md R96). -/
def eventDir (b : BitVec 8) : Option Dir :=
  match b with
  | 0#8 => some .tx
  | 1#8 => some .rx
  | _ => none

/-- The direction operand of `dma_channel_config`, taken as a whole 32-bit number; none is invalid (30_encoding.md R97). -/
def commandDir (w : Word32) : Option Dir :=
  match w with
  | 0#32 => some .tx
  | 1#32 => some .rx
  | _ => none

/-- `LcValid(c)` (41_config.md R123). -/
def lcValid (c : BitVec 8) : Bool := decide (c ≤ 0x1F) && !(c.getLsbD 4 && !c.getLsbD 3)

/-- The threshold preset of `set_threshold`, the whole of a0; none if above 1 (41_config.md R130). -/
def presetOf (w : Word32) : Option Preset :=
  match w with
  | 0#32 => some .halfHalf
  | 1#32 => some .emptyOne
  | _ => none

/-- `FcrValue(p)` (41_config.md R128, 30_encoding.md R108). -/
def fcrValue : Preset → Byte
  | .halfHalf => 0xB7
  | .emptyOne => 0x07

/-- `pack(dlh, dll, dlf)` (30_encoding.md R105). -/
def pack (dlh dll dlf : Byte) : BitVec 24 :=
  (dlh.setWidth 24 <<< 16) ||| (dll.setWidth 24 <<< 8) ||| dlf.setWidth 24

/-- First part of `unpack(w)`: DLH (30_encoding.md R105). -/
def divHighByte (w : BitVec 24) : Byte := w.extractLsb' 16 8
/-- Second part of `unpack(w)`: DLL. -/
def divLowByte (w : BitVec 24) : Byte := w.extractLsb' 8 8
/-- Third part of `unpack(w)`: DLF. -/
def divFracByte (w : BitVec 24) : Byte := w.extractLsb' 0 8

/-! ### The line-control codec (30_encoding.md R106, 41_config.md R124) -/

/-- The parity of a line format: none, odd, even. -/
inductive Parity where
  | none
  | odd
  | even
  deriving DecidableEq, Repr

/-- The stop bits of a line format; 1.5 is the long stop of 5 data bits. -/
inductive StopBits where
  | one
  | oneAndHalf
  | two
  deriving DecidableEq, Repr

/-- The triple a line-control code stands for: data bits, parity, stop bits. -/
structure LineFormat where
  dataBits : Nat
  parity : Parity
  stop : StopBits
  deriving DecidableEq, Repr

/-- The 24 formats of R106: 5 to 8 data bits, and the long stop is 1.5 with 5 data bits, else 2. -/
def LineFormat.valid (f : LineFormat) : Bool :=
  decide (5 ≤ f.dataBits) && decide (f.dataBits ≤ 8) &&
    match f.stop with
    | .one => true
    | .oneAndHalf => decide (f.dataBits = 5)
    | .two => decide (f.dataBits ≠ 5)

/-- `decode(code)` (30_encoding.md R106). -/
def lineDecode (code : BitVec 5) : LineFormat where
  dataBits := 5 + (code.extractLsb' 0 2).toNat
  parity := if !code.getLsbD 3 then .none else if code.getLsbD 4 then .even else .odd
  stop := if !code.getLsbD 2 then .one else if code.extractLsb' 0 2 = 0 then .oneAndHalf else .two

/-- `code = DLS | STOP<<2 | PEN<<3 | EPS<<4`, the encoding direction (30_encoding.md R106, 41_config.md R124). -/
def lineEncode (f : LineFormat) : BitVec 5 :=
  let dls := BitVec.ofNat 5 (f.dataBits - 5)
  let stop : BitVec 5 :=
    match f.stop with
    | .one => 0x00
    | .oneAndHalf => 0x04
    | .two => 0x04
  let parity : BitVec 5 :=
    match f.parity with
    | .none => 0x00
    | .odd => 0x08
    | .even => 0x18
  dls ||| stop ||| parity

/-- The line format an instance is set to, `decode(LCR[4:0])` (41_config.md R124). -/
def Uart.lineFormat (u : Uart) : LineFormat := lineDecode (u.lcr.extractLsb' 0 5)

/-- `WordMask(i)`: the Line agent uses only the data-bit count of the format (42_status_fifo.md R156, 41_config.md R124). -/
def Uart.wordMask (u : Uart) : Byte := (1#8 <<< u.lineFormat.dataBits) - 1

/-- `buf + len > 2^32`, evaluated without truncation (00_scope.md R11 (b)). -/
def regionWraps (buf len : Word32) : Bool := decide (2 ^ 32 < buf.toNat + len.toNat)

/-- The operand checks of `StartCheck` after the instance check: null buffer, null callback, region wraps (44_irq.md R185). -/
def startOperandsBad (buf len cb : Word32) : Bool := decide (buf = 0) || decide (cb = 0) || regionWraps buf len

/-- The operand checks of `write_buffer` after the instance check (43_sync.md R176). -/
def bufferOperandsBad (buf len : Word32) : Bool := decide (buf = 0) || regionWraps buf len

end Sys2Proof.Machine
end

