-- ==== Sys2Proof/Machine/Ops.lean ====
section
/-! DEFINITION. The named operations of the UART block: buffer memory (spec/20_memory.md R79, R80), register accesses with their side
effects (R62 to R78), instances and slots, the command port (30_encoding.md R91, R93; 60_exceptions.md R246, R270), and what
ends a transfer, Finish and Dispatch (46_callback.md R235, R236). -/

namespace Sys2Proof.Machine

/-! ### Buffer memory -/

/-- A list of (address, byte) pairs, addresses strictly rising; an address not listed holds no value (10_state.md R55). -/
abbrev Memory := List Host.Cell

/-- The canonical form: addresses strictly rising and inside the 32-bit address space (20_memory.md R79). -/
abbrev Memory.wf (m : Memory) : Prop := m.Pairwise (fun a b => a.1 < b.1) ∧ ∀ c ∈ m, c.1 < 2 ^ 32

/-- What the list holds at a key; none for an address not listed. -/
def memLookup : Memory → Nat → Option Byte
  | [], _ => none
  | c :: m, a => if c.1 = a then some c.2 else memLookup m a

/-- Put a byte at a key, keeping the addresses rising. -/
def memInsert : Memory → Nat → Byte → Memory
  | [], a, b => [(a, b)]
  | c :: m, a, b =>
    if a < c.1 then (a, b) :: c :: m
    else if a = c.1 then (a, b) :: m
    else c :: memInsert m a b

/-- `MemRead(a, 1)` (20_memory.md R80); none where nothing has been written (10_state.md R55). The one bound on a read is that: there
is no extent of the "launch memory" (log entry 19). -/
def memRead (m : Memory) (a : Word32) : Option Byte := memLookup m a.toNat

/-- `MemWrite(a, 1, v)` (20_memory.md R80). DESIGN CHOICE (log entry 19): the spec gives no extent of the "launch memory" an access
could fall outside of (R81, 93_implementation_defined.md U6), so every 32-bit address can be written. -/
def memWrite (m : Memory) (a : Word32) (v : Byte) : Memory := memInsert m a.toNat v

/-! ### Register accesses -/

/-- Head exposure: the flags of the entry that is now the head are ORed into the latches (10_state.md R41). -/
def Uart.exposeHead (u : Uart) : Uart :=
  match u.rxFifo with
  | [] => u
  | e :: _ => { u with latPe := u.latPe || e.pe, latFe := u.latFe || e.fe, latBi := u.latBi || e.bi }

/-- A read of RBR (20_memory.md R64). On an empty FIFO the byte is free and nothing changes (93 U1). -/
def Uart.readRbr (n : Nat) (u : Uart) : Byte × Uart :=
  match u.rxFifo with
  | [] => (Config.emptyRbr n, u)
  | e :: rest => (e.data, Uart.exposeHead { u with rxFifo := rest, cto := false })

/-- A read of LSR (20_memory.md R68): the byte from the state before, then the four latches are cleared. -/
def Uart.readLsr (u : Uart) : Byte × Uart :=
  (u.lsr, { u with latOe := false, latPe := false, latFe := false, latBi := false })

/-- A write of THR (20_memory.md R72): appended if there is room, else discarded (93 U2). -/
def Uart.writeThr (v : Byte) (u : Uart) : Uart :=
  if u.thre then { u with txFifo := u.txFifo ++ [v] } else u

/-- A write of FCR (20_memory.md R75), its five parts in order. -/
def Uart.writeFcr (v : Byte) (u : Uart) : Uart :=
  let u := if v.getLsbD 0 = u.fifoe then u else { u with txFifo := [], rxFifo := [], cto := false }
  let u := { u with fifoe := v.getLsbD 0 }
  let u := if v.getLsbD 1 then { u with rxFifo := [], cto := false } else u
  let u := if v.getLsbD 2 then { u with txFifo := [] } else u
  { u with tet := v.extractLsb' 4 2, rt := v.extractLsb' 6 2 }

/-- `RegRead(i, r)` (20_memory.md R62 to R70), `r` by its place; `n` is what the free values are applied to. -/
def Uart.regRead (n : Nat) (p : Place) (u : Uart) : Byte × Uart :=
  match p with
  | .data => if u.dlab then (u.dll, u) else u.readRbr n
  | .enable => if u.dlab then (u.dlh, u) else (u.ier, u)
  | .identity => (Config.iirHigh n ++ u.iid, u)
  | .lineControl => (u.lcr, u)
  | .modemControl => (u.mcr, u)
  | .lineStatus => u.readLsr
  | .fifoStatus => (u.fsr, u)
  | .divisorFraction => (u.dlf, u)

/-- `RegWrite(i, r, v)` (20_memory.md R62, R71 to R78), `r` by its place. -/
def Uart.regWrite (p : Place) (v : Byte) (u : Uart) : Uart :=
  match p with
  | .data => if u.dlab then { u with dll := v } else u.writeThr v
  | .enable => if u.dlab then { u with dlh := v } else { u with ier := v &&& 0x87 }
  | .identity => u.writeFcr v
  | .lineControl => { u with lcr := v }
  | .modemControl => { u with mcr := v &&& 0x22 }
  | .lineStatus => u
  | .fifoStatus => u
  | .divisorFraction => { u with dlf := v }

/-- `RegWrite(i, IER, RegRead(i, IER) | m)` (44_irq.md R186, R190). -/
def Uart.ierSet (n : Nat) (m : Byte) (u : Uart) : Uart :=
  let r := u.regRead n .enable
  r.2.regWrite .enable (r.1 ||| m)

/-- `RegWrite(i, IER, RegRead(i, IER) & ~m)` (44_irq.md R194, R195, R202, R204, R206). -/
def Uart.ierClear (n : Nat) (m : Byte) (u : Uart) : Uart :=
  let r := u.regRead n .enable
  r.2.regWrite .enable (r.1 &&& ~~~m)

/-! ### Slots and bindings -/

/-- `slot[i][d]`. -/
def Uart.slot (d : Dir) (u : Uart) : Slot :=
  match d with
  | .tx => u.txSlot
  | .rx => u.rxSlot

/-- Write `slot[i][d]`. -/
def Uart.setSlot (d : Dir) (x : Slot) (u : Uart) : Uart :=
  match d with
  | .tx => { u with txSlot := x }
  | .rx => { u with rxSlot := x }

/-- `dma_bind[i][d]`. -/
def Uart.bind (d : Dir) (u : Uart) : DmaBinding :=
  match d with
  | .tx => u.txBind
  | .rx => u.rxBind

/-- Write `dma_bind[i][d]`. -/
def Uart.setBind (d : Dir) (x : DmaBinding) (u : Uart) : Uart :=
  match d with
  | .tx => { u with txBind := x }
  | .rx => { u with rxBind := x }

/-- `slot[i][d].state = Active`. -/
def Slot.isActive : Slot → Bool
  | .idle => false
  | .active _ => true

/-- The transfer of a slot that is Active under an engine: `s.state = Active and s.engine = e`. -/
def Slot.ownedBy (e : Engine) : Slot → Option Transfer
  | .idle => none
  | .active t => if t.engine = e then some t else none

/-! ### Instances -/

/-- `U[i]`; none iff `inst >= N_INST` (30_encoding.md R97). -/
def State.uart? (s : State) (i : Inst) : Option Uart := s.uarts[i.toNat]?

/-- Write `U[i]`. -/
def State.setUart (s : State) (i : Inst) (u : Uart) : State := { s with uarts := s.uarts.set i.toNat u }

/-! ### The command port -/

/-- The response word RSP: bits 31:0 `res`, bits 63:32 `v0`, bits 95:64 `v1` (30_encoding.md R93). -/
def Response.word (r : Response) : BitVec 96 := r.v1 ++ r.v0 ++ r.res

/-- Complete the command being performed: the response word goes to its context, which holds no command any more
(30_encoding.md R91, R93). -/
def State.respond (s : State) (res v0 v1 : Word32) : State :=
  { s with
    responses := s.responses ++ [(s.active, { res := res, v0 := v0, v1 := v1 })]
    held := s.held.filter (fun h => decide (h.ctx ≠ s.active)) }

/-- `return 0`. -/
def State.returnOk (s : State) : State := s.respond 0 0 0

/-- `raise E`: the command completes with `res = E`, `v0 = v1 = 0`, and nothing else changes (60_exceptions.md R246). -/
def State.raise (s : State) (e : ErrorKind) : State := s.respond (s.params.err.code e) 0 0

/-- `hold`: the command being performed has no step now; its context keeps it, with the bytes it has moved (60_exceptions.md
R270). -/
def State.hold (s : State) (i : Instr) (progress : Word32) : State :=
  { s with
    held := { ctx := s.active, instr := i, progress := progress }
      :: s.held.filter (fun h => decide (h.ctx ≠ s.active)) }

/-- The held command of a context. -/
def State.heldOf (s : State) (c : Context) : Option Held := s.held.find? (fun h => decide (h.ctx = c))

/-- The bytes this command has moved: those of the held command of the context, if it is this one, else none. -/
def State.progressOf (s : State) (i : Instr) : Word32 :=
  match s.heldOf s.active with
  | some h => if h.instr = i then h.progress else 0
  | none => 0

/-- The outcome of every step and meaning. -/
abbrev Result := Host.Outcome State Fault Refusal

/-- `if inst >= N_INST then raise E_INVAL`, the first check of every command (60_exceptions.md R257). -/
def forCommand (i : Inst) (s : State) (k : Uart → Result) : Result :=
  match s.uart? i with
  | none => .next (s.raise .inval)
  | some u => k u

/-- An event of an instance that does not exist, or whose enabling condition is false, labels no step: nothing changes (log
entry 3). -/
def forEvent (i : Inst) (s : State) (enabled : Uart → Bool) (k : Uart → Result) : Result :=
  match s.uart? i with
  | none => .next s
  | some u => if enabled u then k u else .next s

/-- May a context issue commands now? A foreground context always; the two asynchronous contexts only while a callback runs in them
(60_exceptions.md R265, R266). -/
def State.entered (s : State) (c : Context) : Bool :=
  match c with
  | .foreground _ => true
  | .interrupt => decide (c ∈ s.callbacks)
  | .dmaCompletion => decide (c ∈ s.callbacks)

/-- A command that can hold, issued by a completion callback, is refused (46_callback.md R240, 93_implementation_defined.md U7). While
a callback runs in a context, the commands of that context are the callback's. -/
def unlessCallback (s : State) (k : Result) : Result :=
  if s.active ∈ s.callbacks then .refused .blockingInCallback else k

/-! ### Ending a transfer -/

/-- `Dispatch(i, d, cb, ctx, err, st, n)` (46_callback.md R236): the record is the dispatch, and from then on the callback runs in
the context `c` of the step that called `Finish` (R240). -/
def dispatch (c : Context) (i : Inst) (d : Dir) (cb ctx err : Word32) (st : StatusFlags) (n : Word32) (s : State) : State :=
  { s with
    cbLog := s.cbLog ++ [{ inst := i, dir := d, cb := cb, ctx := ctx, err := err, st := st, n := n }]
    callbacks := c :: s.callbacks }

/-- The callback dispatched last in a context returns; without one nothing happens (60_exceptions.md R265: the context is left at the
end "of the callback's commands"). -/
def State.callbackReturn (s : State) (c : Context) : State := { s with callbacks := s.callbacks.erase c }

/-- `Finish(i, d, err, st, n)`, called in the context `c` (46_callback.md R235, R240): compare-and-set on the slot, Idle before the
callback. -/
def finish (c : Context) (i : Inst) (d : Dir) (err : Word32) (st : StatusFlags) (n : Word32) (s : State) : State :=
  match s.uart? i with
  | none => s
  | some u =>
    match u.slot d with
    | .idle => s
    | .active t => dispatch c i d t.cb t.ctx err st n (s.setUart i (u.setSlot d .idle))

/-- `emit dma_log(r)` (10_state.md R50). -/
def State.emitDma (s : State) (r : DmaRecord) : State := { s with dmaLog := s.dmaLog ++ [r] }

end Sys2Proof.Machine
end

