-- ==== Sys2Proof/Machine/Configure.lean ====
section
/-! DEFINITION. The configuration state machine, spec/41_config.md: `set_config` and `set_threshold`. -/

namespace Sys2Proof.Machine

/-- `ConfigSequence(i, lc, div, fc, ie)`, steps S1 to S9 in order (41_config.md R122); S0 has no effect of its own. -/
def configSequence (n : Nat) (lc : BitVec 8) (div : BitVec 24) (fc ie : Bool) (u : Uart) : Uart :=
  let u := u.regWrite .lineControl 0x80
  let u := u.regWrite .data (divLowByte div)
  let u := u.regWrite .enable (divHighByte div)
  let u := u.regWrite .divisorFraction (divFracByte div)
  let u := u.regWrite .lineControl lc
  let u := u.regWrite .modemControl (if fc then 0x22 else 0x00)
  let u := u.regWrite .identity (fcrValue u.thrPreset)
  let r := u.regRead n .enable
  let u := r.2.regWrite .enable ((r.1 &&& 0x07) ||| 0x80)
  { u with irqMasked := !ie }

/-- `set_config` (41_config.md R121). -/
def execSetConfig (i : Inst) (lc : BitVec 8) (div : BitVec 24) (divHigh : BitVec 8) (fc ie valid : Bool) (s : State) : Result :=
  forCommand i s fun u =>
    if !valid then .next (s.raise .inval)
    else if !lcValid lc then .next (s.raise .inval)
    else if divHigh ≠ 0 then .next (s.raise .inval)
    else
      let u := configSequence s.freeCount lc div fc ie u
      let u := { u with cfg := { lineControl := lc, baudDivisor := div, hwFc := fc, intEn := ie } }
      .next (s.setUart i u).returnOk

/-- `set_threshold` (41_config.md R130). -/
def execSetThreshold (i : Inst) (preset : Word32) (s : State) : Result :=
  forCommand i s fun u =>
    match presetOf preset with
    | none => .next (s.raise .inval)
    | some p => .next (s.setUart i (Uart.regWrite .identity (fcrValue p) { u with thrPreset := p })).returnOk

end Sys2Proof.Machine
end

