-- ==== Sys2Proof/Machine/Dma.lean ====
section
/-! DEFINITION. The DMA engine, spec/45_dma.md: `dma_channel_config`, `dma_write`, `dma_read`, their terminates, and the events
`DMA_BEAT` and `DMA_DONE` of the Dma agent. -/

namespace Sys2Proof.Machine

/-! ### Commands -/

/-- `dma_channel_config` (45_dma.md R216): checks in the order written, then the binding and the trace entry. -/
def execDmaChannelConfig (i : Inst) (ctrl chan dir : Word32) (s : State) : Result :=
  forCommand i s fun u =>
    match commandDir dir with
    | none => .next (s.raise .inval)
    | some d =>
      let c := ctrl.setWidth 8
      let h := chan.setWidth 8
      if s.params.nDmaCtrl ≤ ctrl.toNat ∨ s.params.nDmaChan ≤ chan.toNat then .next (s.raise .inval)
      else if !s.params.dmaReady c h then .next (s.raise .state)
      else if (u.slot d).isActive then .next (s.raise .busy)
      else .next ((s.setUart i (u.setBind d (.configured c h))).emitDma (.cfg i d c h)).returnOk

/-- The start of a DMA transfer (45_dma.md R219, R221): StartCheck, the 4096-byte bound, `E_STATE`, `E_BUSY`, then the slot and
the arm. -/
def startDma (d : Dir) (i : Inst) (buf len cb ctx : Word32) (s : State) : Result :=
  forCommand i s fun u =>
    if startOperandsBad buf len cb then .next (s.raise .inval)
    else if dmaMaxLen < len.toNat then .next (s.raise .inval)
    else
      match u.bind d with
      | .unconfigured => .next (s.raise .state)
      | .configured c h =>
        if (u.slot d).isActive then .next (s.raise .busy)
        else
          let t : Transfer := { engine := .dma, buf := buf, len := len, done := 0, cb := cb, ctx := ctx }
          .next ((s.setUart i (u.setSlot d (.active t))).emitDma (.arm i d c h buf len)).returnOk

/-- `emit dma_log(disarm(...))` with the identifiers of the binding; a binding with none has nothing to record, which no reachable
state meets (log entry 13). -/
def emitDisarm (i : Inst) (d : Dir) (b : DmaBinding) (s : State) : State :=
  match b with
  | .unconfigured => s
  | .configured c h => s.emitDma (.disarm i d c h)

/-- The end of a DMA transfer by its caller (45_dma.md R223); success with no effect otherwise (R225). -/
def terminateDma (d : Dir) (i : Inst) (s : State) : Result :=
  forCommand i s fun u =>
    match (u.slot d).ownedBy .dma with
    | none => .next s.returnOk
    | some t => .next (finish s.active i d (s.params.err.code .canceled) 0 t.done (emitDisarm i d (u.bind d) s)).returnOk

/-- `dma_write` (45_dma.md R219). -/
def execDmaWrite (i : Inst) (buf len cb ctx : Word32) (s : State) : Result := startDma .tx i buf len cb ctx s

/-- `dma_read` (45_dma.md R221). -/
def execDmaRead (i : Inst) (buf len cb ctx : Word32) (s : State) : Result := startDma .rx i buf len cb ctx s

/-- `dma_write_terminate` (45_dma.md R223). -/
def execDmaWriteTerminate (i : Inst) (s : State) : Result := terminateDma .tx i s

/-- `dma_read_terminate` (45_dma.md R224). -/
def execDmaReadTerminate (i : Inst) (s : State) : Result := terminateDma .rx i s

/-! ### Events -/

/-- A TX beat (45_dma.md R226): one byte from the buffer to THR, while `thre(i)`. -/
def beatTx (i : Inst) (s : State) : Result :=
  forEvent i s (fun _ => true) fun u =>
    match u.txSlot.ownedBy .dma with
    | none => .next s
    | some t =>
      if t.done < t.len ∧ u.thre = true then
        match memRead s.mem (t.buf + t.done) with
        | none => .fault (.unwrittenByte (t.buf + t.done))
        | some b =>
          .next (s.setUart i ((u.regWrite .data b).setSlot .tx (.active { t with done := t.done + 1 })))
      else .next s

/-- An RX beat (45_dma.md R226): one byte from RBR to the buffer, while `dr(i)`. -/
def beatRx (i : Inst) (s : State) : Result :=
  forEvent i s (fun _ => true) fun u =>
    match u.rxSlot.ownedBy .dma with
    | none => .next s
    | some t =>
      if t.done < t.len ∧ u.dr = true then
        let r := u.regRead s.freeCount .data
        let s' := { s with mem := memWrite s.mem (t.buf + t.done) r.1 }
        .next (s'.setUart i (r.2.setSlot .rx (.active { t with done := t.done + 1 })))
      else .next s

/-- `DMA_BEAT` (45_dma.md R226). -/
def execDmaBeat (i : Inst) (dir : BitVec 8) (s : State) : Result :=
  match eventDir dir with
  | none => .next s
  | some .tx => beatTx i s
  | some .rx => beatRx i s

/-- The completion notification for a direction (45_dma.md R227): success only once `done = len`, error at any point. -/
def dmaNotify (i : Inst) (d : Dir) (ok : Bool) (s : State) : Result :=
  forEvent i s (fun _ => true) fun u =>
    match (u.slot d).ownedBy .dma with
    | none => .next s
    | some t =>
      if ok then if t.done = t.len then .next (finish .dmaCompletion i d 0 0 t.len s) else .next s
      else .next (finish .dmaCompletion i d (s.params.err.code .io) 0 t.done s)

/-- `DMA_DONE` (45_dma.md R227), in the DMA-completion context (60_exceptions.md R265). -/
def execDmaDone (i : Inst) (dir : BitVec 8) (ok : Bool) (s : State) : Result :=
  match eventDir dir with
  | none => .next s
  | some d => dmaNotify i d ok s

end Sys2Proof.Machine
end

