-- ==== Sys2Proof/Machine/Irq.lean ====
section
/-! DEFINITION. The interrupt-driven engine, spec/44_irq.md: `irq_write`, `irq_read`, their terminates, and the handler event `IRQ`
with its three services. -/

namespace Sys2Proof.Machine

/-! ### Commands -/

/-- The start of an interrupt-driven transfer (44_irq.md R186, R190): StartCheck, `E_BUSY`, then the slot and the IER bits. -/
def startIrq (d : Dir) (enable : Byte) (i : Inst) (buf len cb ctx : Word32) (s : State) : Result :=
  forCommand i s fun u =>
    if startOperandsBad buf len cb then .next (s.raise .inval)
    else if (u.slot d).isActive then .next (s.raise .busy)
    else
      let t : Transfer := { engine := .irq, buf := buf, len := len, done := 0, cb := cb, ctx := ctx }
      .next (s.setUart i ((u.setSlot d (.active t)).ierSet s.freeCount enable)).returnOk

/-- The end of an interrupt-driven transfer by its caller (44_irq.md R194, R195); success with no effect otherwise (R196). -/
def terminateIrq (d : Dir) (enable : Byte) (i : Inst) (s : State) : Result :=
  forCommand i s fun u =>
    match (u.slot d).ownedBy .irq with
    | none => .next s.returnOk
    | some t =>
      let s' := s.setUart i (u.ierClear s.freeCount enable)
      .next (finish s.active i d (s.params.err.code .canceled) 0 t.done s').returnOk

/-- `irq_write` (44_irq.md R186): enables IER.THRE. -/
def execIrqWrite (i : Inst) (buf len cb ctx : Word32) (s : State) : Result := startIrq .tx 0x02 i buf len cb ctx s

/-- `irq_read` (44_irq.md R190): enables IER.RXAV and IER.LS. -/
def execIrqRead (i : Inst) (buf len cb ctx : Word32) (s : State) : Result := startIrq .rx 0x05 i buf len cb ctx s

/-- `irq_write_terminate` (44_irq.md R194). -/
def execIrqWriteTerminate (i : Inst) (s : State) : Result := terminateIrq .tx 0x02 i s

/-- `irq_read_terminate` (44_irq.md R195). -/
def execIrqReadTerminate (i : Inst) (s : State) : Result := terminateIrq .rx 0x05 i s

/-! ### Services -/

/-- The refill loop of `ServiceTx` (44_irq.md R202): `k` bytes from the buffer to THR. -/
def txRefill (m : Memory) : Nat → Transfer → Uart → Except Fault (Transfer × Uart)
  | 0, t, u => .ok (t, u)
  | k + 1, t, u =>
    match memRead m (t.buf + t.done) with
    | none => .error (.unwrittenByte (t.buf + t.done))
    | some b => txRefill m k { t with done := t.done + 1 } (u.regWrite .data b)

/-- `ServiceTx(i)` (44_irq.md R202, R208). -/
def serviceTx (i : Inst) (u : Uart) (s : State) : Result :=
  match u.txSlot.ownedBy .irq with
  | none => .next (s.setUart i (u.ierClear s.freeCount 0x02))
  | some t =>
    match txRefill s.mem (min txChunk (t.len.toNat - t.done.toNat)) t u with
    | .error f => .fault f
    | .ok (t', u') =>
      let u' := u'.setSlot .tx (.active t')
      if t'.done = t'.len then .next (finish .interrupt i .tx 0 0 t'.len (s.setUart i (u'.ierClear s.freeCount 0x02)))
      else .next (s.setUart i u')

/-- The drain loop of `ServiceRx` (44_irq.md R204): at most the given number of pops; it stops at an empty FIFO, a full buffer or
a latched error. -/
def rxDrain (n : Nat) : Nat → Memory → Transfer → Uart → Memory × Transfer × Uart
  | 0, m, t, u => (m, t, u)
  | k + 1, m, t, u =>
    if u.dr && decide (t.done < t.len) && !u.lineErr then
      let r := u.regRead n .data
      rxDrain n k (memWrite m (t.buf + t.done) r.1) { t with done := t.done + 1 } r.2
    else (m, t, u)

/-- `ServiceRx(i)` (44_irq.md R204, R208), the RX-data and character-timeout service. -/
def serviceRx (i : Inst) (u : Uart) (s : State) : Result :=
  match u.rxSlot.ownedBy .irq with
  | none => .next (s.setUart i (u.ierClear s.freeCount 0x05))
  | some t =>
    match rxDrain s.freeCount rxDrainMax s.mem t u with
    | (m, t', u') =>
      let u' := u'.setSlot .rx (.active t')
      let s' := { s with mem := m }
      if t'.done = t'.len then .next (finish .interrupt i .rx 0 0 t'.len (s'.setUart i (u'.ierClear s.freeCount 0x05)))
      else .next (s'.setUart i u')

/-- `ServiceLineStatus(i)` (44_irq.md R206, R208). -/
def serviceLineStatus (i : Inst) (u : Uart) (s : State) : Result :=
  let lsr := u.regRead s.freeCount .lineStatus
  match lsr.2.rxSlot.ownedBy .irq with
  | none => .next (s.setUart i (lsr.2.ierClear s.freeCount 0x04))
  | some t =>
    .next (finish .interrupt i .rx (s.params.err.code .io) (errOf lsr.1) t.done (s.setUart i (lsr.2.ierClear s.freeCount 0x05)))

/-- `IRQ` (44_irq.md R200), in the interrupt context (60_exceptions.md R265): one service, the one of the highest priority. The identity is `iid(i)`, which is what
`RegRead(i, IIR) & 0x0F` is (20_memory.md R67; log entry 11). -/
def execIrq (i : Inst) (s : State) : Result :=
  forEvent i s Uart.irqEnabled fun u =>
    match u.iid with
    | 0x6#4 => serviceLineStatus i u s
    | 0x4#4 => serviceRx i u s
    | 0xC#4 => serviceRx i u s
    | 0x2#4 => serviceTx i u s
    | _ => .next s

end Sys2Proof.Machine
end

