-- ==== Sys2Proof/Machine/Line.lean ====
section
/-! DEFINITION. The events of the Line agent, spec/42_status_fifo.md R150 to R156. -/

namespace Sys2Proof.Machine

/-- The effect of a received character (42_status_fifo.md R151). -/
def Uart.receive (data : Byte) (pe fe bi : Bool) (u : Uart) : Uart :=
  if u.rxCount < u.depth then
    let e : RxEntry := { data := data &&& u.wordMask, pe := pe, fe := fe, bi := bi }
    let u' := { u with rxFifo := u.rxFifo ++ [e] }
    if u.rxCount = 0 then u'.exposeHead else u'
  else { u with latOe := true }

/-- `LINE_RX` (42_status_fifo.md R151), always enabled. -/
def execLineRx (i : Inst) (data : Byte) (pe fe bi : Bool) (s : State) : Result :=
  forEvent i s (fun _ => true) fun u => .next (s.setUart i (u.receive data pe fe bi))

/-- May the shifter take the next character (42_status_fifo.md R152)? -/
def Uart.loadEnabled (u : Uart) : Bool := decide (0 < u.txCount) && !u.shiftBusy && (!u.afce || u.ctsIn)

/-- `LINE_TX_LOAD` (42_status_fifo.md R152). -/
def execLineTxLoad (i : Inst) (s : State) : Result :=
  forEvent i s Uart.loadEnabled fun u =>
    match u.txFifo with
    | [] => .next s
    | b :: rest => .next (s.setUart i { u with txFifo := rest, shifter := .busy (b &&& u.wordMask) })

/-- `LINE_TX_DONE` (42_status_fifo.md R153), enabled while the shifter is busy. -/
def execLineTxDone (i : Inst) (s : State) : Result :=
  forEvent i s Uart.shiftBusy fun u =>
    match u.shifter with
    | .idle => .next s
    | .busy b => .next (s.setUart i { u with wireLog := u.wireLog ++ [b], shifter := .idle })

/-- May the character timeout expire (42_status_fifo.md R154)? -/
def Uart.ctoEnabled (u : Uart) : Bool := u.fifoe && u.dr && !u.cto

/-- `LINE_CTO` (42_status_fifo.md R154). -/
def execLineCto (i : Inst) (s : State) : Result :=
  forEvent i s Uart.ctoEnabled fun u => .next (s.setUart i { u with cto := true })

/-- `LINE_CTS` (42_status_fifo.md R155), always enabled. -/
def execLineCts (i : Inst) (level : Bool) (s : State) : Result :=
  forEvent i s (fun _ => true) fun u => .next (s.setUart i { u with ctsIn := level })

end Sys2Proof.Machine
end

