-- ==== Sys2Proof/Machine/Status.lean ====
section
/-! DEFINITION. The status tracker, spec/42_status_fifo.md: `get_status`. -/

namespace Sys2Proof.Machine

/-- `get_status` (42_status_fifo.md R140): LSR is read first, which clears the four latches, then FSR. -/
def execGetStatus (i : Inst) (s : State) : Result :=
  forCommand i s fun u =>
    let lsr := u.regRead s.freeCount .lineStatus
    let fsr := lsr.2.regRead s.freeCount .fifoStatus
    .next ((s.setUart i fsr.2).respond 0 ((statusOf lsr.1 fsr.1).setWidth 32) 0)

end Sys2Proof.Machine
end

