-- ==== Sys2Proof/Machine/Sync.lean ====
section
/-! DEFINITION. The synchronous engine, spec/43_sync.md: `write`, `read`, `write_non_block`, `read_non_block`, `write_buffer`. -/

namespace Sys2Proof.Machine

/-- `write` (43_sync.md R170): held until `thre(i)`. -/
def execWrite (i : Inst) (byte : Byte) (s : State) : Result :=
  unlessCallback s <| forCommand i s fun u =>
    if u.thre then .next (s.setUart i (u.regWrite .data byte)).returnOk
    else .next (s.hold (.write i byte) 0)

/-- `read` (43_sync.md R172): held until `dr(i)`; LSR first, then RBR, in one step. -/
def execRead (i : Inst) (s : State) : Result :=
  unlessCallback s <| forCommand i s fun u =>
    if u.dr then
      let lsr := u.regRead s.freeCount .lineStatus
      let b := lsr.2.regRead s.freeCount .data
      .next ((s.setUart i b.2).respond 0 (b.1.setWidth 32) ((errOf lsr.1).setWidth 32))
    else .next (s.hold (.read i) 0)

/-- `write_non_block` (43_sync.md R174). -/
def execWriteNonBlock (i : Inst) (byte : Byte) (s : State) : Result :=
  forCommand i s fun u =>
    let fsr := u.regRead s.freeCount .fifoStatus
    if !fsr.1.getLsbD 1 then .next (s.raise .again)
    else .next (s.setUart i (fsr.2.regWrite .data byte)).returnOk

/-- `read_non_block` (43_sync.md R175): no status, and LSR is not read. -/
def execReadNonBlock (i : Inst) (s : State) : Result :=
  forCommand i s fun u =>
    let fsr := u.regRead s.freeCount .fifoStatus
    if !fsr.1.getLsbD 3 then .next (s.raise .again)
    else
      let b := fsr.2.regRead s.freeCount .data
      .next ((s.setUart i b.2).respond 0 (b.1.setWidth 32) 0)

/-- One held step of `write_buffer` (43_sync.md R176): byte `k` is read from memory in the step that writes it; the command
returns with its last byte, and at once if it has none (R177 (a)). -/
def execWriteBuffer (i : Inst) (buf len : Word32) (s : State) : Result :=
  unlessCallback s <| forCommand i s fun u =>
    if bufferOperandsBad buf len then .next (s.raise .inval)
    else
      let k := s.progressOf (.writeBuffer i buf len)
      if len ≤ k then .next s.returnOk
      else if !u.thre then .next (s.hold (.writeBuffer i buf len) k)
      else
        match memRead s.mem (buf + k) with
        | none => .fault (.unwrittenByte (buf + k))
        | some b =>
          let s' := s.setUart i (u.regWrite .data b)
          if k + 1 = len then .next s'.returnOk else .next (s'.hold (.writeBuffer i buf len) (k + 1))

end Sys2Proof.Machine
end

