-- ==== Sys2Proof/Machine/Dispatch.lean ====
section
/-! DEFINITION. One arm per row of spec/opcode_table.json. -/

namespace Sys2Proof.Machine

def exec (i : Instr) (s : State) : Host.Outcome State Fault Refusal :=
  match i with
  | .setConfig n lc div divHigh fc ie valid => Sys2Proof.Machine.execSetConfig n lc div divHigh fc ie valid s
  | .getStatus n => Sys2Proof.Machine.execGetStatus n s
  | .write n byte => Sys2Proof.Machine.execWrite n byte s
  | .read n => Sys2Proof.Machine.execRead n s
  | .writeNonBlock n byte => Sys2Proof.Machine.execWriteNonBlock n byte s
  | .readNonBlock n => Sys2Proof.Machine.execReadNonBlock n s
  | .writeBuffer n buf len => Sys2Proof.Machine.execWriteBuffer n buf len s
  | .irqWrite n buf len cb ctx => Sys2Proof.Machine.execIrqWrite n buf len cb ctx s
  | .irqRead n buf len cb ctx => Sys2Proof.Machine.execIrqRead n buf len cb ctx s
  | .irqWriteTerminate n => Sys2Proof.Machine.execIrqWriteTerminate n s
  | .irqReadTerminate n => Sys2Proof.Machine.execIrqReadTerminate n s
  | .dmaChannelConfig n ctrl chan dir => Sys2Proof.Machine.execDmaChannelConfig n ctrl chan dir s
  | .dmaWrite n buf len cb ctx => Sys2Proof.Machine.execDmaWrite n buf len cb ctx s
  | .dmaRead n buf len cb ctx => Sys2Proof.Machine.execDmaRead n buf len cb ctx s
  | .dmaWriteTerminate n => Sys2Proof.Machine.execDmaWriteTerminate n s
  | .dmaReadTerminate n => Sys2Proof.Machine.execDmaReadTerminate n s
  | .setThreshold n preset => Sys2Proof.Machine.execSetThreshold n preset s
  | .irq n => Sys2Proof.Machine.execIrq n s
  | .dmaBeat n dir => Sys2Proof.Machine.execDmaBeat n dir s
  | .dmaDone n dir ok => Sys2Proof.Machine.execDmaDone n dir ok s
  | .lineRx n data pe fe bi => Sys2Proof.Machine.execLineRx n data pe fe bi s
  | .lineTxLoad n => Sys2Proof.Machine.execLineTxLoad n s
  | .lineTxDone n => Sys2Proof.Machine.execLineTxDone n s
  | .lineCto n => Sys2Proof.Machine.execLineCto n s
  | .lineCts n level => Sys2Proof.Machine.execLineCts n level s

end Sys2Proof.Machine
end

