-- ==== Sys2Proof/Machine/Take.lean ====
section
/-! DEFINITION. What a turn brings to the step: the Host's next command or held command, an event, a store of the caller, or
the return of a callback (spec/00_scope.md R9, R10, 30_encoding.md R91, 60_exceptions.md R265, R270), and the placing of one word for the very next step. -/

namespace Sys2Proof.Machine

/-- What the next step does. -/
inductive Taken where
  /-- It performs this instruction in this state. -/
  | run (i : Instr) (s : State)
  /-- It needs no instruction: this is the state after it. -/
  | done (s : State)
  deriving DecidableEq, Repr

/-- The first command presented by a context, and the others in their order (30_encoding.md R91). -/
def takePresented (c : Context) : List Presented → Option (Presented × List Presented)
  | [] => none
  | p :: ps =>
    if p.ctx = c then some (p, ps)
    else
      match takePresented c ps with
      | none => none
      | some (q, qs) => some (q, p :: qs)

/-- A command word taken from the port is decoded; an illegal opcode answers E_INVAL and changes nothing (30_encoding.md R101). -/
def takeCommand (w : BitVec 144) (s : State) : Taken :=
  match decode (.cmd w) with
  | .ok i => .run i s
  | .error _ => .done (s.raise .inval)

/-- An event word; one that is no event of the table labels no step (30_encoding.md R101; log entry 3). -/
def takeEvent (w : BitVec 32) (s : State) : Taken :=
  match decode (.evt w) with
  | .ok i => .run i s
  | .error _ => .done s

/-- The Host's turn in a context: its held command if it has one (60_exceptions.md R270), else the next command it presented, if
the context is entered (R265); if there is neither, nothing happens. -/
def takeHost (c : Context) (s : State) : Taken :=
  match s.heldOf c with
  | some h => .run h.instr { s with active := h.ctx }
  | none =>
    if s.entered c then
      match takePresented c s.presented with
      | none => .done s
      | some (p, ps) => takeCommand p.word { s with presented := ps, active := p.ctx }
    else .done s

/-- The turn at the front of the list. -/
def takeTurn (t : Turn) (s : State) : Taken :=
  match t with
  | .host c => takeHost c s
  | .event w => takeEvent w s
  | .store a b => .done { s with mem := memWrite s.mem a b }
  | .callbackReturn c => .done (s.callbackReturn c)

/-- What the next step does: the first turn is used up and the counter of the free values advances; with no turn given the block
waits, unchanged (log entry 2). -/
def take (s : State) : Taken :=
  match s.turns with
  | [] => .done s
  | t :: ts => takeTurn t { s with turns := ts, freeCount := s.freeCount + 1 }

/-- Place one word for the very next step: a command is presented by foreground thread 0, which holds no other and in which no
callback runs, and is given the next turn; an event is the next turn. -/
def placeWord (w : InputWord) (s : State) : State :=
  match w with
  | .cmd w =>
    let c : Context := .foreground 0
    { s with
      presented := { ctx := c, word := w } :: s.presented
      held := s.held.filter (fun h => decide (h.ctx ≠ c))
      callbacks := s.callbacks.filter (fun d => decide (d ≠ c))
      turns := .host c :: s.turns }
  | .evt w => { s with turns := .event w :: s.turns }

end Sys2Proof.Machine
end

