-- ==== Sys2Proof/Safety.lean ====
section
/-! DEFINITION. What counts as a good state of the UART block, in the terms the statements use: the invariants of spec/10_state.md R23,
R54, R31, R32, R34, 42_status_fifo.md R145 and 60_exceptions.md R270, and the observations of 46_callback.md R237. -/

namespace Sys2Proof.Machine

/-! ### Invariants -/

/-- What holds of an Active transfer: the operand checks that admitted it (44_irq.md R185, 45_dma.md R219) and the slot invariant
`done <= len`, and `len <= 4096` for DMA (10_state.md R23). -/
structure Transfer.Ok (t : Transfer) : Prop where
  bufNotNull : t.buf ≠ 0
  cbNotNull : t.cb ≠ 0
  regionFits : t.buf.toNat + t.len.toNat ≤ 2 ^ 32
  doneLeLen : t.done ≤ t.len
  dmaBound : t.engine = .dma → t.len.toNat ≤ dmaMaxLen

/-- The slot invariant (10_state.md R23). -/
def Slot.Ok (x : Slot) : Prop := ∀ t, x = .active t → t.Ok

/-- The invariant of one instance. -/
structure Uart.Inv (u : Uart) : Prop where
  /-- `tx_count <= DEPTH(i)` (42_status_fifo.md R145). -/
  txBounded : u.txCount ≤ u.depth
  /-- `rx_count <= DEPTH(i)` (R145). -/
  rxBounded : u.rxCount ≤ u.depth
  /-- LCR holds one of the 24 codes, so DLAB and the reserved bits are 0 between steps (20_memory.md R62, 10_state.md R31). -/
  lcrLegal : lcValid u.lcr = true
  /-- Reserved MCR bits read 0 (10_state.md R32). -/
  mcrReserved : u.mcr &&& 0xDD = 0
  /-- Reserved IER bits read 0 (10_state.md R34). -/
  ierReserved : u.ier &&& 0x78 = 0
  /-- The TX slot (10_state.md R23). -/
  txSlotOk : u.txSlot.Ok
  /-- The RX slot (10_state.md R23). -/
  rxSlotOk : u.rxSlot.Ok
  /-- `IER.THRE = 1` iff the TX slot is Active under the IRQ engine (10_state.md R54). -/
  txEnableIff : u.threEnable = (u.txSlot.ownedBy .irq).isSome
  /-- `IER.RXAV = 1` iff the RX slot is Active under the IRQ engine (R54). -/
  rxEnableIff : u.rxav = (u.rxSlot.ownedBy .irq).isSome
  /-- `IER.RXAV = IER.LS` (R54). -/
  lsEnableEq : u.lsEnable = u.rxav
  /-- A direction whose slot is Active under the DMA engine is Configured (45_dma.md R216, R219). -/
  txDmaBound : (u.txSlot.ownedBy .dma).isSome = true → u.txBind ≠ .unconfigured
  /-- The same for RX. -/
  rxDmaBound : (u.rxSlot.ownedBy .dma).isSome = true → u.rxBind ≠ .unconfigured
  /-- A character timeout is indicated only with FIFOs on and data waiting (42_status_fifo.md R154, 20_memory.md R64, R75). -/
  ctoMeansData : u.cto = true → u.fifoe = true ∧ 0 < u.rxCount

/-- Every instance meets its invariant. -/
def State.UartsInv (s : State) : Prop := ∀ u ∈ s.uarts, u.Inv

/-- Is it a foreground context (60_exceptions.md R265)? -/
def Context.isForeground : Context → Bool
  | .foreground _ => true
  | .interrupt => false
  | .dmaCompletion => false

/-- The command port: a context holds at most one command, and a held command is one of the three that can hold, of a foreground
context in which no callback runs (60_exceptions.md R266, R270). -/
abbrev State.PortInv (s : State) : Prop :=
  (s.held.map Held.ctx).Nodup ∧
  ∀ h ∈ s.held, h.instr.canHold = true ∧ h.ctx.isForeground = true ∧ h.ctx ∉ s.callbacks

/-- Buffer memory is in its canonical form. -/
abbrev State.MemInv (s : State) : Prop := Memory.wf s.mem

/-! ### Observations -/

/-- Is `slot[i][d]` Active? -/
def State.slotActive (s : State) (i : Inst) (d : Dir) : Bool :=
  match s.uart? i with
  | none => false
  | some u => (u.slot d).isActive

/-- `C(i,d)`: the callback records of an instance and direction (46_callback.md R237). -/
def State.callbackCount (s : State) (i : Inst) (d : Dir) : Nat :=
  s.cbLog.countP (fun r => decide (r.inst = i ∧ r.dir = d))

/-- The instance of a DMA record (10_state.md R50). -/
def DmaRecord.inst : DmaRecord → Inst
  | .cfg i _ _ _ => i
  | .arm i _ _ _ _ _ => i
  | .disarm i _ _ _ => i

/-- Bytes stored one after the other from an address on, the first at the address itself (20_memory.md R82). -/
def storeBytes : Memory → Word32 → List Byte → Memory
  | m, _, [] => m
  | m, a, b :: bs => storeBytes (memWrite m a b) (a + 1) bs

/-- Bytes that stand one after the other from an address on (20_memory.md R82). -/
def holdsBytes (m : Memory) : Word32 → List Byte → Prop
  | _, [] => True
  | a, b :: bs => memRead m a = some b ∧ holdsBytes m (a + 1) bs

/-- The start commands of a direction and instance: the four commands that make a slot Active (10_state.md R22). -/
def startsTransfer (i : Instr) (n : Inst) (d : Dir) : Bool :=
  match i, d with
  | .irqWrite m _ _ _ _, .tx => m = n
  | .irqRead m _ _ _ _, .rx => m = n
  | .dmaWrite m _ _ _ _, .tx => m = n
  | .dmaRead m _ _ _ _, .rx => m = n
  | _, _ => false

/-- The five synchronous commands (43_sync.md R180). -/
def isSynchronous : Instr → Bool
  | .write .. => true
  | .read .. => true
  | .writeNonBlock .. => true
  | .readNonBlock .. => true
  | .writeBuffer .. => true
  | _ => false

/-- The error flag an entry at the head of the RX FIFO exposes (10_state.md R41); false when there is no entry. -/
def headFlag (f : RxEntry → Bool) (es : List RxEntry) : Bool :=
  match es with
  | [] => false
  | e :: _ => f e

end Sys2Proof.Machine
end

