-- ==== Sys2Proof/Certificates/Slice0/Obligations.lean ====
section
/-! DEFINITION. The statements for the provers, taken from the numbered rules of spec/. A statement `exec i s = .next t` with `t`
written as an update of `s` gives the instruction's result and its frame at once: what the update does not name is unchanged. -/

open Sys2Proof Sys2Proof.Machine

/-! ### Encoding (30_encoding.md) -/

/-- Decoding the encoding of a well-formed instruction gives it back, every operand at every value (R92, R94, R95, R96, R112). -/
def Obligations.DecodeUndoesEncode : Prop :=
  ∀ i : Instr, i.WellFormed = true → decode (encode i) = .ok i

/-- What the decoder answers is well-formed, and its code and instance are the first two fields of the word (R92, R94, R97). -/
def Obligations.DecodedHeaderIsTheWords : Prop :=
  (∀ (w : BitVec 144) (i : Instr), decode (.cmd w) = .ok i →
    i.WellFormed = true ∧ i.isCommand = true ∧ i.code = w.extractLsb' 0 8 ∧ i.inst = w.extractLsb' 8 8) ∧
  (∀ (w : BitVec 32) (i : Instr), decode (.evt w) = .ok i →
    i.WellFormed = true ∧ i.isCommand = false ∧ i.code = w.extractLsb' 0 8 ∧ i.inst = w.extractLsb' 8 8)

/-- Some words of 95_test_vectors.md section 2.1, written out, decode to the instruction they stand for. -/
def Obligations.SpecWordsDecode : Prop :=
  decode (.cmd 0x0000000100000001001234560000001B0001) = .ok (.setConfig 0 0x1B 0x123456 0 true false true) ∧
  decode (.cmd 0x000000A50000000100000014000010000008) = .ok (.irqWrite 0 0x1000 20 1 0xA5) ∧
  decode (.evt 0x01000082) = .ok (.dmaDone 0 0 true) ∧
  decode (.evt 0x017F0088) = .ok (.lineRx 0 0x7F true false false)

/-- Operand bits a command does not use are ignored (R92): two command words that agree on `op`, `inst` and the operand bits the
command uses decode alike. -/
def Obligations.UnusedOperandBitsIgnored : Prop :=
  ∀ w w' : BitVec 144, w.extractLsb' 0 16 = w'.extractLsb' 0 16 →
    (cmdOp w ∈ [0x02#8, 0x04#8, 0x06#8, 0x0A#8, 0x0B#8, 0x0F#8, 0x10#8] → decode (.cmd w) = decode (.cmd w')) ∧
    (cmdOp w ∈ [0x03#8, 0x05#8] → w.extractLsb' 16 8 = w'.extractLsb' 16 8 → decode (.cmd w) = decode (.cmd w')) ∧
    (cmdOp w = 0x11#8 → w.extractLsb' 16 32 = w'.extractLsb' 16 32 → decode (.cmd w) = decode (.cmd w')) ∧
    (cmdOp w = 0x07#8 → w.extractLsb' 16 64 = w'.extractLsb' 16 64 → decode (.cmd w) = decode (.cmd w')) ∧
    (cmdOp w = 0x0C#8 → w.extractLsb' 16 96 = w'.extractLsb' 16 96 → decode (.cmd w) = decode (.cmd w')) ∧
    (cmdOp w = 0x01#8 → w.extractLsb' 16 8 = w'.extractLsb' 16 8 → w.extractLsb' 48 34 = w'.extractLsb' 48 34 →
      w.getLsbD 112 = w'.getLsbD 112 → decode (.cmd w) = decode (.cmd w'))

/-- `pack` is `(DLH<<16) | (DLL<<8) | DLF`, `unpack` takes the three bytes out, and they are inverse to each other, both ways (R105). -/
def Obligations.DivisorPackingIsExact : Prop :=
  (∀ dlh dll dlf : Byte, (pack dlh dll dlf).toNat = dlh.toNat * 65536 + dll.toNat * 256 + dlf.toNat) ∧
  (∀ w : BitVec 24, (divHighByte w).toNat = w.toNat / 65536 ∧ (divLowByte w).toNat = w.toNat / 256 % 256 ∧
    (divFracByte w).toNat = w.toNat % 256) ∧
  (∀ dlh dll dlf : Byte, divHighByte (pack dlh dll dlf) = dlh ∧ divLowByte (pack dlh dll dlf) = dll ∧
    divFracByte (pack dlh dll dlf) = dlf) ∧
  (∀ w : BitVec 24, pack (divHighByte w) (divLowByte w) (divFracByte w) = w)

/-! ### The step -/

/-- In the Host's turn the first command an entered context has presented is decoded and performed (30_encoding.md R91,
60_exceptions.md R265); the step's own part is the turn used up, the counter of the free values, the command taken from the port and
its context made the active one. -/
def Obligations.StepRunsThePresentedCommand : Prop :=
  ∀ (s : State) (c : Context) (ts : List Turn) (p : Presented) (ps : List Presented) (i : Instr),
    s.turns = .host c :: ts → s.heldOf c = none → s.entered c = true → takePresented c s.presented = some (p, ps) →
    decode (.cmd p.word) = .ok i → i.WellFormed = true →
    step s = exec i { s with turns := ts, freeCount := s.freeCount + 1, presented := ps, active := p.ctx }

/-- The command a context's turn takes is the first that context presented, and the others keep their order; there is none to take
only if no word waiting is that context's (R91). -/
def Obligations.CommandsOfAContextInOrder : Prop :=
  ∀ (c : Context) (l : List Presented),
    (∀ (p : Presented) (ps : List Presented), takePresented c l = some (p, ps) →
      ∃ a b : List Presented, l = a ++ p :: b ∧ ps = a ++ b ∧ p.ctx = c ∧ ∀ q ∈ a, q.ctx ≠ c) ∧
    (takePresented c l = none ↔ ∀ q ∈ l, q.ctx ≠ c)

/-- A turn of the Handler, Dma or Line agent performs the event its word labels (R94, R96). -/
def Obligations.StepRunsTheLabelledEvent : Prop :=
  ∀ (s : State) (w : BitVec 32) (ts : List Turn) (i : Instr),
    s.turns = .event w :: ts → decode (.evt w) = .ok i → i.WellFormed = true →
    step s = exec i { s with turns := ts, freeCount := s.freeCount + 1 }

/-- A context that holds a command takes no further one: its turn retries the held command (60_exceptions.md R270). -/
def Obligations.StepRetriesTheHeldCommand : Prop :=
  ∀ (s : State) (c : Context) (ts : List Turn) (h : Held),
    s.turns = .host c :: ts → s.heldOf c = some h →
    step s = exec h.instr { s with turns := ts, freeCount := s.freeCount + 1, active := h.ctx }

/-- The caller's own store to buffer memory (20_memory.md R80, 70_reset_and_hazards.md R292; the model's turn of log entry 12): that byte
reads as stored, every other as before, and nothing else changes but the step's own part. -/
def Obligations.StepStoresTheCallersByte : Prop :=
  ∀ (s : State) (a : Word32) (b : Byte) (ts : List Turn), s.turns = .store a b :: ts → s.MemInv →
    ∃ m : Memory, step s = .next { s with turns := ts, freeCount := s.freeCount + 1, mem := m } ∧ Memory.wf m ∧
      ∀ k : Word32, memRead m k = if k = a then some b else memRead s.mem k

/-- An opcode outside 0x01 to 0x11 completes with E_INVAL and changes nothing but the port; an event code outside the table labels no
step (R101), and neither does a DMA event whose direction byte is above 1 (the model's choice of log entry 3): only the turn is used
up. -/
def Obligations.IllegalCodesChangeNothing : Prop :=
  (∀ (s : State) (c : Context) (ts : List Turn) (p : Presented) (ps : List Presented),
    s.turns = .host c :: ts → s.heldOf c = none → s.entered c = true → takePresented c s.presented = some (p, ps) →
    (cmdOp p.word = 0x00 ∨ 0x12 ≤ cmdOp p.word) →
    step s = .next { s with
      turns := ts
      freeCount := s.freeCount + 1
      presented := ps
      active := p.ctx
      responses := s.responses ++ [(p.ctx, { res := s.params.err.inval, v0 := 0, v1 := 0 })]
      held := s.held.filter (fun h => decide (h.ctx ≠ p.ctx)) }) ∧
  (∀ (s : State) (w : BitVec 32) (ts : List Turn),
    s.turns = .event w :: ts →
    (evtCode w ∉ [0x80#8, 0x81#8, 0x82#8, 0x88#8, 0x89#8, 0x8A#8, 0x8B#8, 0x8C#8] ∨
      (evtCode w ∈ [0x81#8, 0x82#8] ∧ 1 < evtE0 w)) →
    step s = .next { s with turns := ts, freeCount := s.freeCount + 1 })

/-! ### Reset (10_state.md R53) -/

/-- Every value R53 states, for every instance and the global traces, and the consequences R53 draws from them. -/
def Obligations.ResetLeavesTheStatedValues : Prop :=
  State.reset.uarts ≠ [] ∧
  (∀ u ∈ State.reset.uarts,
    u.txSlot = .idle ∧ u.rxSlot = .idle ∧ u.txBind = .unconfigured ∧ u.rxBind = .unconfigured ∧ u.thrPreset = .halfHalf ∧
    u.lcr = 0x00 ∧ u.mcr = 0x00 ∧ u.ier = 0x00 ∧ u.fifoe = false ∧ u.tet = 0 ∧ u.rt = 0 ∧
    u.dll = 0x00 ∧ u.dlh = 0x00 ∧ u.dlf = 0x00 ∧
    u.latOe = false ∧ u.latPe = false ∧ u.latFe = false ∧ u.latBi = false ∧
    u.txFifo = [] ∧ u.rxFifo = [] ∧ u.shiftBusy = false ∧ u.cto = false ∧ u.irqMasked = true ∧ u.wireLog = [] ∧
    u.depth = 1 ∧ u.lsr = 0x60 ∧ u.iid = 0x1 ∧ u.fsr = 0x02) ∧
  (∀ a : Word32, memRead State.reset.mem a = none) ∧
  State.reset.cbLog = [] ∧ State.reset.dmaLog = []

/-- The reset state meets every invariant of the model. -/
def Obligations.ResetMeetsTheInvariants : Prop :=
  State.reset.UartsInv ∧ State.reset.PortInv ∧ State.reset.MemInv ∧ State.reset.params.Valid

/-! ### Invariants every step keeps -/

/-- Memory keeps its canonical form. -/
def Obligations.StepKeepsMemoryCanonical : Prop :=
  ∀ s s' : State, s.MemInv → step s = .next s' → s'.MemInv

/-- FIFO bounds (42_status_fifo.md R145), the slot invariant (10_state.md R23), the interrupt enables (R54), DLAB clear between steps
(20_memory.md R62) and the reserved bits are kept by every step. -/
def Obligations.StepKeepsTheInstanceInvariant : Prop :=
  ∀ s s' : State, s.UartsInv → step s = .next s' → s'.UartsInv

/-- A context holds at most one command, and only one that can hold; it is a foreground context in which no callback runs
(60_exceptions.md R266, R270). -/
def Obligations.StepKeepsOneHeldCommandAContext : Prop :=
  ∀ s s' : State, s.PortInv → step s = .next s' → s'.PortInv

/-- Exactly once (46_callback.md R235, R237), said of one step: a slot leaves Active exactly when one callback record of that
instance and direction is added, and enters Active with none. -/
def Obligations.OneCallbackForEachTransferEnded : Prop :=
  ∀ (s s' : State) (n : Inst) (d : Dir), step s = .next s' →
    (s'.slotActive n d = s.slotActive n d ∧ s'.callbackCount n d = s.callbackCount n d) ∨
    (s.slotActive n d = false ∧ s'.slotActive n d = true ∧ s'.callbackCount n d = s.callbackCount n d) ∨
    (s.slotActive n d = true ∧ s'.slotActive n d = false ∧ s'.callbackCount n d = s.callbackCount n d + 1)

/-! ### Rules about every instruction -/

/-- Only a start command of that instance and direction, answering success, makes a slot Active (10_state.md R22). -/
def Obligations.OnlyStartCommandsActivateASlot : Prop :=
  ∀ (i : Instr) (s s' : State) (n : Inst) (d : Dir), exec i s = .next s' →
    s.slotActive n d = false → s'.slotActive n d = true →
    startsTransfer i n d = true ∧ s'.responses = s.responses ++ [(s.active, { res := 0, v0 := 0, v1 := 0 })]

/-- Instances share nothing but `mem`, the traces and the DMA subsystem (60_exceptions.md R269): no instruction changes an instance
other than the one it names, nor adds a callback or DMA record for another; and what it does is the same whatever the other
instances are. -/
def Obligations.InstancesAreIndependent : Prop :=
  ∀ (i : Instr) (s s' : State), exec i s = .next s' →
    s'.uarts.length = s.uarts.length ∧
    (∀ k : Nat, k ≠ i.inst.toNat → s'.uarts[k]? = s.uarts[k]?) ∧
    (∃ l : List CbRecord, s'.cbLog = s.cbLog ++ l ∧ ∀ r ∈ l, r.inst = i.inst) ∧
    (∃ l : List DmaRecord, s'.dmaLog = s.dmaLog ++ l ∧ ∀ r ∈ l, r.inst = i.inst) ∧
    (∀ us : List Uart, us[i.inst.toNat]? = s.uarts[i.inst.toNat]? → ∃ us' : List Uart,
      exec i { s with uarts := us } = .next { s' with uarts := us' } ∧ us'[i.inst.toNat]? = s'.uarts[i.inst.toNat]?)

/-- Every byte an instruction changes lies in the part not yet filled of the region of an Active RX transfer of the instance it names,
and the instruction is the handler's event or an RX beat (00_scope.md R14, 45_dma.md R228). -/
def Obligations.MemoryChangesOnlyInsideTheReadRegion : Prop :=
  ∀ (i : Instr) (s s' : State) (a : Word32), s.UartsInv → exec i s = .next s' → memRead s'.mem a ≠ memRead s.mem a →
    (i = .irq i.inst ∨ i = .dmaBeat i.inst 1) ∧
    ∃ (u : Uart) (t : Transfer), s.uart? i.inst = some u ∧ u.rxSlot = .active t ∧
      t.buf.toNat + t.done.toNat ≤ a.toNat ∧ a.toNat < t.buf.toNat + t.len.toNat

/-- A command that answers an error has changed no state of the block, no memory byte and no trace, and its outputs are 0
(60_exceptions.md R246). -/
def Obligations.ErrorResultsChangeNothing : Prop :=
  ∀ (i : Instr) (s s' : State) (r : Response), exec i s = .next s' →
    s'.responses = s.responses ++ [(s.active, r)] → r.res ≠ 0 →
    r.v0 = 0 ∧ r.v1 = 0 ∧
    s' = { s with
      responses := s.responses ++ [(s.active, r)]
      held := s.held.filter (fun h => decide (h.ctx ≠ s.active)) }

/-- What can make a command answer E_BUSY, E_AGAIN or E_STATE: only the causes of 60_exceptions.md R249, R250, R251. -/
def Obligations.ErrorCodesHaveTheirCauses : Prop :=
  ∀ (i : Instr) (s s' : State) (r : Response), s.params.Valid → exec i s = .next s' →
    s'.responses = s.responses ++ [(s.active, r)] →
    (r.res = s.params.err.busy → ∃ d : Dir, s.slotActive i.inst d = true ∧
      (startsTransfer i i.inst d = true ∨
        ∃ ctrl chan dir : Word32, i = .dmaChannelConfig i.inst ctrl chan dir ∧ commandDir dir = some d)) ∧
    (r.res = s.params.err.again → ∃ u : Uart, s.uart? i.inst = some u ∧
      ((∃ b : Byte, i = .writeNonBlock i.inst b ∧ ¬ u.txCount < u.depth) ∨ (i = .readNonBlock i.inst ∧ u.rxCount = 0))) ∧
    (r.res = s.params.err.state → ∃ u : Uart, s.uart? i.inst = some u ∧
      ((∃ ctrl chan dir : Word32, i = .dmaChannelConfig i.inst ctrl chan dir ∧
          s.params.dmaReady (ctrl.setWidth 8) (chan.setWidth 8) = false) ∨
       (∃ buf len cb ctx : Word32, i = .dmaWrite i.inst buf len cb ctx ∧ u.txBind = .unconfigured) ∨
       (∃ buf len cb ctx : Word32, i = .dmaRead i.inst buf len cb ctx ∧ u.rxBind = .unconfigured)))

/-- In this model nothing stops the machine but a read of a byte nothing has written (10_state.md R55, as the model takes it: log entry 6)
and a blocking command issued by a callback (46_callback.md R240, as the model keeps track of callbacks: log entry 5); the block itself
"never halts" (60_exceptions.md R245). That there is no other fault is the model's choice of log entry 19: 93_implementation_defined.md
U6 also names an access outside what the launch memory admits, and the model takes every address to be admitted. -/
def Obligations.OnlyCallerMistakesStopTheMachine : Prop :=
  ∀ (i : Instr) (s : State),
    (∀ f : Fault, exec i s = .fault f → ∃ a : Word32, f = .unwrittenByte a ∧ memRead s.mem a = none ∧
      ((∃ buf len : Word32, i = .writeBuffer i.inst buf len) ∨ i = .irq i.inst ∨ i = .dmaBeat i.inst 0)) ∧
    (∀ r : Refusal, exec i s = .refused r → r = .blockingInCallback ∧ i.canHold = true ∧ s.active ∈ s.callbacks)

/-- No instruction changes the parameters, the turns, the commands presented or the active context; the three traces and the responses
only grow (10_state.md R50, R52), and no instruction ends a callback. -/
def Obligations.TracesOnlyGrow : Prop :=
  ∀ (i : Instr) (s s' : State), exec i s = .next s' →
    s'.params = s.params ∧ s'.turns = s.turns ∧ s'.presented = s.presented ∧ s'.active = s.active ∧
    s'.freeCount = s.freeCount ∧
    (∃ l, s'.cbLog = s.cbLog ++ l) ∧ (∃ l, s'.dmaLog = s.dmaLog ++ l) ∧ (∃ l, s'.responses = s.responses ++ l) ∧
    (∃ l, s'.callbacks = l ++ s.callbacks) ∧
    (∀ (n : Inst) (u u' : Uart), s.uart? n = some u → s'.uart? n = some u' → ∃ l, u'.wireLog = u.wireLog ++ l)

/-- "It is the only part of the block that writes LCR, MCR, FCR, the divisor latches, IER bit 7 and irq_masked. It never touches a
slot, IER bits 2:0, or buffer memory" (41_config.md R120). -/
def Obligations.OnlyConfigurationWritesConfiguration : Prop :=
  ∀ (i : Instr) (s s' : State) (n : Inst) (u u' : Uart), s.UartsInv → exec i s = .next s' →
    s.uart? n = some u → s'.uart? n = some u' →
    ((i.code ≠ 0x01 ∧ i.code ≠ 0x11) →
      u'.lcr = u.lcr ∧ u'.mcr = u.mcr ∧ u'.fifoe = u.fifoe ∧ u'.tet = u.tet ∧ u'.rt = u.rt ∧ u'.dll = u.dll ∧
      u'.dlh = u.dlh ∧ u'.dlf = u.dlf ∧ u'.ptime = u.ptime ∧ u'.irqMasked = u.irqMasked ∧
      u'.thrPreset = u.thrPreset ∧ u'.cfg = u.cfg) ∧
    ((i.code = 0x01 ∨ i.code = 0x11) →
      u'.txSlot = u.txSlot ∧ u'.rxSlot = u.rxSlot ∧ u'.ier &&& 0x07 = u.ier &&& 0x07 ∧ s'.mem = s.mem)

/-- The five synchronous commands leave every slot, binding and IER, and the traces cb_log and dma_log, as they were (43_sync.md
R180). -/
def Obligations.SynchronousCommandsLeaveTransfersAlone : Prop :=
  ∀ (i : Instr) (s s' : State), isSynchronous i = true → s.UartsInv → exec i s = .next s' →
    s'.cbLog = s.cbLog ∧ s'.dmaLog = s.dmaLog ∧ s'.mem = s.mem ∧
    ∀ (n : Inst) (u u' : Uart), s.uart? n = some u → s'.uart? n = some u' →
      u'.txSlot = u.txSlot ∧ u'.rxSlot = u.rxSlot ∧ u'.txBind = u.txBind ∧ u'.rxBind = u.rxBind ∧ u'.ier = u.ier ∧
      u'.shifter = u.shifter ∧ u'.wireLog = u.wireLog

/-- A latch that is set stays set under every instruction but the three that read LSR of its instance: `get_status`, `read`, and the
handler in its line-status service (10_state.md R29). -/
def Obligations.LatchesStayUntilLsrIsRead : Prop :=
  ∀ (i : Instr) (s s' : State) (n : Inst) (u u' : Uart), exec i s = .next s' → s.uart? n = some u → s'.uart? n = some u' →
    i ≠ .getStatus n → i ≠ .read n → (i = .irq n → u.iid ≠ 0x6) →
    (u.latOe = true → u'.latOe = true) ∧ (u.latPe = true → u'.latPe = true) ∧
    (u.latFe = true → u'.latFe = true) ∧ (u.latBi = true → u'.latBi = true)

/-- Every command of an instance that does not exist answers E_INVAL and changes nothing (30_encoding.md R97, 60_exceptions.md
R248); issued by a callback, the three that can hold are refused before that check. -/
def Obligations.MissingInstanceAnswersInvalid : Prop :=
  ∀ (i : Instr) (s : State), i.isCommand = true → s.uarts.length ≤ i.inst.toNat →
    (i.canHold = false ∨ s.active ∉ s.callbacks) → exec i s = .next (s.respond s.params.err.inval 0 0)

/-- A response goes to the context of the command, which holds no command any more; nothing else changes (30_encoding.md R91). Its word
has `res` at bits 31:0, `v0` at 63:32 and `v1` at 95:64 (R93). -/
def Obligations.ResponseGoesToItsContext : Prop :=
  ∀ (s : State) (res v0 v1 : Word32),
    let r : Response := { res := res, v0 := v0, v1 := v1 }
    s.respond res v0 v1 = { s with
      responses := s.responses ++ [(s.active, r)]
      held := s.held.filter (fun h => decide (h.ctx ≠ s.active)) } ∧
    (s.respond res v0 v1).heldOf s.active = none ∧
    r.word.toNat = res.toNat + 2 ^ 32 * v0.toNat + 2 ^ 64 * v1.toNat ∧
    r.word.extractLsb' 0 32 = res ∧ r.word.extractLsb' 32 32 = v0 ∧ r.word.extractLsb' 64 32 = v1

/-! ### Configuration (41_config.md) -/

/-- `set_config` answers E_INVAL and changes nothing for a missing instance, a null configuration, a line-control code outside the 24 or
a divisor above 24 bits; else it writes every register of the sequence R122, keeps IER bits 2:0, and answers 0 (R121 to R128). -/
def Obligations.SetConfigApplies : Prop :=
  ∀ (s : State) (n : Inst) (lc : BitVec 8) (div : BitVec 24) (divHigh : BitVec 8) (fc ie valid : Bool),
    (s.uart? n = none →
      exec (.setConfig n lc div divHigh fc ie valid) s = .next (s.respond s.params.err.inval 0 0)) ∧
    ∀ u : Uart, s.uart? n = some u →
      exec (.setConfig n lc div divHigh fc ie valid) s =
        if valid = false ∨ ¬ (lc ≤ 0x1F ∧ ¬ (lc.getLsbD 4 = true ∧ lc.getLsbD 3 = false)) ∨ divHigh ≠ 0 then
          .next (s.respond s.params.err.inval 0 0)
        else .next ((s.setUart n { u with
          lcr := lc
          dlh := div.extractLsb' 16 8
          dll := div.extractLsb' 8 8
          dlf := div.extractLsb' 0 8
          mcr := if fc then 0x22 else 0x00
          fifoe := true
          tet := if u.thrPreset = .halfHalf then 3 else 0
          rt := if u.thrPreset = .halfHalf then 2 else 0
          txFifo := []
          rxFifo := []
          cto := false
          ier := (u.ier &&& 0x07) ||| 0x80
          irqMasked := !ie
          cfg := { lineControl := lc, baudDivisor := div, hwFc := fc, intEn := ie } }).respond 0 0 0)

/-- `set_threshold` stores the preset, enables and empties both FIFOs and sets the triggers; a preset above 1 answers E_INVAL (R130,
R128). -/
def Obligations.SetThresholdAppliesThePreset : Prop :=
  ∀ (s : State) (n : Inst) (preset : Word32),
    (s.uart? n = none → exec (.setThreshold n preset) s = .next (s.respond s.params.err.inval 0 0)) ∧
    ∀ u : Uart, s.uart? n = some u → exec (.setThreshold n preset) s =
      if 1 < preset then .next (s.respond s.params.err.inval 0 0)
      else .next ((s.setUart n { u with
        thrPreset := if preset = 0 then .halfHalf else .emptyOne
        fifoe := true
        tet := if preset = 0 then 3 else 0
        rt := if preset = 0 then 2 else 0
        txFifo := []
        rxFifo := []
        cto := false }).respond 0 0 0)

/-! ### Status (42_status_fifo.md) -/

/-- `get_status` answers the eight flags of the state before it and clears the four latches, and nothing else (R140, R141). -/
def Obligations.GetStatusReportsAndClears : Prop :=
  ∀ (s : State) (n : Inst),
    (s.uart? n = none → exec (.getStatus n) s = .next (s.respond s.params.err.inval 0 0)) ∧
    ∀ u : Uart, s.uart? n = some u → exec (.getStatus n) s = .next ((s.setUart n { u with latOe := false, latPe := false, latFe := false, latBi := false }).respond 0
      ((if u.latOe then 0x002 else 0) + (if u.latPe then 0x004 else 0) + (if u.latFe then 0x008 else 0)
        + (if u.latBi then 0x010 else 0) + (if u.txCount = 0 ∧ u.shifter = .idle then 0 else 0x020)
        + (if 0 < u.rxCount then 0x040 else 0) + (if u.txCount < u.depth then 0x080 else 0)
        + (if 0 < u.rxCount then 0x100 else 0)) 0)

/-! ### Synchronous engine (43_sync.md) -/

/-- `write` puts its byte at the end of the TX FIFO when there is room, and is held, with nothing moved, when there is none (R170,
60_exceptions.md R270). -/
def Obligations.WriteWaitsForRoom : Prop :=
  ∀ (s : State) (n : Inst) (b : Byte), s.active ∉ s.callbacks →
    (s.uart? n = none → exec (.write n b) s = .next (s.respond s.params.err.inval 0 0)) ∧
    ∀ u : Uart, s.uart? n = some u → u.dlab = false → exec (.write n b) s =
      if u.txCount < u.depth then .next ((s.setUart n { u with txFifo := u.txFifo ++ [b] }).respond 0 0 0)
      else .next { s with
        held := { ctx := s.active, instr := .write n b, progress := 0 }
          :: s.held.filter (fun h => decide (h.ctx ≠ s.active)) }

/-- `read` answers the oldest character with the four latched error flags, clears the latches and then exposes the next head; with no
character it is held (R172). -/
def Obligations.ReadTakesTheOldestCharacter : Prop :=
  ∀ (s : State) (n : Inst), s.active ∉ s.callbacks →
    (s.uart? n = none → exec (.read n) s = .next (s.respond s.params.err.inval 0 0)) ∧
    ∀ u : Uart, s.uart? n = some u → u.dlab = false →
    (∀ (e : RxEntry) (rest : List RxEntry), u.rxFifo = e :: rest →
      exec (.read n) s = .next ((s.setUart n { u with
        rxFifo := rest
        cto := false
        latOe := false
        latPe := headFlag RxEntry.pe rest
        latFe := headFlag RxEntry.fe rest
        latBi := headFlag RxEntry.bi rest }).respond 0 (e.data.setWidth 32)
          ((if u.latOe then 0x002 else 0) + (if u.latPe then 0x004 else 0) + (if u.latFe then 0x008 else 0)
            + (if u.latBi then 0x010 else 0)))) ∧
    (u.rxFifo = [] →
      exec (.read n) s = .next { s with
        held := { ctx := s.active, instr := .read n, progress := 0 }
          :: s.held.filter (fun h => decide (h.ctx ≠ s.active)) })

/-- `write_non_block` writes its byte when there is room and answers E_AGAIN, changing nothing, when the FIFO is full (R174). -/
def Obligations.WriteNonBlockNeverWaits : Prop :=
  ∀ (s : State) (n : Inst) (b : Byte),
    (s.uart? n = none → exec (.writeNonBlock n b) s = .next (s.respond s.params.err.inval 0 0)) ∧
    ∀ u : Uart, s.uart? n = some u → u.dlab = false → exec (.writeNonBlock n b) s =
      if u.txCount < u.depth then .next ((s.setUart n { u with txFifo := u.txFifo ++ [b] }).respond 0 0 0)
      else .next (s.respond s.params.err.again 0 0)

/-- `read_non_block` answers the oldest character, keeps the latches and exposes the next head; with no character it answers E_AGAIN
(R175). -/
def Obligations.ReadNonBlockNeverWaits : Prop :=
  ∀ (s : State) (n : Inst),
    (s.uart? n = none → exec (.readNonBlock n) s = .next (s.respond s.params.err.inval 0 0)) ∧
    ∀ u : Uart, s.uart? n = some u → u.dlab = false →
    (∀ (e : RxEntry) (rest : List RxEntry), u.rxFifo = e :: rest →
      exec (.readNonBlock n) s = .next ((s.setUart n { u with
        rxFifo := rest
        cto := false
        latPe := u.latPe || headFlag RxEntry.pe rest
        latFe := u.latFe || headFlag RxEntry.fe rest
        latBi := u.latBi || headFlag RxEntry.bi rest }).respond 0 (e.data.setWidth 32) 0)) ∧
    (u.rxFifo = [] → exec (.readNonBlock n) s = .next (s.respond s.params.err.again 0 0))

/-- One held step of `write_buffer` (R176): bad operands answer E_INVAL; with every byte moved it answers 0 (at once for `len = 0`,
R177); without room it is held; else byte `k` of the buffer enters the FIFO, and the command answers 0 with its last byte. Of this the
bytes moved so far, kept with the held command, and the answer in the step of the last byte are the model's choice (log entry 4), and
the fault at a byte nothing has written is 10_state.md R55 as the model takes it (log entry 6). -/
def Obligations.WriteBufferMovesOneByteAStep : Prop :=
  ∀ (s : State) (n : Inst) (buf len : Word32), s.active ∉ s.callbacks →
    (s.uart? n = none → exec (.writeBuffer n buf len) s = .next (s.respond s.params.err.inval 0 0)) ∧
    ∀ u : Uart, s.uart? n = some u → u.dlab = false → exec (.writeBuffer n buf len) s =
      let k := s.progressOf (.writeBuffer n buf len)
      let others := s.held.filter (fun h => decide (h.ctx ≠ s.active))
      if buf = 0 ∨ 2 ^ 32 < buf.toNat + len.toNat then .next (s.respond s.params.err.inval 0 0)
      else if len ≤ k then .next (s.respond 0 0 0)
      else if u.depth ≤ u.txCount then
        .next { s with held := { ctx := s.active, instr := .writeBuffer n buf len, progress := k } :: others }
      else
        match memRead s.mem (buf + k) with
        | none => .fault (.unwrittenByte (buf + k))
        | some b =>
          if k + 1 = len then .next ((s.setUart n { u with txFifo := u.txFifo ++ [b] }).respond 0 0 0)
          else .next { s with
            uarts := s.uarts.set n.toNat { u with txFifo := u.txFifo ++ [b] }
            held := { ctx := s.active, instr := .writeBuffer n buf len, progress := k + 1 } :: others }

/-- The context of a callback (46_callback.md R240, 60_exceptions.md R265). A callback that issues `write`, `read` or `write_buffer` is
refused, whatever the operands. An instruction starts a callback exactly when it adds a callback record: in the interrupt context if it
is the handler, in the DMA-completion context if it is `DMA_DONE`, in its own context if it is a terminate. While no callback runs in
an asynchronous context, that context has no command taken; the turn in which a callback returns leaves its context. (How the model
holds this is log entry 5.) -/
def Obligations.BlockingCallbackIsRefused : Prop :=
  (∀ (i : Instr) (s : State), i.canHold = true → s.active ∈ s.callbacks → exec i s = .refused .blockingInCallback) ∧
  (∀ (i : Instr) (s s' : State), exec i s = .next s' →
    (s'.cbLog = s.cbLog ∧ s'.callbacks = s.callbacks) ∨
    ∃ (r : CbRecord) (c : Context), s'.cbLog = s.cbLog ++ [r] ∧ s'.callbacks = c :: s.callbacks ∧
      ((i = .irq i.inst ∧ c = .interrupt) ∨
       ((∃ (dir : BitVec 8) (ok : Bool), i = .dmaDone i.inst dir ok) ∧ c = .dmaCompletion) ∨
       (i ∈ [.irqWriteTerminate i.inst, .irqReadTerminate i.inst, .dmaWriteTerminate i.inst, .dmaReadTerminate i.inst] ∧
        c = s.active))) ∧
  (∀ (s : State) (c : Context) (ts : List Turn), s.turns = .host c :: ts → s.heldOf c = none →
    (c = .interrupt ∨ c = .dmaCompletion) → c ∉ s.callbacks →
    step s = .next { s with turns := ts, freeCount := s.freeCount + 1 }) ∧
  (∀ (s : State) (c : Context) (ts : List Turn), s.turns = .callbackReturn c :: ts →
    step s = .next { s with turns := ts, freeCount := s.freeCount + 1, callbacks := s.callbacks.erase c })

/-! ### Interrupt-driven engine (44_irq.md) -/

/-- `irq_write` and `irq_read`: operand checks, then E_BUSY for a slot Active under either engine, else the slot is Active with nothing
done, and IER.THRE is set, or IER.RXAV and IER.LS (R185, R186, R190). -/
def Obligations.IrqStartsATransfer : Prop :=
  ∀ (s : State) (n : Inst) (buf len cb ctx : Word32),
    (s.uart? n = none →
      exec (.irqWrite n buf len cb ctx) s = .next (s.respond s.params.err.inval 0 0) ∧
      exec (.irqRead n buf len cb ctx) s = .next (s.respond s.params.err.inval 0 0)) ∧
    ∀ u : Uart, s.uart? n = some u → u.dlab = false →
    let bad := buf = 0 ∨ cb = 0 ∨ 2 ^ 32 < buf.toNat + len.toNat
    exec (.irqWrite n buf len cb ctx) s =
      (if bad then .next (s.respond s.params.err.inval 0 0)
      else if u.txSlot ≠ .idle then .next (s.respond s.params.err.busy 0 0)
      else .next ((s.setUart n { u with
        ier := (u.ier ||| 0x02) &&& 0x87
        txSlot := .active { engine := .irq, buf := buf, len := len, done := 0, cb := cb, ctx := ctx } }).respond 0 0 0)) ∧
    exec (.irqRead n buf len cb ctx) s =
      (if bad then .next (s.respond s.params.err.inval 0 0)
      else if u.rxSlot ≠ .idle then .next (s.respond s.params.err.busy 0 0)
      else .next ((s.setUart n { u with
        ier := (u.ier ||| 0x05) &&& 0x87
        rxSlot := .active { engine := .irq, buf := buf, len := len, done := 0, cb := cb, ctx := ctx } }).respond 0 0 0))

/-- The `irq_*` terminates: an Active IRQ transfer ends with the cancellation error and the bytes done, its IER bits cleared; any other
slot is left alone and the answer is 0 (R194, R195, R196). -/
def Obligations.IrqTerminateCancelsOnce : Prop :=
  ∀ (s : State) (n : Inst),
    (s.uart? n = none →
      exec (.irqWriteTerminate n) s = .next (s.respond s.params.err.inval 0 0) ∧
      exec (.irqReadTerminate n) s = .next (s.respond s.params.err.inval 0 0)) ∧
    ∀ u : Uart, s.uart? n = some u → u.dlab = false →
    (∀ t : Transfer, u.txSlot = .active t → t.engine = .irq →
      exec (.irqWriteTerminate n) s = .next (State.respond { s with
        uarts := s.uarts.set n.toNat { u with ier := u.ier &&& 0x85, txSlot := .idle }
        cbLog := s.cbLog ++ [{ inst := n, dir := .tx, cb := t.cb, ctx := t.ctx, err := s.params.err.canceled, st := 0, n := t.done }]
        callbacks := s.active :: s.callbacks
        } 0 0 0)) ∧
    ((∀ t : Transfer, u.txSlot = .active t → t.engine = .dma) → exec (.irqWriteTerminate n) s = .next (s.respond 0 0 0)) ∧
    (∀ t : Transfer, u.rxSlot = .active t → t.engine = .irq →
      exec (.irqReadTerminate n) s = .next (State.respond { s with
        uarts := s.uarts.set n.toNat { u with ier := u.ier &&& 0x82, rxSlot := .idle }
        cbLog := s.cbLog ++ [{ inst := n, dir := .rx, cb := t.cb, ctx := t.ctx, err := s.params.err.canceled, st := 0, n := t.done }]
        callbacks := s.active :: s.callbacks
        } 0 0 0)) ∧
    ((∀ t : Transfer, u.rxSlot = .active t → t.engine = .dma) → exec (.irqReadTerminate n) s = .next (s.respond 0 0 0))

/-- The interrupt identity is that of the first pending source in the order line-status, RX-data, char-timeout, THR-empty, and the line
is up iff there is one (60_exceptions.md R252, R255, R256); the levels are those of 10_state.md R42. -/
def Obligations.IdentityIsTheFirstPendingSource : Prop :=
  ∀ u : Uart,
    let rxLevel := if u.fifoe = false ∨ u.rt = 0 then 1 else if u.rt = 1 then 4 else if u.rt = 2 then 8 else 14
    let txLevel := if u.fifoe = false ∨ u.ier.getLsbD 7 = false ∨ u.tet = 0 then 0
      else if u.tet = 1 then 2 else if u.tet = 2 then 4 else 8
    let ls := u.ier.getLsbD 2 = true ∧ (u.latOe = true ∨ u.latPe = true ∨ u.latFe = true ∨ u.latBi = true)
    let rx := u.ier.getLsbD 0 = true ∧ rxLevel ≤ u.rxFifo.length
    let ct := u.ier.getLsbD 0 = true ∧ u.cto = true
    let tx := u.ier.getLsbD 1 = true ∧ u.txFifo.length ≤ txLevel
    (u.iid = 0x6 ↔ ls) ∧ (u.iid = 0x4 ↔ ¬ ls ∧ rx) ∧ (u.iid = 0xC ↔ ¬ ls ∧ ¬ rx ∧ ct) ∧
    (u.iid = 0x2 ↔ ¬ ls ∧ ¬ rx ∧ ¬ ct ∧ tx) ∧ (u.iid = 0x1 ↔ ¬ ls ∧ ¬ rx ∧ ¬ ct ∧ ¬ tx) ∧
    (u.irqOut = true ↔ u.iid ≠ 0x1) ∧
    ∀ k : Nat, (u.regRead k .identity).1 &&& 0x0F = u.iid.setWidth 8

/-- The THR-empty service with an Active IRQ transfer: the next `min(8, len - done)` bytes of the buffer go to THR in order, all of them
into an enabled FIFO, the first only into a single register; if they are the last, the transfer completes with error 0 and its full
length and IER.THRE is cleared (R202, R203). -/
def Obligations.HandlerRefillsTheTxFifo : Prop :=
  ∀ (s : State) (n : Inst) (u : Uart) (t : Transfer) (bs : List Byte),
    s.uart? n = some u → u.Inv → u.irqMasked = false → u.iid = 0x2 → u.txSlot = .active t →
    bs.length = min 8 (t.len.toNat - t.done.toNat) → holdsBytes s.mem (t.buf + t.done) bs →
    let done := t.done + BitVec.ofNat 32 bs.length
    let fifo := u.txFifo ++ (if u.fifoe then bs else bs.take 1)
    exec (.irq n) s =
      if done = t.len then
        .next { s with
          uarts := s.uarts.set n.toNat { u with txFifo := fifo, ier := u.ier &&& 0x85, txSlot := .idle }
          cbLog := s.cbLog ++ [{ inst := n, dir := .tx, cb := t.cb, ctx := t.ctx, err := 0, st := 0, n := t.len }]
          callbacks := .interrupt :: s.callbacks }
      else
        .next { s with
          uarts := s.uarts.set n.toNat { u with txFifo := fifo, txSlot := .active { t with done := done } } }

/-- The refill never overflows an enabled FIFO: at most 16 bytes wait after it, and none was discarded (R203). -/
def Obligations.RefillNeverOverflows : Prop :=
  ∀ (s s' : State) (n : Inst) (u u' : Uart) (t : Transfer),
    s.uart? n = some u → u.Inv → u.irqMasked = false → u.iid = 0x2 → u.fifoe = true → u.txSlot = .active t →
    exec (.irq n) s = .next s' → s'.uart? n = some u' →
    u'.txCount ≤ 16 ∧ u'.txCount = u.txCount + min 8 (t.len.toNat - t.done.toNat)

/-- The RX-data and character-timeout service with an Active IRQ transfer: the good characters before a flagged one, at most 16 and at
most what the buffer still takes, go to the buffer in order; the new head is exposed; a full buffer, also one full
from the start (`len = 0`), completes the transfer (R204, R205). -/
def Obligations.HandlerDrainsTheRxFifo : Prop :=
  ∀ (s : State) (n : Inst) (u : Uart) (t : Transfer),
    s.uart? n = some u → u.Inv → u.irqMasked = false → (u.iid = 0x4 ∨ u.iid = 0xC) → u.rxSlot = .active t →
    (t.done = t.len →
      exec (.irq n) s = .next { s with
        uarts := s.uarts.set n.toNat { u with ier := u.ier &&& 0x82, rxSlot := .idle }
        cbLog := s.cbLog ++ [{ inst := n, dir := .rx, cb := t.cb, ctx := t.ctx, err := 0, st := 0, n := t.len }]
        callbacks := .interrupt :: s.callbacks }) ∧
    ∀ (e : RxEntry) (es rest : List RxEntry), u.rxFifo = e :: es ++ rest → (∀ x ∈ es, x.flagged = false) →
    (e :: es).length ≤ 16 → t.done.toNat + (e :: es).length ≤ t.len.toNat →
    ((e :: es).length = 16 ∨ t.done.toNat + (e :: es).length = t.len.toNat ∨ rest = [] ∨
      ∃ (x : RxEntry) (xs : List RxEntry), rest = x :: xs ∧ x.flagged = true) →
    let done := t.done + BitVec.ofNat 32 (e :: es).length
    let after := { u with
      rxFifo := rest
      cto := false
      latPe := headFlag RxEntry.pe rest
      latFe := headFlag RxEntry.fe rest
      latBi := headFlag RxEntry.bi rest }
    exec (.irq n) s =
      if done = t.len then
        .next { s with
          mem := storeBytes s.mem (t.buf + t.done) ((e :: es).map RxEntry.data)
          uarts := s.uarts.set n.toNat { after with ier := u.ier &&& 0x82, rxSlot := .idle }
          cbLog := s.cbLog ++ [{ inst := n, dir := .rx, cb := t.cb, ctx := t.ctx, err := 0, st := 0, n := t.len }]
          callbacks := .interrupt :: s.callbacks }
      else
        .next { s with
          mem := storeBytes s.mem (t.buf + t.done) ((e :: es).map RxEntry.data)
          uarts := s.uarts.set n.toNat { after with rxSlot := .active { t with done := done } } }

/-- The line-status service with an Active IRQ read: the transfer ends with E_IO, the error flags just read and the bytes done so far;
the latches and the RX enables are cleared; the characters stay (R206). -/
def Obligations.HandlerReportsALineError : Prop :=
  ∀ (s : State) (n : Inst) (u : Uart) (t : Transfer),
    s.uart? n = some u → u.Inv → u.irqMasked = false → u.iid = 0x6 → u.rxSlot = .active t →
    exec (.irq n) s = .next { s with
      uarts := s.uarts.set n.toNat { u with
        latOe := false, latPe := false, latFe := false, latBi := false, ier := u.ier &&& 0x82, rxSlot := .idle }
      cbLog := s.cbLog ++ [{
        inst := n, dir := .rx, cb := t.cb, ctx := t.ctx, err := s.params.err.io
        st := (if u.latOe then 0x002 else 0) + (if u.latPe then 0x004 else 0) + (if u.latFe then 0x008 else 0)
          + (if u.latBi then 0x010 else 0)
        n := t.done }]
      callbacks := .interrupt :: s.callbacks }

/-- A service that finds no Active IRQ transfer of its direction clears the enable bits of its source and does nothing else, but for
the LSR read of the line-status service (R208, R206). -/
def Obligations.HandlerSilencesAnUnownedSource : Prop :=
  ∀ (s : State) (n : Inst) (u : Uart), s.uart? n = some u → u.dlab = false → u.irqMasked = false →
    ((u.iid = 0x2 ∧ u.txSlot.ownedBy .irq = none) →
      exec (.irq n) s = .next (s.setUart n { u with ier := u.ier &&& 0x85 })) ∧
    (((u.iid = 0x4 ∨ u.iid = 0xC) ∧ u.rxSlot.ownedBy .irq = none) →
      exec (.irq n) s = .next (s.setUart n { u with ier := u.ier &&& 0x82 })) ∧
    ((u.iid = 0x6 ∧ u.rxSlot.ownedBy .irq = none) →
      exec (.irq n) s = .next (s.setUart n { u with
        latOe := false, latPe := false, latFe := false, latBi := false, ier := u.ier &&& 0x83 }))

/-! ### DMA engine (45_dma.md) -/

/-- `dma_channel_config`: range checks, then E_STATE, then E_BUSY, else the binding and one trace entry (R216). -/
def Obligations.DmaChannelConfigBinds : Prop :=
  ∀ (s : State) (n : Inst) (ctrl chan : Word32),
    (s.uart? n = none → ∀ dir : Word32,
      exec (.dmaChannelConfig n ctrl chan dir) s = .next (s.respond s.params.err.inval 0 0)) ∧
    ∀ u : Uart, s.uart? n = some u →
    let bad := s.params.nDmaCtrl ≤ ctrl.toNat ∨ s.params.nDmaChan ≤ chan.toNat
    let c := ctrl.setWidth 8
    let h := chan.setWidth 8
    (∀ dir : Word32, 1 < dir → exec (.dmaChannelConfig n ctrl chan dir) s = .next (s.respond s.params.err.inval 0 0)) ∧
    exec (.dmaChannelConfig n ctrl chan 0) s =
      (if bad then .next (s.respond s.params.err.inval 0 0)
      else if s.params.dmaReady c h = false then .next (s.respond s.params.err.state 0 0)
      else if u.txSlot ≠ .idle then .next (s.respond s.params.err.busy 0 0)
      else .next (State.respond { s with
        uarts := s.uarts.set n.toNat { u with txBind := .configured c h }
        dmaLog := s.dmaLog ++ [.cfg n .tx c h] } 0 0 0)) ∧
    exec (.dmaChannelConfig n ctrl chan 1) s =
      (if bad then .next (s.respond s.params.err.inval 0 0)
      else if s.params.dmaReady c h = false then .next (s.respond s.params.err.state 0 0)
      else if u.rxSlot ≠ .idle then .next (s.respond s.params.err.busy 0 0)
      else .next (State.respond { s with
        uarts := s.uarts.set n.toNat { u with rxBind := .configured c h }
        dmaLog := s.dmaLog ++ [.cfg n .rx c h] } 0 0 0))

/-- `dma_write` and `dma_read`: operand checks and the 4096-byte bound, then E_STATE for an unbound direction, then E_BUSY, else the
slot is Active under the DMA engine and the channel is armed (R185, R219, R221). -/
def Obligations.DmaStartArmsTheChannel : Prop :=
  ∀ (s : State) (n : Inst) (buf len cb ctx : Word32),
    (s.uart? n = none →
      exec (.dmaWrite n buf len cb ctx) s = .next (s.respond s.params.err.inval 0 0) ∧
      exec (.dmaRead n buf len cb ctx) s = .next (s.respond s.params.err.inval 0 0)) ∧
    ∀ u : Uart, s.uart? n = some u →
    let bad := buf = 0 ∨ cb = 0 ∨ 2 ^ 32 < buf.toNat + len.toNat ∨ 4096 < len.toNat
    let t : Transfer := { engine := .dma, buf := buf, len := len, done := 0, cb := cb, ctx := ctx }
    (bad → exec (.dmaWrite n buf len cb ctx) s = .next (s.respond s.params.err.inval 0 0) ∧
      exec (.dmaRead n buf len cb ctx) s = .next (s.respond s.params.err.inval 0 0)) ∧
    (¬ bad → u.txBind = .unconfigured → exec (.dmaWrite n buf len cb ctx) s = .next (s.respond s.params.err.state 0 0)) ∧
    (¬ bad → u.rxBind = .unconfigured → exec (.dmaRead n buf len cb ctx) s = .next (s.respond s.params.err.state 0 0)) ∧
    (∀ c h : BitVec 8, ¬ bad → u.txBind = .configured c h →
      exec (.dmaWrite n buf len cb ctx) s =
        if u.txSlot ≠ .idle then .next (s.respond s.params.err.busy 0 0)
        else .next (State.respond { s with
          uarts := s.uarts.set n.toNat { u with txSlot := .active t }
          dmaLog := s.dmaLog ++ [.arm n .tx c h buf len] } 0 0 0)) ∧
    (∀ c h : BitVec 8, ¬ bad → u.rxBind = .configured c h →
      exec (.dmaRead n buf len cb ctx) s =
        if u.rxSlot ≠ .idle then .next (s.respond s.params.err.busy 0 0)
        else .next (State.respond { s with
          uarts := s.uarts.set n.toNat { u with rxSlot := .active t }
          dmaLog := s.dmaLog ++ [.arm n .rx c h buf len] } 0 0 0))

/-- The `dma_*` terminates: an Active DMA transfer is disarmed and ends with the cancellation error and the bytes done; any other slot
is left alone and the answer is 0 (R223, R224, R225). -/
def Obligations.DmaTerminateCancelsOnce : Prop :=
  ∀ (s : State) (n : Inst),
    (s.uart? n = none →
      exec (.dmaWriteTerminate n) s = .next (s.respond s.params.err.inval 0 0) ∧
      exec (.dmaReadTerminate n) s = .next (s.respond s.params.err.inval 0 0)) ∧
    ∀ u : Uart, s.uart? n = some u →
    (∀ (t : Transfer) (c h : BitVec 8), u.txSlot = .active t → t.engine = .dma → u.txBind = .configured c h →
      exec (.dmaWriteTerminate n) s = .next (State.respond { s with
        uarts := s.uarts.set n.toNat { u with txSlot := .idle }
        dmaLog := s.dmaLog ++ [.disarm n .tx c h]
        cbLog := s.cbLog ++ [{ inst := n, dir := .tx, cb := t.cb, ctx := t.ctx, err := s.params.err.canceled, st := 0, n := t.done }]
        callbacks := s.active :: s.callbacks
        } 0 0 0)) ∧
    ((∀ t : Transfer, u.txSlot = .active t → t.engine = .irq) → exec (.dmaWriteTerminate n) s = .next (s.respond 0 0 0)) ∧
    (∀ (t : Transfer) (c h : BitVec 8), u.rxSlot = .active t → t.engine = .dma → u.rxBind = .configured c h →
      exec (.dmaReadTerminate n) s = .next (State.respond { s with
        uarts := s.uarts.set n.toNat { u with rxSlot := .idle }
        dmaLog := s.dmaLog ++ [.disarm n .rx c h]
        cbLog := s.cbLog ++ [{ inst := n, dir := .rx, cb := t.cb, ctx := t.ctx, err := s.params.err.canceled, st := 0, n := t.done }]
        callbacks := s.active :: s.callbacks
        } 0 0 0)) ∧
    ((∀ t : Transfer, u.rxSlot = .active t → t.engine = .irq) → exec (.dmaReadTerminate n) s = .next (s.respond 0 0 0))

/-- A TX beat of an Active DMA transfer moves byte `buf + done` of memory to the end of the TX FIFO (R226). -/
def Obligations.DmaBeatSendsOneByte : Prop :=
  ∀ (s : State) (n : Inst) (u : Uart) (t : Transfer) (b : Byte),
    s.uart? n = some u → u.dlab = false → u.txSlot = .active t → t.engine = .dma → t.done < t.len → u.txCount < u.depth →
    memRead s.mem (t.buf + t.done) = some b →
    exec (.dmaBeat n 0) s = .next (s.setUart n { u with
      txFifo := u.txFifo ++ [b]
      txSlot := .active { t with done := t.done + 1 } })

/-- An RX beat of an Active DMA transfer moves the oldest character to byte `buf + done` of memory, flagged or not; the latches keep
their flags and gain the next head's (R226, R222). -/
def Obligations.DmaBeatStoresOneByte : Prop :=
  ∀ (s : State) (n : Inst) (u : Uart) (t : Transfer) (e : RxEntry) (rest : List RxEntry),
    s.uart? n = some u → u.dlab = false → u.rxSlot = .active t → t.engine = .dma → t.done < t.len → u.rxFifo = e :: rest →
    exec (.dmaBeat n 1) s = .next { s with
      mem := memWrite s.mem (t.buf + t.done) e.data
      uarts := s.uarts.set n.toNat { u with
        rxFifo := rest
        cto := false
        latPe := u.latPe || headFlag RxEntry.pe rest
        latFe := u.latFe || headFlag RxEntry.fe rest
        latBi := u.latBi || headFlag RxEntry.bi rest
        rxSlot := .active { t with done := t.done + 1 } } }

/-- `DMA_DONE`: with `ok` and every byte moved the transfer completes with error 0 and its length; without `ok` it ends with E_IO and
the bytes done (R227). -/
def Obligations.DmaDoneEndsTheTransfer : Prop :=
  ∀ (s : State) (n : Inst) (u : Uart) (t : Transfer), s.uart? n = some u → t.engine = .dma →
    (u.txSlot = .active t → t.done = t.len →
      exec (.dmaDone n 0 true) s = .next { s with
        uarts := s.uarts.set n.toNat { u with txSlot := .idle }
        cbLog := s.cbLog ++ [{ inst := n, dir := .tx, cb := t.cb, ctx := t.ctx, err := 0, st := 0, n := t.len }]
        callbacks := .dmaCompletion :: s.callbacks }) ∧
    (u.txSlot = .active t →
      exec (.dmaDone n 0 false) s = .next { s with
        uarts := s.uarts.set n.toNat { u with txSlot := .idle }
        cbLog := s.cbLog ++ [{ inst := n, dir := .tx, cb := t.cb, ctx := t.ctx, err := s.params.err.io, st := 0, n := t.done }]
        callbacks := .dmaCompletion :: s.callbacks }) ∧
    (u.rxSlot = .active t → t.done = t.len →
      exec (.dmaDone n 1 true) s = .next { s with
        uarts := s.uarts.set n.toNat { u with rxSlot := .idle }
        cbLog := s.cbLog ++ [{ inst := n, dir := .rx, cb := t.cb, ctx := t.ctx, err := 0, st := 0, n := t.len }]
        callbacks := .dmaCompletion :: s.callbacks }) ∧
    (u.rxSlot = .active t →
      exec (.dmaDone n 1 false) s = .next { s with
        uarts := s.uarts.set n.toNat { u with rxSlot := .idle }
        cbLog := s.cbLog ++ [{ inst := n, dir := .rx, cb := t.cb, ctx := t.ctx, err := s.params.err.io, st := 0, n := t.done }]
        callbacks := .dmaCompletion :: s.callbacks })

/-! ### Line agent (42_status_fifo.md) -/

/-- A received character, masked to the word length, goes to the end of the RX FIFO, its flags latched at once only if it is the head;
with the FIFO full it is lost and overrun is latched (R151, R156). -/
def Obligations.LineRxReceivesACharacter : Prop :=
  ∀ (s : State) (n : Inst) (u : Uart) (data : Byte) (pe fe bi : Bool), s.uart? n = some u →
    exec (.lineRx n data pe fe bi) s =
      if u.rxCount < u.depth then
        .next (s.setUart n { u with
          rxFifo := u.rxFifo ++ [{ data := data &&& u.wordMask, pe := pe, fe := fe, bi := bi }]
          latPe := u.latPe || (decide (u.rxFifo = []) && pe)
          latFe := u.latFe || (decide (u.rxFifo = []) && fe)
          latBi := u.latBi || (decide (u.rxFifo = []) && bi) })
      else .next (s.setUart n { u with latOe := true })

/-- The shifter takes the oldest byte, masked to the word length, when it is free and flow control lets it; else nothing happens
(R152, R156). -/
def Obligations.LineTxLoadTakesTheOldestByte : Prop :=
  ∀ (s : State) (n : Inst) (u : Uart), s.uart? n = some u →
    (∀ (b : Byte) (rest : List Byte), u.txFifo = b :: rest → u.shifter = .idle →
      (u.mcr.getLsbD 5 = false ∨ u.ctsIn = true) →
      exec (.lineTxLoad n) s = .next (s.setUart n { u with txFifo := rest, shifter := .busy (b &&& u.wordMask) })) ∧
    ((u.txFifo = [] ∨ u.shifter ≠ .idle ∨ (u.mcr.getLsbD 5 = true ∧ u.ctsIn = false)) → exec (.lineTxLoad n) s = .next s)

/-- The line-control codec and the word mask. The 24 legal codes and the 24 formats stand for each other, both ways; a code's data bits,
parity and stop bits are those of 30_encoding.md R106; the format of an instance is that of LCR[4:0] (41_config.md R124); the mask has as
many bits as the format has data bits (R156). -/
def Obligations.WordMaskFollowsTheWordLength : Prop :=
  (∀ code : BitVec 5, lcValid (code.setWidth 8) = true → (lineDecode code).valid = true ∧ lineEncode (lineDecode code) = code) ∧
  (∀ f : LineFormat, f.valid = true → lcValid ((lineEncode f).setWidth 8) = true ∧ lineDecode (lineEncode f) = f) ∧
  (∀ code : BitVec 5,
    (lineDecode code).dataBits = 5 + code.toNat % 4 ∧
    (code.getLsbD 3 = false → (lineDecode code).parity = .none) ∧
    (code.getLsbD 3 = true → code.getLsbD 4 = false → (lineDecode code).parity = .odd) ∧
    (code.getLsbD 3 = true → code.getLsbD 4 = true → (lineDecode code).parity = .even) ∧
    (code.getLsbD 2 = false → (lineDecode code).stop = .one) ∧
    (code.getLsbD 2 = true → code.toNat % 4 = 0 → (lineDecode code).stop = .oneAndHalf) ∧
    (code.getLsbD 2 = true → code.toNat % 4 ≠ 0 → (lineDecode code).stop = .two)) ∧
  ∀ u : Uart, u.lineFormat = lineDecode (u.lcr.extractLsb' 0 5) ∧ u.wordMask.toNat = 2 ^ u.lineFormat.dataBits - 1 ∧
    (u.lcr &&& 0x03 = 0 → u.wordMask = 0x1F) ∧ (u.lcr &&& 0x03 = 1 → u.wordMask = 0x3F) ∧
    (u.lcr &&& 0x03 = 2 → u.wordMask = 0x7F) ∧ (u.lcr &&& 0x03 = 3 → u.wordMask = 0xFF)

/-- The character leaves on the wire; a character timeout is latched only with FIFOs on, data waiting and none latched; the CTS input
follows the line (R153, R154, R155). -/
def Obligations.LineDoneTimeoutAndCts : Prop :=
  ∀ (s : State) (n : Inst) (u : Uart), s.uart? n = some u →
    (∀ b : Byte, u.shifter = .busy b →
      exec (.lineTxDone n) s = .next (s.setUart n { u with wireLog := u.wireLog ++ [b], shifter := .idle })) ∧
    (u.shifter = .idle → exec (.lineTxDone n) s = .next s) ∧
    (u.fifoe = true → u.rxFifo ≠ [] → u.cto = false → exec (.lineCto n) s = .next (s.setUart n { u with cto := true })) ∧
    ((u.fifoe = false ∨ u.rxFifo = [] ∨ u.cto = true) → exec (.lineCto n) s = .next s) ∧
    (∀ level : Bool, exec (.lineCts n level) s = .next (s.setUart n { u with ctsIn := level }))

/-- An event of a missing instance, and a handler or DMA event that is not enabled, labels no step: nothing changes (44_irq.md R200,
45_dma.md R226, R227; the model's choice of log entry 3). -/
def Obligations.DisabledEventsChangeNothing : Prop :=
  (∀ (i : Instr) (s : State), i.isCommand = false → s.uarts.length ≤ i.inst.toNat → exec i s = .next s) ∧
  (∀ (s : State) (n : Inst) (u : Uart), s.uart? n = some u →
    ((u.irqMasked = true ∨ u.iid = 0x1) → exec (.irq n) s = .next s) ∧
    (∀ dir : BitVec 8, 1 < dir → exec (.dmaBeat n dir) s = .next s ∧ ∀ ok : Bool, exec (.dmaDone n dir ok) s = .next s) ∧
    (u.txSlot.ownedBy .dma = none → exec (.dmaBeat n 0) s = .next s ∧ ∀ ok : Bool, exec (.dmaDone n 0 ok) s = .next s) ∧
    (u.rxSlot.ownedBy .dma = none → exec (.dmaBeat n 1) s = .next s ∧ ∀ ok : Bool, exec (.dmaDone n 1 ok) s = .next s) ∧
    (∀ t : Transfer, u.txSlot = .active t →
      (t.len ≤ t.done ∨ u.depth ≤ u.txCount → exec (.dmaBeat n 0) s = .next s) ∧
      (t.done ≠ t.len → exec (.dmaDone n 0 true) s = .next s)) ∧
    (∀ t : Transfer, u.rxSlot = .active t →
      (t.len ≤ t.done ∨ u.rxFifo = [] → exec (.dmaBeat n 1) s = .next s) ∧
      (t.done ≠ t.len → exec (.dmaDone n 1 true) s = .next s)))

/-- A byte nothing has written has no value (10_state.md R55, as the model takes it, log entry 6): a DMA beat that would send it faults,
and so does a THR-empty service that meets one among the bytes it would move, the first or a later one; a fault moves nothing. -/
def Obligations.UnwrittenByteFaults : Prop :=
  ∀ (s : State) (n : Inst) (u : Uart) (t : Transfer), s.uart? n = some u → u.txSlot = .active t →
    (t.engine = .dma → t.done < t.len → u.txCount < u.depth → memRead s.mem (t.buf + t.done) = none →
      exec (.dmaBeat n 0) s = .fault (.unwrittenByte (t.buf + t.done))) ∧
    (∀ bs : List Byte, t.engine = .irq → u.irqMasked = false → u.iid = 0x2 → bs.length < min 8 (t.len.toNat - t.done.toNat) →
      holdsBytes s.mem (t.buf + t.done) bs → memRead s.mem (t.buf + t.done + BitVec.ofNat 32 bs.length) = none →
      exec (.irq n) s = .fault (.unwrittenByte (t.buf + t.done + BitVec.ofNat 32 bs.length)))

/-- One character on an idle loopback-wired instance (42_status_fifo.md R157), in the one order of steps write, load, done, receive, read:
it comes back as the wire carried it, masked to the word length, without an error flag. -/
def Obligations.LoopbackReturnsTheCharacter : Prop :=
  ∀ (s : State) (n : Inst) (u : Uart) (b : Byte),
    s.uart? n = some u → u.dlab = false → s.active ∉ s.callbacks → u.txFifo = [] → u.rxFifo = [] → u.shifter = .idle →
    u.lineErr = false → (u.afce = false ∨ u.ctsIn = true) →
    ∃ (s1 s2 s3 s4 s5 : State) (u3 : Uart) (c : Byte),
      exec (.write n b) s = .next s1 ∧ exec (.lineTxLoad n) s1 = .next s2 ∧ exec (.lineTxDone n) s2 = .next s3 ∧
      s3.uart? n = some u3 ∧ u3.wireLog = u.wireLog ++ [c] ∧ c = b &&& u.wordMask ∧
      exec (.lineRx n c false false false) s3 = .next s4 ∧ exec (.read n) s4 = .next s5 ∧
      s5.responses = s.responses ++ [(s.active, { res := 0, v0 := 0, v1 := 0 }),
        (s.active, { res := 0, v0 := c.setWidth 32, v1 := 0 })]

/-! ### Derived signals (10_state.md) -/

/-- What an instance derives from its state: the depth and the two trigger levels (10_state.md R42, R33), the bits a read of LSR gives
before it clears the four latches (R35) and those a read of FSR gives, changing nothing (R38), and the request-to-send output (R45). -/
def Obligations.DerivedSignalsAreAssembled : Prop :=
  ∀ u : Uart,
    u.depth = (if u.fifoe then 16 else 1) ∧
    ((u.fifoe = false ∨ u.ier.getLsbD 7 = false) → u.txLevel = 0) ∧
    (u.fifoe = true → u.ier.getLsbD 7 = true →
      (u.tet = 0 → u.txLevel = 0) ∧ (u.tet = 1 → u.txLevel = 2) ∧ (u.tet = 2 → u.txLevel = 4) ∧ (u.tet = 3 → u.txLevel = 8)) ∧
    (u.fifoe = false → u.rxLevel = 1) ∧
    (u.fifoe = true →
      (u.rt = 0 → u.rxLevel = 1) ∧ (u.rt = 1 → u.rxLevel = 4) ∧ (u.rt = 2 → u.rxLevel = 8) ∧ (u.rt = 3 → u.rxLevel = 14)) ∧
    (∀ k : Nat, u.regRead k .lineStatus = (u.lsr, { u with latOe := false, latPe := false, latFe := false, latBi := false }) ∧
      u.regRead k .fifoStatus = (u.fsr, u)) ∧
    (u.lsr.getLsbD 0 = true ↔ u.rxFifo ≠ []) ∧
    u.lsr.getLsbD 1 = u.latOe ∧ u.lsr.getLsbD 2 = u.latPe ∧ u.lsr.getLsbD 3 = u.latFe ∧ u.lsr.getLsbD 4 = u.latBi ∧
    (u.lsr.getLsbD 5 = true ↔ u.txFifo.length < u.depth) ∧
    (u.lsr.getLsbD 6 = true ↔ u.txFifo = [] ∧ u.shifter = .idle) ∧
    (u.lsr.getLsbD 7 = true ↔ ∃ e ∈ u.rxFifo, e.pe = true ∨ e.fe = true ∨ e.bi = true) ∧
    (u.fsr.getLsbD 1 = true ↔ u.txFifo.length < u.depth) ∧ (u.fsr.getLsbD 3 = true ↔ u.rxFifo ≠ []) ∧ u.fsr &&& 0xF5 = 0 ∧
    (u.rtsOut = true ↔ u.mcr.getLsbD 1 = true ∧ (u.mcr.getLsbD 5 = false ∨ u.rxFifo.length < u.rxLevel))
end

