-- ==== Sys2Proof/Laws/Encode.lean ====
section
/-! SUPPORT. The fields of a word put together from its fields (spec/30_encoding.md R92, R94, R112). -/

namespace Sys2Proof

/-- Bits taken above the lower part of two joined words come from the upper part. -/
theorem extract_upper {n m : Nat} (x : BitVec n) (y : BitVec m) (k len : Nat) :
    (x ++ y).extractLsb' (m + k) len = x.extractLsb' k len := by
  ext j hj
  have h : ¬ m + k + j < m := by omega
  have e : m + k + j - m = k + j := by omega
  simp [BitVec.getLsbD_append, h, e]

/-- Bits taken inside the lower part come from it. -/
theorem extract_lower {n m : Nat} (x : BitVec n) (y : BitVec m) (k len : Nat) (hle : k + len ≤ m) :
    (x ++ y).extractLsb' k len = y.extractLsb' k len := by
  ext j hj
  have h : k + j < m := by omega
  simp [BitVec.getLsbD_append, h]

/-- All of a word's bits are the word. -/
theorem extract_all {n : Nat} (x : BitVec n) : x.extractLsb' 0 n = x := by
  ext j hj; simp

/-! ### A command word from its fields -/

theorem cmdOp_fields (a3 a2 a1 a0 : Word32) (i : Inst) (op : BitVec 8) :
    cmdOp (a3 ++ a2 ++ a1 ++ a0 ++ i ++ op) = op :=
  (extract_lower (a3 ++ a2 ++ a1 ++ a0 ++ i) op 0 8 (by decide)).trans (extract_all op)

theorem cmdInst_fields (a3 a2 a1 a0 : Word32) (i : Inst) (op : BitVec 8) :
    cmdInst (a3 ++ a2 ++ a1 ++ a0 ++ i ++ op) = i :=
  (extract_upper (a3 ++ a2 ++ a1 ++ a0 ++ i) op 0 8).trans
    ((extract_lower (a3 ++ a2 ++ a1 ++ a0) i 0 8 (by decide)).trans (extract_all i))

theorem cmdA0_fields (a3 a2 a1 a0 : Word32) (i : Inst) (op : BitVec 8) :
    cmdA0 (a3 ++ a2 ++ a1 ++ a0 ++ i ++ op) = a0 :=
  (extract_upper (a3 ++ a2 ++ a1 ++ a0 ++ i) op 8 32).trans <|
    (extract_upper (a3 ++ a2 ++ a1 ++ a0) i 0 32).trans
      ((extract_lower (a3 ++ a2 ++ a1) a0 0 32 (by decide)).trans (extract_all a0))

theorem cmdA1_fields (a3 a2 a1 a0 : Word32) (i : Inst) (op : BitVec 8) :
    cmdA1 (a3 ++ a2 ++ a1 ++ a0 ++ i ++ op) = a1 :=
  (extract_upper (a3 ++ a2 ++ a1 ++ a0 ++ i) op 40 32).trans <|
    (extract_upper (a3 ++ a2 ++ a1 ++ a0) i 32 32).trans <|
      (extract_upper (a3 ++ a2 ++ a1) a0 0 32).trans
        ((extract_lower (a3 ++ a2) a1 0 32 (by decide)).trans (extract_all a1))

theorem cmdA2_fields (a3 a2 a1 a0 : Word32) (i : Inst) (op : BitVec 8) :
    cmdA2 (a3 ++ a2 ++ a1 ++ a0 ++ i ++ op) = a2 :=
  (extract_upper (a3 ++ a2 ++ a1 ++ a0 ++ i) op 72 32).trans <|
    (extract_upper (a3 ++ a2 ++ a1 ++ a0) i 64 32).trans <|
      (extract_upper (a3 ++ a2 ++ a1) a0 32 32).trans <|
        (extract_upper (a3 ++ a2) a1 0 32).trans ((extract_lower a3 a2 0 32 (by decide)).trans (extract_all a2))

theorem cmdA3_fields (a3 a2 a1 a0 : Word32) (i : Inst) (op : BitVec 8) :
    cmdA3 (a3 ++ a2 ++ a1 ++ a0 ++ i ++ op) = a3 :=
  (extract_upper (a3 ++ a2 ++ a1 ++ a0 ++ i) op 104 32).trans <|
    (extract_upper (a3 ++ a2 ++ a1 ++ a0) i 96 32).trans <|
      (extract_upper (a3 ++ a2 ++ a1) a0 64 32).trans <|
        (extract_upper (a3 ++ a2) a1 32 32).trans ((extract_upper a3 a2 0 32).trans (extract_all a3))

/-! ### An event word from its fields -/

theorem evtCode_fields (e1 e0 : BitVec 8) (i : Inst) (code : BitVec 8) : evtCode (e1 ++ e0 ++ i ++ code) = code :=
  (extract_lower (e1 ++ e0 ++ i) code 0 8 (by decide)).trans (extract_all code)

theorem evtInst_fields (e1 e0 : BitVec 8) (i : Inst) (code : BitVec 8) : evtInst (e1 ++ e0 ++ i ++ code) = i :=
  (extract_upper (e1 ++ e0 ++ i) code 0 8).trans ((extract_lower (e1 ++ e0) i 0 8 (by decide)).trans (extract_all i))

theorem evtE0_fields (e1 e0 : BitVec 8) (i : Inst) (code : BitVec 8) : evtE0 (e1 ++ e0 ++ i ++ code) = e0 :=
  (extract_upper (e1 ++ e0 ++ i) code 8 8).trans <|
    (extract_upper (e1 ++ e0) i 0 8).trans ((extract_lower e1 e0 0 8 (by decide)).trans (extract_all e0))

theorem evtE1_fields (e1 e0 : BitVec 8) (i : Inst) (code : BitVec 8) : evtE1 (e1 ++ e0 ++ i ++ code) = e1 :=
  (extract_upper (e1 ++ e0 ++ i) code 16 8).trans <|
    (extract_upper (e1 ++ e0) i 8 8).trans ((extract_upper e1 e0 0 8).trans (extract_all e1))

/-! ### Operands that fill part of their field -/

/-- A byte operand stands in bits 7:0 of its field (R98). -/
theorem byte_of_field (b : Byte) : (b.setWidth 32).extractLsb' 0 8 = b := by
  ext k hk; simp [hk]; omega

/-- `baud_divisor` stands in a1[23:0] (R100). -/
theorem div_of_field (h : BitVec 8) (d : BitVec 24) : (h ++ d : BitVec 32).extractLsb' 0 24 = d :=
  (extract_lower h d 0 24 (by decide)).trans (extract_all d)

/-- The byte above it stands in a1[31:24] (R100). -/
theorem divHigh_of_field (h : BitVec 8) (d : BitVec 24) : (h ++ d : BitVec 32).extractLsb' 24 8 = h :=
  (extract_upper h d 0 8).trans (extract_all h)

end Sys2Proof
end

