-- ==== Sys2Proof/Laws/Memory.lean ====
section
/-! SUPPORT. The laws of buffer memory: what a read gives after a write, and that a write keeps the canonical form. -/

namespace Sys2Proof.Machine

/-- What a key holds after a byte is put at another or at the same. -/
theorem memLookup_memInsert (m : Memory) (a k : Nat) (b : Byte) (hm : m.Pairwise (fun x y => x.1 < y.1)) :
    memLookup (memInsert m a b) k = if k = a then some b else memLookup m k := by
  induction m with
  | nil => simp [memInsert, memLookup, eq_comm]
  | cons c m ih =>
    have ih := ih hm.of_cons
    have hlt : ∀ x ∈ m, c.1 < x.1 := (List.pairwise_cons.mp hm).1
    unfold memInsert
    split
    · simp [memLookup, eq_comm]
    · split
      · next h =>
        simp only [memLookup, h]
        by_cases hk : k = c.1
        · simp [hk]
        · simp [hk, Ne.symm hk]
      · next h1 h2 =>
        simp only [memLookup, ih]
        by_cases hk : c.1 = k
        · have : k ≠ a := fun e => h2 (e ▸ hk.symm)
          simp [hk, this]
        · simp [hk]

/-- Without the canonical form a read of another address is still unchanged. -/
theorem memLookup_memInsert_ne (m : Memory) (a k : Nat) (b : Byte) (h : k ≠ a) :
    memLookup (memInsert m a b) k = memLookup m k := by
  induction m with
  | nil => simp [memInsert, memLookup, Ne.symm h]
  | cons c m ih =>
    unfold memInsert
    split
    · simp [memLookup, Ne.symm h]
    · split
      · next hc => subst hc; simp [memLookup, Ne.symm h]
      · simp [memLookup, ih]

/-- Every key of the list after a byte is put is the new one or an old one. -/
theorem mem_memInsert {m : Memory} {a : Nat} {b : Byte} {c : Host.Cell} (h : c ∈ memInsert m a b) : c.1 = a ∨ c ∈ m := by
  induction m with
  | nil => simp [memInsert] at h; simp [h]
  | cons d m ih =>
    unfold memInsert at h
    split at h
    · simp at h; rcases h with h | h | h <;> simp [h]
    · split at h
      · simp at h; rcases h with h | h <;> simp [h]
      · simp at h
        rcases h with h | h
        · simp [h]
        · rcases ih h with h | h <;> simp [h]

/-- Putting a byte keeps the addresses rising. -/
theorem memInsert_pairwise {m : Memory} (a : Nat) (b : Byte) (h : m.Pairwise (fun x y => x.1 < y.1)) :
    (memInsert m a b).Pairwise (fun x y => x.1 < y.1) := by
  induction m with
  | nil => simp [memInsert]
  | cons c m ih =>
    have hlt : ∀ x ∈ m, c.1 < x.1 := (List.pairwise_cons.mp h).1
    unfold memInsert
    split
    · next hac =>
      refine List.pairwise_cons.mpr ⟨?_, h⟩
      intro x hx
      rcases List.mem_cons.mp hx with rfl | hx
      · exact hac
      · exact Nat.lt_trans hac (hlt x hx)
    · split
      · next heq => exact List.pairwise_cons.mpr ⟨fun x hx => heq ▸ hlt x hx, h.of_cons⟩
      · refine List.pairwise_cons.mpr ⟨fun x hx => ?_, ih h.of_cons⟩
        rcases mem_memInsert hx with hx | hx
        · omega
        · exact hlt x hx

/-- Every memory operation keeps the canonical form. -/
theorem memWrite_wf {m : Memory} (a : Word32) (b : Byte) (h : Memory.wf m) : Memory.wf (memWrite m a b) := by
  refine ⟨memInsert_pairwise _ _ h.1, fun c hc => ?_⟩
  rcases mem_memInsert hc with hc | hc
  · rw [hc]; exact a.isLt
  · exact h.2 c hc

/-- A read of the byte just written gives it. -/
theorem memRead_memWrite_self {m : Memory} (a : Word32) (b : Byte) (h : Memory.wf m) : memRead (memWrite m a b) a = some b := by
  simp [memRead, memWrite, memLookup_memInsert m _ _ _ h.1]

/-- A write leaves every other byte as it was. -/
theorem memRead_memWrite_ne (m : Memory) {a k : Word32} (b : Byte) (h : k ≠ a) : memRead (memWrite m a b) k = memRead m k := by
  have hne : k.toNat ≠ a.toNat := fun e => h (BitVec.eq_of_toNat_eq e)
  simp [memRead, memWrite, memLookup_memInsert_ne m _ _ _ hne]

/-- The empty memory is in canonical form. -/
theorem Memory.wf_nil : Memory.wf [] := by simp [Memory.wf]

end Sys2Proof.Machine
end

