-- ==== Sys2Proof/Laws/State.lean ====
section
/-! SUPPORT. What each state update does to each field of State and of Uart, one lemma a field an update, so that no later proof
unfolds a record update. -/

namespace Sys2Proof.Machine

/-! ### State.setUart -/

@[simp] theorem State.setUart_uarts (s : State) (i : Inst) (u : Uart) :
    (s.setUart i u).uarts = s.uarts.set i.toNat u := rfl
@[simp] theorem State.setUart_mem (s : State) (i : Inst) (u : Uart) : (s.setUart i u).mem = s.mem := rfl
@[simp] theorem State.setUart_cbLog (s : State) (i : Inst) (u : Uart) : (s.setUart i u).cbLog = s.cbLog := rfl
@[simp] theorem State.setUart_dmaLog (s : State) (i : Inst) (u : Uart) : (s.setUart i u).dmaLog = s.dmaLog := rfl
@[simp] theorem State.setUart_presented (s : State) (i : Inst) (u : Uart) : (s.setUart i u).presented = s.presented := rfl
@[simp] theorem State.setUart_held (s : State) (i : Inst) (u : Uart) : (s.setUart i u).held = s.held := rfl
@[simp] theorem State.setUart_responses (s : State) (i : Inst) (u : Uart) : (s.setUart i u).responses = s.responses := rfl
@[simp] theorem State.setUart_active (s : State) (i : Inst) (u : Uart) : (s.setUart i u).active = s.active := rfl
@[simp] theorem State.setUart_callbacks (s : State) (i : Inst) (u : Uart) : (s.setUart i u).callbacks = s.callbacks := rfl
@[simp] theorem State.setUart_turns (s : State) (i : Inst) (u : Uart) : (s.setUart i u).turns = s.turns := rfl
@[simp] theorem State.setUart_params (s : State) (i : Inst) (u : Uart) : (s.setUart i u).params = s.params := rfl
@[simp] theorem State.setUart_freeCount (s : State) (i : Inst) (u : Uart) : (s.setUart i u).freeCount = s.freeCount := rfl

/-! ### State.respond -/

@[simp] theorem State.respond_uarts (s : State) (r v w : Word32) : (s.respond r v w).uarts = s.uarts := rfl
@[simp] theorem State.respond_mem (s : State) (r v w : Word32) : (s.respond r v w).mem = s.mem := rfl
@[simp] theorem State.respond_cbLog (s : State) (r v w : Word32) : (s.respond r v w).cbLog = s.cbLog := rfl
@[simp] theorem State.respond_dmaLog (s : State) (r v w : Word32) : (s.respond r v w).dmaLog = s.dmaLog := rfl
@[simp] theorem State.respond_presented (s : State) (r v w : Word32) : (s.respond r v w).presented = s.presented := rfl
@[simp] theorem State.respond_held (s : State) (r v w : Word32) :
    (s.respond r v w).held = s.held.filter (fun h => decide (h.ctx ≠ s.active)) := rfl
@[simp] theorem State.respond_responses (s : State) (r v w : Word32) :
    (s.respond r v w).responses = s.responses ++ [(s.active, { res := r, v0 := v, v1 := w })] := rfl
@[simp] theorem State.respond_active (s : State) (r v w : Word32) : (s.respond r v w).active = s.active := rfl
@[simp] theorem State.respond_callbacks (s : State) (r v w : Word32) : (s.respond r v w).callbacks = s.callbacks := rfl
@[simp] theorem State.respond_turns (s : State) (r v w : Word32) : (s.respond r v w).turns = s.turns := rfl
@[simp] theorem State.respond_params (s : State) (r v w : Word32) : (s.respond r v w).params = s.params := rfl
@[simp] theorem State.respond_freeCount (s : State) (r v w : Word32) : (s.respond r v w).freeCount = s.freeCount := rfl

/-! ### State.hold -/

@[simp] theorem State.hold_uarts (s : State) (i : Instr) (k : Word32) : (s.hold i k).uarts = s.uarts := rfl
@[simp] theorem State.hold_mem (s : State) (i : Instr) (k : Word32) : (s.hold i k).mem = s.mem := rfl
@[simp] theorem State.hold_cbLog (s : State) (i : Instr) (k : Word32) : (s.hold i k).cbLog = s.cbLog := rfl
@[simp] theorem State.hold_dmaLog (s : State) (i : Instr) (k : Word32) : (s.hold i k).dmaLog = s.dmaLog := rfl
@[simp] theorem State.hold_presented (s : State) (i : Instr) (k : Word32) : (s.hold i k).presented = s.presented := rfl
@[simp] theorem State.hold_held (s : State) (i : Instr) (k : Word32) :
    (s.hold i k).held = { ctx := s.active, instr := i, progress := k } :: s.held.filter (fun h => decide (h.ctx ≠ s.active)) := rfl
@[simp] theorem State.hold_responses (s : State) (i : Instr) (k : Word32) : (s.hold i k).responses = s.responses := rfl
@[simp] theorem State.hold_active (s : State) (i : Instr) (k : Word32) : (s.hold i k).active = s.active := rfl
@[simp] theorem State.hold_callbacks (s : State) (i : Instr) (k : Word32) : (s.hold i k).callbacks = s.callbacks := rfl
@[simp] theorem State.hold_turns (s : State) (i : Instr) (k : Word32) : (s.hold i k).turns = s.turns := rfl
@[simp] theorem State.hold_params (s : State) (i : Instr) (k : Word32) : (s.hold i k).params = s.params := rfl
@[simp] theorem State.hold_freeCount (s : State) (i : Instr) (k : Word32) : (s.hold i k).freeCount = s.freeCount := rfl

/-! ### State.emitDma -/

@[simp] theorem State.emitDma_uarts (s : State) (r : DmaRecord) : (s.emitDma r).uarts = s.uarts := rfl
@[simp] theorem State.emitDma_mem (s : State) (r : DmaRecord) : (s.emitDma r).mem = s.mem := rfl
@[simp] theorem State.emitDma_cbLog (s : State) (r : DmaRecord) : (s.emitDma r).cbLog = s.cbLog := rfl
@[simp] theorem State.emitDma_dmaLog (s : State) (r : DmaRecord) :
    (s.emitDma r).dmaLog = s.dmaLog ++ [r] := rfl
@[simp] theorem State.emitDma_presented (s : State) (r : DmaRecord) : (s.emitDma r).presented = s.presented := rfl
@[simp] theorem State.emitDma_held (s : State) (r : DmaRecord) : (s.emitDma r).held = s.held := rfl
@[simp] theorem State.emitDma_responses (s : State) (r : DmaRecord) : (s.emitDma r).responses = s.responses := rfl
@[simp] theorem State.emitDma_active (s : State) (r : DmaRecord) : (s.emitDma r).active = s.active := rfl
@[simp] theorem State.emitDma_callbacks (s : State) (r : DmaRecord) : (s.emitDma r).callbacks = s.callbacks := rfl
@[simp] theorem State.emitDma_turns (s : State) (r : DmaRecord) : (s.emitDma r).turns = s.turns := rfl
@[simp] theorem State.emitDma_params (s : State) (r : DmaRecord) : (s.emitDma r).params = s.params := rfl
@[simp] theorem State.emitDma_freeCount (s : State) (r : DmaRecord) : (s.emitDma r).freeCount = s.freeCount := rfl

/-! ### dispatch -/

@[simp] theorem dispatch_uarts (c : Context) (i : Inst) (d : Dir) (cb ctx err : Word32) (st : StatusFlags) (n : Word32) (s : State) :
    (dispatch c i d cb ctx err st n s).uarts = s.uarts := rfl
@[simp] theorem dispatch_mem (c : Context) (i : Inst) (d : Dir) (cb ctx err : Word32) (st : StatusFlags) (n : Word32) (s : State) :
    (dispatch c i d cb ctx err st n s).mem = s.mem := rfl
@[simp] theorem dispatch_cbLog (c : Context) (i : Inst) (d : Dir) (cb ctx err : Word32) (st : StatusFlags) (n : Word32) (s : State) :
    (dispatch c i d cb ctx err st n s).cbLog = s.cbLog ++ [{ inst := i, dir := d, cb := cb, ctx := ctx, err := err, st := st, n := n }] := rfl
@[simp] theorem dispatch_dmaLog (c : Context) (i : Inst) (d : Dir) (cb ctx err : Word32) (st : StatusFlags) (n : Word32) (s : State) :
    (dispatch c i d cb ctx err st n s).dmaLog = s.dmaLog := rfl
@[simp] theorem dispatch_presented (c : Context) (i : Inst) (d : Dir) (cb ctx err : Word32) (st : StatusFlags) (n : Word32) (s : State) :
    (dispatch c i d cb ctx err st n s).presented = s.presented := rfl
@[simp] theorem dispatch_held (c : Context) (i : Inst) (d : Dir) (cb ctx err : Word32) (st : StatusFlags) (n : Word32) (s : State) :
    (dispatch c i d cb ctx err st n s).held = s.held := rfl
@[simp] theorem dispatch_responses (c : Context) (i : Inst) (d : Dir) (cb ctx err : Word32) (st : StatusFlags) (n : Word32) (s : State) :
    (dispatch c i d cb ctx err st n s).responses = s.responses := rfl
@[simp] theorem dispatch_active (c : Context) (i : Inst) (d : Dir) (cb ctx err : Word32) (st : StatusFlags) (n : Word32) (s : State) :
    (dispatch c i d cb ctx err st n s).active = s.active := rfl
@[simp] theorem dispatch_callbacks (c : Context) (i : Inst) (d : Dir) (cb ctx err : Word32) (st : StatusFlags) (n : Word32) (s : State) :
    (dispatch c i d cb ctx err st n s).callbacks = c :: s.callbacks := rfl
@[simp] theorem dispatch_turns (c : Context) (i : Inst) (d : Dir) (cb ctx err : Word32) (st : StatusFlags) (n : Word32) (s : State) :
    (dispatch c i d cb ctx err st n s).turns = s.turns := rfl
@[simp] theorem dispatch_params (c : Context) (i : Inst) (d : Dir) (cb ctx err : Word32) (st : StatusFlags) (n : Word32) (s : State) :
    (dispatch c i d cb ctx err st n s).params = s.params := rfl
@[simp] theorem dispatch_freeCount (c : Context) (i : Inst) (d : Dir) (cb ctx err : Word32) (st : StatusFlags) (n : Word32) (s : State) :
    (dispatch c i d cb ctx err st n s).freeCount = s.freeCount := rfl

/-! ### State.callbackReturn -/

@[simp] theorem State.callbackReturn_uarts (s : State) (c : Context) : (s.callbackReturn c).uarts = s.uarts := rfl
@[simp] theorem State.callbackReturn_mem (s : State) (c : Context) : (s.callbackReturn c).mem = s.mem := rfl
@[simp] theorem State.callbackReturn_cbLog (s : State) (c : Context) : (s.callbackReturn c).cbLog = s.cbLog := rfl
@[simp] theorem State.callbackReturn_dmaLog (s : State) (c : Context) : (s.callbackReturn c).dmaLog = s.dmaLog := rfl
@[simp] theorem State.callbackReturn_presented (s : State) (c : Context) : (s.callbackReturn c).presented = s.presented := rfl
@[simp] theorem State.callbackReturn_held (s : State) (c : Context) : (s.callbackReturn c).held = s.held := rfl
@[simp] theorem State.callbackReturn_responses (s : State) (c : Context) : (s.callbackReturn c).responses = s.responses := rfl
@[simp] theorem State.callbackReturn_active (s : State) (c : Context) : (s.callbackReturn c).active = s.active := rfl
@[simp] theorem State.callbackReturn_callbacks (s : State) (c : Context) :
    (s.callbackReturn c).callbacks = s.callbacks.erase c := rfl
@[simp] theorem State.callbackReturn_turns (s : State) (c : Context) : (s.callbackReturn c).turns = s.turns := rfl
@[simp] theorem State.callbackReturn_params (s : State) (c : Context) : (s.callbackReturn c).params = s.params := rfl
@[simp] theorem State.callbackReturn_freeCount (s : State) (c : Context) : (s.callbackReturn c).freeCount = s.freeCount := rfl

/-! ### Slots and bindings of an instance -/

@[simp] theorem Uart.slot_tx (u : Uart) : u.slot .tx = u.txSlot := rfl
@[simp] theorem Uart.bind_tx (u : Uart) : u.bind .tx = u.txBind := rfl
@[simp] theorem Uart.setSlot_tx (u : Uart) (x : Slot) : u.setSlot .tx x = { u with txSlot := x } := rfl
@[simp] theorem Uart.setBind_tx (u : Uart) (x : DmaBinding) : u.setBind .tx x = { u with txBind := x } := rfl
@[simp] theorem Uart.slot_rx (u : Uart) : u.slot .rx = u.rxSlot := rfl
@[simp] theorem Uart.bind_rx (u : Uart) : u.bind .rx = u.rxBind := rfl
@[simp] theorem Uart.setSlot_rx (u : Uart) (x : Slot) : u.setSlot .rx x = { u with rxSlot := x } := rfl
@[simp] theorem Uart.setBind_rx (u : Uart) (x : DmaBinding) : u.setBind .rx x = { u with rxBind := x } := rfl

/-! ### Instances -/

/-- An instance written exists iff it existed before. -/
theorem State.uart?_setUart_self {s : State} {i : Inst} {u v : Uart} (h : s.uart? i = some v) :
    (s.setUart i u).uart? i = some u := by
  have hi : i.toNat < s.uarts.length := (List.getElem?_eq_some_iff.mp h).1
  simp [State.uart?, hi]

/-- Writing an instance leaves every other as it was. -/
theorem State.uart?_setUart_ne {s : State} {i j : Inst} {u : Uart} (h : j ≠ i) :
    (s.setUart i u).uart? j = s.uart? j := by
  have hne : i.toNat ≠ j.toNat := fun e => h (BitVec.eq_of_toNat_eq e.symm)
  simp [State.uart?, hne]

/-- The command port is no part of an instance. -/
@[simp] theorem State.uart?_respond (s : State) (r v w : Word32) (i : Inst) : (s.respond r v w).uart? i = s.uart? i := rfl
@[simp] theorem State.uart?_hold (s : State) (x : Instr) (k : Word32) (i : Inst) : (s.hold x k).uart? i = s.uart? i := rfl
@[simp] theorem State.uart?_emitDma (s : State) (r : DmaRecord) (i : Inst) : (s.emitDma r).uart? i = s.uart? i := rfl

/-- The two ways a command completes are responses. -/
theorem State.returnOk_eq (s : State) : s.returnOk = s.respond 0 0 0 := rfl
theorem State.raise_eq (s : State) (e : ErrorKind) : s.raise e = s.respond (s.params.err.code e) 0 0 := rfl

/-- A context that is answered holds no command. -/
theorem State.heldOf_respond (s : State) (r v w : Word32) : (s.respond r v w).heldOf s.active = none := by
  simp [State.heldOf, List.find?_filter]

end Sys2Proof.Machine
end

