-- ==== Sys2Proof/Laws/Regs.lean ====
section
/-! SUPPORT. What each register access does, said once: reads and writes of the data port, IER, FCR and LSR, and the bits of the
derived bytes. -/

namespace Sys2Proof.Machine

/-! ### Bits of the derived bytes -/

/-- The bits of a byte assembled from eight flags, as the two masks of StatusFlags read them. -/
theorem statusOf_flags (b7 b6 b5 b4 b3 b2 b1 b0 t : Bool) :
    statusOf (BitVec.ofBool b7 ++ BitVec.ofBool b6 ++ BitVec.ofBool b5 ++ BitVec.ofBool b4 ++ BitVec.ofBool b3
        ++ BitVec.ofBool b2 ++ BitVec.ofBool b1 ++ BitVec.ofBool b0)
      (0#4 ++ BitVec.ofBool b0 ++ 0#1 ++ BitVec.ofBool t ++ 0#1)
    = (if b1 then 0x002 else 0) + (if b2 then 0x004 else 0) + (if b3 then 0x008 else 0) + (if b4 then 0x010 else 0)
        + (if b6 then 0 else 0x020) + (if b0 then 0x040 else 0) + (if t then 0x080 else 0) + (if b0 then 0x100 else 0) := by
  cases b7 <;> cases b6 <;> cases b5 <;> cases b4 <;> cases b3 <;> cases b2 <;> cases b1 <;> cases b0 <;> cases t <;> rfl

/-- The error flags of a byte assembled from eight flags. -/
theorem errOf_flags (b7 b6 b5 b4 b3 b2 b1 b0 : Bool) :
    errOf (BitVec.ofBool b7 ++ BitVec.ofBool b6 ++ BitVec.ofBool b5 ++ BitVec.ofBool b4 ++ BitVec.ofBool b3
        ++ BitVec.ofBool b2 ++ BitVec.ofBool b1 ++ BitVec.ofBool b0)
    = (if b1 then 0x002 else 0) + (if b2 then 0x004 else 0) + (if b3 then 0x008 else 0) + (if b4 then 0x010 else 0) := by
  cases b7 <;> cases b6 <;> cases b5 <;> cases b4 <;> cases b3 <;> cases b2 <;> cases b1 <;> cases b0 <;> rfl

/-- The two bits of FSR (10_state.md R38). -/
theorem fsr_bit1 (u : Uart) : u.fsr.getLsbD 1 = u.thre := by
  unfold Uart.fsr; cases u.dr <;> cases u.thre <;> rfl

theorem fsr_bit3 (u : Uart) : u.fsr.getLsbD 3 = u.dr := by
  unfold Uart.fsr; cases u.dr <;> cases u.thre <;> rfl

/-- The low nibble of any read of IIR is the identity, whatever its high nibble (20_memory.md R67). -/
theorem iir_low (h x : BitVec 4) : (h ++ x) &&& 0x0F = x.setWidth 8 := by
  revert h x; decide

/-! ### The data port -/

/-- A write of THR with room appends the byte (20_memory.md R72). -/
theorem regWrite_data_room {u : Uart} (b : Byte) (hd : u.dlab = false) (hr : u.thre = true) :
    u.regWrite .data b = { u with txFifo := u.txFifo ++ [b] } := by
  simp [Uart.regWrite, hd, Uart.writeThr, hr]

/-- Head exposure in closed form (10_state.md R41). -/
theorem exposeHead_cons {u : Uart} {e : RxEntry} {es : List RxEntry} (h : u.rxFifo = e :: es) :
    u.exposeHead = { u with latPe := u.latPe || e.pe, latFe := u.latFe || e.fe, latBi := u.latBi || e.bi } := by
  simp [Uart.exposeHead, h]

theorem exposeHead_nil {u : Uart} (h : u.rxFifo = []) : u.exposeHead = u := by
  simp [Uart.exposeHead, h]

/-- A read of RBR on an empty FIFO changes nothing (20_memory.md R64). -/
theorem readRbr_empty (n : Nat) {u : Uart} (h : u.rxFifo = []) : u.readRbr n = (Config.emptyRbr n, u) := by
  simp [Uart.readRbr, h]

/-- A read of RBR pops the head and exposes the next (20_memory.md R64). -/
theorem regRead_data_cons (n : Nat) {u : Uart} {e : RxEntry} {rest : List RxEntry} (hd : u.dlab = false)
    (h : u.rxFifo = e :: rest) :
    u.regRead n .data = (e.data, Uart.exposeHead { u with rxFifo := rest, cto := false }) := by
  simp [Uart.regRead, hd, Uart.readRbr, h]

/-! ### IER -/

/-- Setting bits of IER while DLAB is clear (20_memory.md R66, R74). -/
theorem ierSet_eq (n : Nat) (m : Byte) {u : Uart} (hd : u.dlab = false) :
    u.ierSet n m = { u with ier := (u.ier ||| m) &&& 0x87 } := by
  simp [Uart.ierSet, Uart.regRead, Uart.regWrite, hd]

/-- Clearing bits of IER while DLAB is clear. -/
theorem ierClear_eq (n : Nat) (m : Byte) {u : Uart} (hd : u.dlab = false) :
    u.ierClear n m = { u with ier := u.ier &&& ~~~m &&& 0x87 } := by
  simp [Uart.ierClear, Uart.regRead, Uart.regWrite, hd]

/-! ### FCR -/

/-- The FCR value of either preset enables and empties both FIFOs and sets the triggers (41_config.md R128). -/
theorem writeFcr_fcrValue (p : Preset) (u : Uart) :
    u.writeFcr (fcrValue p) = { u with
      fifoe := true
      tet := if p = .halfHalf then 3 else 0
      rt := if p = .halfHalf then 2 else 0
      txFifo := []
      rxFifo := []
      cto := false } := by
  cases p <;> cases h : u.fifoe <;> simp [Uart.writeFcr, fcrValue, h]

end Sys2Proof.Machine
end

