-- ==== Sys2Proof/Laws/Exec.lean ====
section
/-! SUPPORT. For each shared operation, once, everything it can do: the checks that open every command and event, the register
accesses by the fields they may change, the refill and drain loops, and what ends a transfer. -/

namespace Sys2Proof.Machine

/-! ### Opening checks -/

/-- A command of an instance that exists is its body. -/
theorem forCommand_some {i : Inst} {s : State} {u : Uart} (k : Uart → Result) (h : s.uart? i = some u) :
    forCommand i s k = k u := by
  simp [forCommand, h]

/-- A command completes because its instance does not exist, or as its body does. -/
theorem forCommand_next {i : Inst} {s s' : State} {k : Uart → Result} (h : forCommand i s k = .next s') :
    (s.uart? i = none ∧ s' = s.respond s.params.err.inval 0 0) ∨ ∃ u, s.uart? i = some u ∧ k u = .next s' := by
  unfold forCommand at h
  split at h
  · next e => exact .inl ⟨e, by simpa [State.raise, ErrorCodes.code] using h.symm⟩
  · next u e => exact .inr ⟨u, e, h⟩

/-- An event that is enabled is its body. -/
theorem forEvent_some {i : Inst} {s : State} {p : Uart → Bool} {u : Uart} (k : Uart → Result) (h : s.uart? i = some u)
    (hp : p u = true) : forEvent i s p k = k u := by
  simp [forEvent, h, hp]

/-- An event changes nothing, or it is enabled and does what its body does. -/
theorem forEvent_next {i : Inst} {s s' : State} {p : Uart → Bool} {k : Uart → Result} (h : forEvent i s p k = .next s') :
    s' = s ∨ ∃ u, s.uart? i = some u ∧ p u = true ∧ k u = .next s' := by
  unfold forEvent at h
  split at h
  · exact .inl (by simpa using h.symm)
  · next u e =>
    split at h
    · next hp => exact .inr ⟨u, e, hp, h⟩
    · exact .inl (by simpa using h.symm)

/-- A command that can hold completes only outside a callback. -/
theorem unlessCallback_next {s s' : State} {k : Result} (h : unlessCallback s k = .next s') :
    s.active ∉ s.callbacks ∧ k = .next s' := by
  unfold unlessCallback at h
  split at h
  · cases h
  · next e => exact ⟨by simpa using e, h⟩

/-- Outside a callback the check does nothing. -/
theorem unlessCallback_false {s : State} (k : Result) (h : s.active ∉ s.callbacks) : unlessCallback s k = k := by
  simp [unlessCallback, h]

/-! ### Operand checks and slots -/

theorem startOperandsBad_eq (buf len cb : Word32) :
    startOperandsBad buf len cb = decide (buf = 0 ∨ cb = 0 ∨ 2 ^ 32 < buf.toNat + len.toNat) := by
  simp [startOperandsBad, regionWraps, Bool.or_assoc]

theorem bufferOperandsBad_eq (buf len : Word32) :
    bufferOperandsBad buf len = decide (buf = 0 ∨ 2 ^ 32 < buf.toNat + len.toNat) := by
  simp [bufferOperandsBad, regionWraps]

theorem Slot.isActive_eq (x : Slot) : x.isActive = decide (x ≠ .idle) := by
  cases x <;> simp [Slot.isActive]

/-- A slot is owned by an engine iff it is Active under it. -/
theorem Slot.ownedBy_eq_some {x : Slot} {e : Engine} {t : Transfer} : x.ownedBy e = some t ↔ x = .active t ∧ t.engine = e := by
  cases x with
  | idle => simp [Slot.ownedBy]
  | active r =>
    by_cases h : r.engine = e
    · simp only [Slot.ownedBy, h, if_true, Option.some.injEq, Slot.active.injEq]
      exact ⟨fun hr => ⟨hr, hr ▸ h⟩, fun hr => hr.1⟩
    · simp only [Slot.ownedBy, h, if_false, Slot.active.injEq]
      exact ⟨nofun, fun hr => absurd (hr.1 ▸ hr.2) h⟩

/-- A slot is not owned by an engine iff it is Idle or Active under the other. -/
theorem Slot.ownedBy_eq_none {x : Slot} {e : Engine} : x.ownedBy e = none ↔ ∀ t, x = .active t → t.engine ≠ e := by
  cases x with
  | idle => simp [Slot.ownedBy]
  | active r => simp [Slot.ownedBy]

/-- The slot invariant of an Idle slot, and of an Active one (10_state.md R23). -/
theorem Slot.ok_idle : Slot.Ok .idle := nofun

theorem Slot.ok_active {t : Transfer} (h : t.Ok) : Slot.Ok (.active t) := fun _ e => by cases e; exact h

/-! ### Register accesses by what they change -/

/-- Head exposure in closed form (10_state.md R41). -/
theorem exposeHead_eq (u : Uart) :
    u.exposeHead = { u with
      latPe := u.latPe || headFlag RxEntry.pe u.rxFifo
      latFe := u.latFe || headFlag RxEntry.fe u.rxFifo
      latBi := u.latBi || headFlag RxEntry.bi u.rxFifo } := by
  unfold Uart.exposeHead
  split
  · next h => have hf (f) : headFlag f u.rxFifo = false := by rw [h]; rfl
              simp [hf]
  · next e _ h => have hf (f) : headFlag f u.rxFifo = f e := by rw [h]; rfl
                  simp [hf]

/-- A read of RBR with data, in closed form (20_memory.md R64). -/
theorem regRead_data_closed (n : Nat) {u : Uart} {e : RxEntry} {rest : List RxEntry} (hd : u.dlab = false)
    (h : u.rxFifo = e :: rest) :
    u.regRead n .data = (e.data, { u with
      rxFifo := rest
      cto := false
      latPe := u.latPe || headFlag RxEntry.pe rest
      latFe := u.latFe || headFlag RxEntry.fe rest
      latBi := u.latBi || headFlag RxEntry.bi rest }) := by
  rw [regRead_data_cons n hd h, exposeHead_eq]

/-- A read of the data port changes at most the RX FIFO, the timeout and three latches; it never adds a character, and a latch that
is set stays set. -/
theorem regRead_data_changes (n : Nat) (u : Uart) : ∃ rx cto pe fe bi,
    (u.regRead n .data).2 = { u with rxFifo := rx, cto := cto, latPe := pe, latFe := fe, latBi := bi } ∧
    rx.length ≤ u.rxFifo.length ∧ (cto = true → u.cto = true ∧ rx = u.rxFifo) ∧
    (u.latPe = true → pe = true) ∧ (u.latFe = true → fe = true) ∧ (u.latBi = true → bi = true) := by
  by_cases hd : u.dlab = true
  · exact ⟨u.rxFifo, u.cto, u.latPe, u.latFe, u.latBi, by simp [Uart.regRead, hd]⟩
  · replace hd : u.dlab = false := by simpa using hd
    obtain h | ⟨e, rest, h⟩ : u.rxFifo = [] ∨ ∃ e rest, u.rxFifo = e :: rest := by cases u.rxFifo <;> simp
    · have hr : (u.regRead n .data).2 = u := by simp [Uart.regRead, hd, readRbr_empty n h]
      exact ⟨u.rxFifo, u.cto, u.latPe, u.latFe, u.latBi, hr, le_rfl, fun h0 => ⟨h0, rfl⟩, id, id, id⟩
    · refine ⟨_, _, _, _, _, by rw [regRead_data_closed n hd h], ?_⟩
      simp +contextual [h]

/-- A write of the data port changes at most the TX FIFO, by one byte and only if there is room, or DLL. -/
theorem regWrite_data_changes (v : Byte) (u : Uart) : ∃ tx dll,
    u.regWrite .data v = { u with txFifo := tx, dll := dll } ∧ (u.dlab = false → dll = u.dll) ∧
    (u.txCount ≤ u.depth → tx.length ≤ u.depth) := by
  by_cases hd : u.dlab = true
  · exact ⟨u.txFifo, v, by simp [Uart.regWrite, hd], by simp [hd], id⟩
  · replace hd : u.dlab = false := by simpa using hd
    by_cases ht : u.thre = true
    · have : u.txCount < u.depth := by simpa [Uart.thre] using ht
      exact ⟨u.txFifo ++ [v], u.dll, regWrite_data_room v hd ht, fun _ => rfl, fun _ => by simpa [Uart.txCount] using this⟩
    · exact ⟨u.txFifo, u.dll, by simp [Uart.regWrite, Uart.writeThr, hd, ht], fun _ => rfl, id⟩

/-- Setting bits of IER changes at most IER, or DLH. -/
theorem ierSet_changes (n : Nat) (m : Byte) (u : Uart) : ∃ ier dlh, u.ierSet n m = { u with ier := ier, dlh := dlh } := by
  by_cases hd : u.dlab = true
  · exact ⟨u.ier, u.dlh ||| m, by simp [Uart.ierSet, Uart.regRead, Uart.regWrite, hd]⟩
  · exact ⟨_, u.dlh, ierSet_eq n m (by simpa using hd)⟩

/-- Clearing bits of IER changes at most IER, or DLH. -/
theorem ierClear_changes (n : Nat) (m : Byte) (u : Uart) : ∃ ier dlh, u.ierClear n m = { u with ier := ier, dlh := dlh } := by
  by_cases hd : u.dlab = true
  · exact ⟨u.ier, u.dlh &&& ~~~m, by simp [Uart.ierClear, Uart.regRead, Uart.regWrite, hd]⟩
  · exact ⟨_, u.dlh, ierClear_eq n m (by simpa using hd)⟩

/-- The configuration sequence in closed form, for a legal line-control code (41_config.md R122). -/
theorem configSequence_eq (n : Nat) {lc : BitVec 8} (div : BitVec 24) (fc ie : Bool) (u : Uart) (hl : lcValid lc = true) :
    configSequence n lc div fc ie u = { u with
      lcr := lc
      dll := divLowByte div
      dlh := divHighByte div
      dlf := divFracByte div
      mcr := if fc then 0x22 else 0x00
      fifoe := true
      tet := if u.thrPreset = .halfHalf then 3 else 0
      rt := if u.thrPreset = .halfHalf then 2 else 0
      txFifo := []
      rxFifo := []
      cto := false
      ier := (u.ier &&& 0x07) ||| 0x80
      irqMasked := !ie } := by
  have hlc : lc.getLsbD 7 = false := by revert hl; revert lc; decide
  have hlc' : lc[7] = false := hlc
  have key : ∀ x : BitVec 8, (x &&& 7 ||| 0x80) &&& 0x87 = x &&& 7 ||| 0x80 := by decide
  have hm : (if fc then 0x22#8 else 0x00#8) &&& 0x22 = if fc then 0x22#8 else 0x00#8 := by cases fc <;> rfl
  simp [configSequence, Uart.regWrite, Uart.regRead, Uart.dlab, writeFcr_fcrValue, hlc'] at *
  simp [key, hm]

/-! ### The loops of the handler -/

/-- One byte more, counted before or after the others. -/
theorem done_step (x : Word32) (k : Nat) : x + 1#32 + BitVec.ofNat 32 k = x + BitVec.ofNat 32 (k + 1) := by
  rw [BitVec.ofNat_add, BitVec.add_assoc, BitVec.add_comm 1#32]

/-- A write of THR without room discards the byte (20_memory.md R72). -/
theorem regWrite_data_full {u : Uart} (b : Byte) (hd : u.dlab = false) (hr : u.thre = false) : u.regWrite .data b = u := by
  simp [Uart.regWrite, hd, Uart.writeThr, hr]

/-- The refill loop in closed form: the bytes that stand in the buffer, as far as there is room for them (44_irq.md R202, R203). -/
theorem txRefill_eq (m : Memory) : ∀ (bs : List Byte) (t : Transfer) (u : Uart), u.dlab = false →
    holdsBytes m (t.buf + t.done) bs →
    txRefill m bs.length t u =
      .ok ({ t with done := t.done + BitVec.ofNat 32 bs.length },
        { u with txFifo := u.txFifo ++ bs.take (u.depth - u.txCount) })
  | [], t, u, _, _ => by simp [txRefill]
  | b :: bs, t, u, hd, hm => by
    simp only [List.length_cons, txRefill, hm.1]
    have hn : holdsBytes m (t.buf + (t.done + 1)) bs := by rw [← BitVec.add_assoc]; exact hm.2
    by_cases ht : u.txCount < u.depth
    · rw [regWrite_data_room b hd (by simpa [Uart.thre] using ht),
        txRefill_eq m bs { t with done := t.done + 1 } { u with txFifo := u.txFifo ++ [b] } hd hn]
      have e : u.depth - u.txCount = (u.depth - (u.txCount + 1)) + 1 := by omega
      rw [e, List.take_succ_cons]
      simp [done_step, Uart.txCount, Uart.depth]
    · rw [regWrite_data_full b hd (by simpa [Uart.thre] using ht), txRefill_eq m bs { t with done := t.done + 1 } u hd hn]
      have e : u.depth - u.txCount = 0 := by omega
      simp [done_step, e]

/-- The refill loop changes at most the TX FIFO (or DLL), and advances `done` by its count. -/
theorem txRefill_changes (m : Memory) : ∀ (k : Nat) (t t' : Transfer) (u u' : Uart), txRefill m k t u = .ok (t', u') →
    t' = { t with done := t.done + BitVec.ofNat 32 k } ∧
    ∃ tx dll, u' = { u with txFifo := tx, dll := dll } ∧ (u.dlab = false → dll = u.dll) ∧
      (u.txCount ≤ u.depth → tx.length ≤ u.depth)
  | 0, t, t', u, u', h => by
    simp [txRefill] at h
    exact ⟨by simp [← h.1], u.txFifo, u.dll, by simp [← h.2], fun _ => rfl, id⟩
  | k + 1, t, t', u, u', h => by
    simp only [txRefill] at h
    split at h
    · cases h
    · next b _ =>
      obtain ⟨tx, dll, hw, hd, hr⟩ := regWrite_data_changes b u
      obtain ⟨ht, tx', dll', hu, hd', hr'⟩ := txRefill_changes m k _ _ _ _ h
      rw [hw] at hu hd' hr'
      exact ⟨by rw [ht]; simp [done_step], tx', dll', hu, fun h0 => (hd' h0).trans (hd h0), fun h0 => hr' (hr h0)⟩

/-- The refill loop stops the machine only at a byte nothing has written. -/
theorem txRefill_error (m : Memory) : ∀ (k : Nat) (t : Transfer) (u : Uart) (f : Fault), txRefill m k t u = .error f →
    ∃ a : Word32, f = .unwrittenByte a ∧ memRead m a = none
  | 0, t, u, f, h => by cases h
  | k + 1, t, u, f, h => by
    simp only [txRefill] at h
    split at h
    · next e => cases h; exact ⟨_, rfl, e⟩
    · exact txRefill_error m k _ _ _ h

/-- The refill loop stops at the first byte nothing has written, be it a later one (10_state.md R55). -/
theorem txRefill_fault (m : Memory) : ∀ (bs : List Byte) (k : Nat) (t : Transfer) (u : Uart), bs.length < k →
    holdsBytes m (t.buf + t.done) bs → memRead m (t.buf + t.done + BitVec.ofNat 32 bs.length) = none →
    txRefill m k t u = .error (.unwrittenByte (t.buf + t.done + BitVec.ofNat 32 bs.length))
  | [], k, t, u, hk, _, hm => by
    obtain ⟨k, rfl⟩ : ∃ j, k = j + 1 := ⟨k - 1, by simp at hk; omega⟩
    simp at hm
    simp [txRefill, hm]
  | b :: bs, k, t, u, hk, hb, hm => by
    obtain ⟨k, rfl⟩ : ∃ j, k = j + 1 := ⟨k - 1, by simp at hk; omega⟩
    have e : t.buf + (t.done + 1) + BitVec.ofNat 32 bs.length = t.buf + t.done + BitVec.ofNat 32 (b :: bs).length := by
      rw [List.length_cons, ← done_step (t.buf + t.done) bs.length, ← BitVec.add_assoc]; rfl
    simp only [txRefill, hb.1]
    rw [txRefill_fault m bs k { t with done := t.done + 1 } _ (by simpa using hk) (by simpa [BitVec.add_assoc] using hb.2)
      (by simpa only [e] using hm)]
    simp only [e]

/-- The drain loop changes at most the RX FIFO, the timeout and three latches, advances `done` up to `len`, and keeps memory in its
canonical form (44_irq.md R204). -/
theorem rxDrain_changes (n : Nat) : ∀ (k : Nat) (m : Memory) (t : Transfer) (u : Uart), ∃ m' done rx cto pe fe bi,
    rxDrain n k m t u = (m', { t with done := done },
      { u with rxFifo := rx, cto := cto, latPe := pe, latFe := fe, latBi := bi }) ∧
    rx.length ≤ u.rxFifo.length ∧ (cto = true → u.cto = true ∧ rx = u.rxFifo) ∧ (t.done ≤ t.len → done ≤ t.len) ∧
    (Memory.wf m → Memory.wf m')
  | 0, m, t, u => ⟨m, t.done, u.rxFifo, u.cto, u.latPe, u.latFe, u.latBi, by simp [rxDrain]⟩
  | k + 1, m, t, u => by
    unfold rxDrain
    by_cases hc : (u.dr && decide (t.done < t.len) && !u.lineErr) = true
    · rw [if_pos hc]
      obtain ⟨rx, cto, pe, fe, bi, hr, hl, hcto, -, -, -⟩ := regRead_data_changes n u
      obtain ⟨m', done, rx', cto', pe', fe', bi', h, hl', hcto', hdone, hm⟩ := rxDrain_changes n k
        (memWrite m (t.buf + t.done) (u.regRead n .data).1) { t with done := t.done + 1 } (u.regRead n .data).2
      refine ⟨m', done, rx', cto', pe', fe', bi', ?_, ?_, ?_, ?_, fun h0 => hm (memWrite_wf _ _ h0)⟩
      · simp only [h]; rw [hr]
      · rw [hr] at hl'; exact hl'.trans hl
      · intro h0
        rw [hr] at hcto'
        have := hcto' h0
        simp only at this
        have h1 := hcto this.1
        exact ⟨h1.1, this.2.trans h1.2⟩
      · intro _
        have h0 : t.done < t.len := by simp at hc; exact hc.1.2
        refine hdone ?_
        simp only [BitVec.le_def, BitVec.lt_def] at *
        have h1 : (t.done + 1).toNat ≤ t.done.toNat + 1 := by
          rw [BitVec.toNat_add]; exact Nat.mod_le _ _
        omega
    · rw [if_neg hc]
      exact ⟨m, t.done, u.rxFifo, u.cto, u.latPe, u.latFe, u.latBi, by simp⟩

/-- The drain loop stops at an empty FIFO, a full buffer or a latched error. -/
theorem rxDrain_stop (n k : Nat) (m : Memory) (t : Transfer) (u : Uart)
    (h : k = 0 ∨ u.rxFifo = [] ∨ t.done = t.len ∨ u.lineErr = true) : rxDrain n k m t u = (m, t, u) := by
  cases k with
  | zero => rfl
  | succ k =>
    unfold rxDrain
    rw [if_neg]
    rcases h with h | h | h | h
    · cases h
    · simp [Uart.dr, Uart.rxCount, h]
    · simp [h]
    · simp [h]

/-- The drain loop in closed form: the head, then characters with no error flag, up to a stop (44_irq.md R204, R205). -/
theorem rxDrain_eq (n : Nat) : ∀ (es : List RxEntry) (e : RxEntry) (rest : List RxEntry) (k : Nat) (m : Memory) (t : Transfer)
    (u : Uart), u.dlab = false → u.lineErr = false → u.rxFifo = e :: (es ++ rest) → (∀ x ∈ es, x.flagged = false) →
    t.done.toNat + (es.length + 1) ≤ t.len.toNat → es.length + 1 ≤ k →
    (es.length + 1 = k ∨ t.done.toNat + (es.length + 1) = t.len.toNat ∨ rest = [] ∨
      ∃ x xs, rest = x :: xs ∧ x.flagged = true) →
    rxDrain n k m t u = (storeBytes m (t.buf + t.done) ((e :: es).map RxEntry.data),
      { t with done := t.done + BitVec.ofNat 32 (es.length + 1) },
      { u with
        rxFifo := rest
        cto := false
        latPe := headFlag RxEntry.pe rest
        latFe := headFlag RxEntry.fe rest
        latBi := headFlag RxEntry.bi rest }) := by
  intro es
  induction es with
  | nil =>
    intro e rest k m t u hd hl hr _ hle hk hstop
    obtain ⟨k, rfl⟩ : ∃ j, k = j + 1 := ⟨k - 1, by simp at hk; omega⟩
    have hl' := hl
    simp only [Uart.lineErr, Bool.or_eq_false_iff] at hl'
    obtain ⟨⟨⟨ho, hp⟩, hf⟩, hb⟩ := hl'
    have hlt : t.done < t.len := by simp [BitVec.lt_def] at hle ⊢; omega
    have hdr : u.dr = true := by simp [Uart.dr, Uart.rxCount, hr]
    have h1 : (t.done + 1).toNat = t.done.toNat + 1 := by
      rw [BitVec.toNat_add]; exact Nat.mod_eq_of_lt (by simp at hle; have := t.len.isLt; simp; omega)
    simp only [List.nil_append] at hr
    unfold rxDrain
    rw [if_pos (by simp [hdr, hlt, hl]), regRead_data_closed n hd hr]
    simp only [hp, hf, hb, Bool.false_or]
    rw [rxDrain_stop]
    · simp [storeBytes]
    · rcases hstop with h | h | h | ⟨x, xs, rfl, h⟩
      · left; simp at h; omega
      · right; right; left; exact BitVec.eq_of_toNat_eq (by rw [h1]; simpa using h)
      · right; left; exact h
      · right; right; right
        simp only [RxEntry.flagged] at h
        simp [Uart.lineErr, headFlag, ho, h]
  | cons e' es ih =>
    intro e rest k m t u hd hl hr hes hle hk hstop
    obtain ⟨k, rfl⟩ : ∃ j, k = j + 1 := ⟨k - 1, by simp at hk; omega⟩
    have hl' := hl
    simp only [Uart.lineErr, Bool.or_eq_false_iff] at hl'
    obtain ⟨⟨⟨ho, hp⟩, hf⟩, hb⟩ := hl'
    simp only [List.length_cons] at hle hk hstop
    have hlt : t.done < t.len := by simp [BitVec.lt_def]; omega
    have hdr : u.dr = true := by simp [Uart.dr, Uart.rxCount, hr]
    have h1 : (t.done + 1).toNat = t.done.toNat + 1 := by
      rw [BitVec.toNat_add]; exact Nat.mod_eq_of_lt (by have := t.len.isLt; simp; omega)
    have he' := hes e' (by simp)
    simp only [RxEntry.flagged, Bool.or_eq_false_iff] at he'
    rw [List.cons_append] at hr
    unfold rxDrain
    rw [if_pos (by simp [hdr, hlt, hl]), regRead_data_closed n hd hr]
    simp only [hp, hf, hb, headFlag, he', Bool.false_or]
    rw [ih e' rest k _ { t with done := t.done + 1 }
      { u with rxFifo := e' :: (es ++ rest), cto := false, latPe := false, latFe := false, latBi := false }
      hd (by simp [Uart.lineErr, ho]) rfl (fun x hx => hes x (by simp [hx])) (by simp only [h1]; omega) (by omega)
      (by simp only [h1]; rcases hstop with h | h | h
          · left; omega
          · right; left; omega
          · right; right; exact h)]
    have a : t.buf + (t.done + 1) = t.buf + t.done + 1 := (BitVec.add_assoc _ _ _).symm
    have b := done_step t.done (es.length + 1)
    simp only [storeBytes, a, List.map_cons, List.length_cons, ← b]
    rfl

/-- An enabled handler event performs the service of its identity, one lemma an identity (44_irq.md R200). -/
theorem execIrq_lineStatus {n : Inst} {s : State} {u : Uart} (hu : s.uart? n = some u) (he : u.irqEnabled = true)
    (hi : u.iid = 0x6) : execIrq n s = serviceLineStatus n u s := by
  rw [execIrq, forEvent_some _ hu he, hi]; rfl

theorem execIrq_rx {n : Inst} {s : State} {u : Uart} (hu : s.uart? n = some u) (he : u.irqEnabled = true)
    (hi : u.iid = 0x4 ∨ u.iid = 0xC) : execIrq n s = serviceRx n u s := by
  rw [execIrq, forEvent_some _ hu he]
  rcases hi with hi | hi <;> rw [hi] <;> rfl

theorem execIrq_tx {n : Inst} {s : State} {u : Uart} (hu : s.uart? n = some u) (he : u.irqEnabled = true)
    (hi : u.iid = 0x2) : execIrq n s = serviceTx n u s := by
  rw [execIrq, forEvent_some _ hu he, hi]; rfl

/-! ### Ending a transfer -/

/-- Finish on an Active slot: the slot is Idle, then one record is added (46_callback.md R235, R236). -/
theorem finish_active {c : Context} {n : Inst} {d : Dir} {s : State} {u : Uart} {t : Transfer} (err : Word32) (st : StatusFlags) (k : Word32)
    (h : s.uart? n = some u) (ht : u.slot d = .active t) :
    finish c n d err st k s = dispatch c n d t.cb t.ctx err st k (s.setUart n (u.setSlot d .idle)) := by
  simp [finish, h, ht]

/-- Finish on a slot that is not Active does nothing (46_callback.md R235). -/
theorem finish_idle {c : Context} {n : Inst} {d : Dir} {s : State} (err : Word32) (st : StatusFlags) (k : Word32)
    (h : s.slotActive n d = false) : finish c n d err st k s = s := by
  unfold finish
  unfold State.slotActive at h
  split
  · rfl
  · next u e =>
    rw [e] at h
    split
    · rfl
    · next t ht =>
      replace h : (u.slot d).isActive = false := h
      rw [ht] at h; cases h

/-- Finish adds no record and starts no callback, or adds one record of its instance and direction and starts a callback in its context
(46_callback.md R235, R236, R240). -/
theorem finish_records (c : Context) (n : Inst) (d : Dir) (err : Word32) (st : StatusFlags) (k : Word32) (s : State) :
    ((finish c n d err st k s).cbLog = s.cbLog ∧ (finish c n d err st k s).callbacks = s.callbacks) ∨
    ∃ r : CbRecord, r.inst = n ∧ r.dir = d ∧ (finish c n d err st k s).cbLog = s.cbLog ++ [r] ∧
      (finish c n d err st k s).callbacks = c :: s.callbacks := by
  unfold finish
  split
  · exact .inl ⟨rfl, rfl⟩
  · split
    · exact .inl ⟨rfl, rfl⟩
    · exact .inr ⟨_, rfl, rfl, rfl, rfl⟩

/-- A DMA disarm is a trace entry at most: no callback record, no callback (45_dma.md R223). -/
theorem emitDisarm_records (n : Inst) (d : Dir) (b : DmaBinding) (s : State) :
    (emitDisarm n d b s).cbLog = s.cbLog ∧ (emitDisarm n d b s).callbacks = s.callbacks := by
  cases b <;> exact ⟨rfl, rfl⟩

/-! ### Contexts (60_exceptions.md R265) -/

/-- An asynchronous context is entered iff a callback runs in it; a foreground context always is. -/
theorem State.entered_iff (s : State) (c : Context) : s.entered c = true ↔ c.isForeground = true ∨ c ∈ s.callbacks := by
  cases c <;> simp [State.entered, Context.isForeground]

end Sys2Proof.Machine
end

