-- ==== Sys2Proof/Laws/Inversion.lean ====
section
/-! SUPPORT. For each meaning, once, every next state it can answer and what was true then; later proofs cite these and unfold no
meaning. -/

namespace Sys2Proof.Machine

/-! ### Configuration and status -/

theorem execSetConfig_next {n : Inst} {lc : BitVec 8} {div : BitVec 24} {divHigh : BitVec 8} {fc ie valid : Bool} {s s' : State}
    (h : execSetConfig n lc div divHigh fc ie valid s = .next s') :
    s' = s.respond s.params.err.inval 0 0 ∨ ∃ u, s.uart? n = some u ∧ lcValid lc = true ∧
      s' = (s.setUart n { configSequence s.freeCount lc div fc ie u with
        cfg := { lineControl := lc, baudDivisor := div, hwFc := fc, intEn := ie } }).respond 0 0 0 := by
  rcases forCommand_next h with ⟨-, rfl⟩ | ⟨u, hu, h⟩
  · exact .inl rfl
  · by_cases hl : lcValid lc = true
    · repeat' split at h
      all_goals simp only [Host.Outcome.next.injEq] at h; subst h
      · exact .inl rfl
      · exact .inl rfl
      · exact .inl rfl
      · exact .inr ⟨u, hu, hl, rfl⟩
    · simp only [hl] at h
      repeat' split at h
      all_goals simp_all [State.raise, ErrorCodes.code]

theorem execSetThreshold_next {n : Inst} {preset : Word32} {s s' : State} (h : execSetThreshold n preset s = .next s') :
    s' = s.respond s.params.err.inval 0 0 ∨ ∃ u p, s.uart? n = some u ∧ presetOf preset = some p ∧
      s' = (s.setUart n (({ u with thrPreset := p } : Uart).writeFcr (fcrValue p))).respond 0 0 0 := by
  rcases forCommand_next h with ⟨-, rfl⟩ | ⟨u, hu, h⟩
  · exact .inl rfl
  · split at h <;> simp only [Host.Outcome.next.injEq] at h <;> subst h
    · exact .inl rfl
    · next p hp => exact .inr ⟨u, p, hu, hp, rfl⟩

theorem execGetStatus_next {n : Inst} {s s' : State} (h : execGetStatus n s = .next s') :
    s' = s.respond s.params.err.inval 0 0 ∨ ∃ u v, s.uart? n = some u ∧
      s' = (s.setUart n { u with latOe := false, latPe := false, latFe := false, latBi := false }).respond 0 v 0 := by
  rcases forCommand_next h with ⟨-, rfl⟩ | ⟨u, hu, h⟩
  · exact .inl rfl
  · simp only [Host.Outcome.next.injEq] at h
    exact .inr ⟨u, _, hu, h.symm⟩

/-! ### Synchronous engine -/

theorem execWrite_next {n : Inst} {b : Byte} {s s' : State} (h : execWrite n b s = .next s') :
    s.active ∉ s.callbacks ∧ (s' = s.respond s.params.err.inval 0 0 ∨ s' = s.hold (.write n b) 0 ∨
      ∃ u, s.uart? n = some u ∧ s' = (s.setUart n (u.regWrite .data b)).respond 0 0 0) := by
  obtain ⟨hc, h⟩ := unlessCallback_next h
  refine ⟨hc, ?_⟩
  rcases forCommand_next h with ⟨-, rfl⟩ | ⟨u, hu, h⟩
  · exact .inl rfl
  · split at h <;> simp only [Host.Outcome.next.injEq] at h <;> subst h
    · exact .inr (.inr ⟨u, hu, rfl⟩)
    · exact .inr (.inl rfl)

theorem execRead_next {n : Inst} {s s' : State} (h : execRead n s = .next s') :
    s.active ∉ s.callbacks ∧ (s' = s.respond s.params.err.inval 0 0 ∨ s' = s.hold (.read n) 0 ∨
      ∃ u v w, s.uart? n = some u ∧
        s' = (s.setUart n (({ u with latOe := false, latPe := false, latFe := false, latBi := false } : Uart).regRead
          s.freeCount .data).2).respond 0 v w) := by
  obtain ⟨hc, h⟩ := unlessCallback_next h
  refine ⟨hc, ?_⟩
  rcases forCommand_next h with ⟨-, rfl⟩ | ⟨u, hu, h⟩
  · exact .inl rfl
  · split at h <;> simp only [Host.Outcome.next.injEq] at h <;> subst h
    · exact .inr (.inr ⟨u, _, _, hu, rfl⟩)
    · exact .inr (.inl rfl)

theorem execWriteNonBlock_next {n : Inst} {b : Byte} {s s' : State} (h : execWriteNonBlock n b s = .next s') :
    s' = s.respond s.params.err.inval 0 0 ∨
    (∃ u, s.uart? n = some u ∧ u.thre = false ∧ s' = s.respond s.params.err.again 0 0) ∨
      ∃ u, s.uart? n = some u ∧ s' = (s.setUart n (u.regWrite .data b)).respond 0 0 0 := by
  rcases forCommand_next h with ⟨-, rfl⟩ | ⟨u, hu, h⟩
  · exact .inl rfl
  · simp only [Uart.regRead, fsr_bit1] at h
    split at h <;> simp only [Host.Outcome.next.injEq] at h <;> subst h
    · next ht => exact .inr (.inl ⟨u, hu, by simpa using ht, rfl⟩)
    · exact .inr (.inr ⟨u, hu, rfl⟩)

theorem execReadNonBlock_next {n : Inst} {s s' : State} (h : execReadNonBlock n s = .next s') :
    s' = s.respond s.params.err.inval 0 0 ∨
    (∃ u, s.uart? n = some u ∧ u.dr = false ∧ s' = s.respond s.params.err.again 0 0) ∨
      ∃ u v, s.uart? n = some u ∧ s' = (s.setUart n (u.regRead s.freeCount .data).2).respond 0 v 0 := by
  rcases forCommand_next h with ⟨-, rfl⟩ | ⟨u, hu, h⟩
  · exact .inl rfl
  · rw [show u.regRead s.freeCount .fifoStatus = (u.fsr, u) from rfl] at h
    simp only [fsr_bit3] at h
    split at h <;> simp only [Host.Outcome.next.injEq] at h <;> subst h
    · next ht => exact .inr (.inl ⟨u, hu, by simpa using ht, rfl⟩)
    · exact .inr (.inr ⟨u, _, hu, rfl⟩)

theorem execWriteBuffer_next {n : Inst} {buf len : Word32} {s s' : State} (h : execWriteBuffer n buf len s = .next s') :
    s.active ∉ s.callbacks ∧ (s' = s.respond s.params.err.inval 0 0 ∨ s' = s.respond 0 0 0 ∨
      (∃ k, s' = s.hold (.writeBuffer n buf len) k) ∨
      ∃ u b, s.uart? n = some u ∧
        (s' = (s.setUart n (u.regWrite .data b)).respond 0 0 0 ∨
          ∃ k, s' = (s.setUart n (u.regWrite .data b)).hold (.writeBuffer n buf len) k)) := by
  obtain ⟨hc, h⟩ := unlessCallback_next h
  refine ⟨hc, ?_⟩
  rcases forCommand_next h with ⟨-, rfl⟩ | ⟨u, hu, h⟩
  · exact .inl rfl
  · dsimp only at h
    split at h
    · simp only [Host.Outcome.next.injEq] at h; subst h; exact .inl rfl
    · split at h
      · simp only [Host.Outcome.next.injEq] at h; subst h; exact .inr (.inl rfl)
      · split at h
        · simp only [Host.Outcome.next.injEq] at h; subst h; exact .inr (.inr (.inl ⟨_, rfl⟩))
        · split at h
          · cases h
          · next b _ =>
            split at h <;> simp only [Host.Outcome.next.injEq] at h <;> subst h
            · exact .inr (.inr (.inr ⟨u, b, hu, .inl rfl⟩))
            · exact .inr (.inr (.inr ⟨u, b, hu, .inr ⟨_, rfl⟩⟩))

/-! ### Interrupt-driven engine -/

theorem startIrq_next {d : Dir} {m : Byte} {n : Inst} {buf len cb ctx : Word32} {s s' : State}
    (h : startIrq d m n buf len cb ctx s = .next s') :
    s' = s.respond s.params.err.inval 0 0 ∨
    (∃ u, s.uart? n = some u ∧ u.slot d ≠ .idle ∧ s' = s.respond s.params.err.busy 0 0) ∨
      ∃ u, s.uart? n = some u ∧ u.slot d = .idle ∧ startOperandsBad buf len cb = false ∧
        s' = (s.setUart n ((u.setSlot d (.active { engine := .irq, buf := buf, len := len, done := 0, cb := cb, ctx := ctx })).ierSet
          s.freeCount m)).respond 0 0 0 := by
  rcases forCommand_next h with ⟨-, rfl⟩ | ⟨u, hu, h⟩
  · exact .inl rfl
  · split at h
    · simp only [Host.Outcome.next.injEq] at h; subst h; exact .inl rfl
    · next hb =>
      split at h <;> simp only [Host.Outcome.next.injEq] at h <;> subst h
      · next ha => exact .inr (.inl ⟨u, hu, by simpa [Slot.isActive_eq] using ha, rfl⟩)
      · next ha => exact .inr (.inr ⟨u, hu, by simpa [Slot.isActive_eq] using ha, by simpa using hb, rfl⟩)

theorem terminateIrq_next {d : Dir} {m : Byte} {n : Inst} {s s' : State} (h : terminateIrq d m n s = .next s') :
    s' = s.respond s.params.err.inval 0 0 ∨ s' = s.respond 0 0 0 ∨
      ∃ u t, s.uart? n = some u ∧ (u.slot d).ownedBy .irq = some t ∧
        s' = (finish s.active n d s.params.err.canceled 0 t.done (s.setUart n (u.ierClear s.freeCount m))).respond 0 0 0 := by
  rcases forCommand_next h with ⟨-, rfl⟩ | ⟨u, hu, h⟩
  · exact .inl rfl
  · split at h <;> simp only [Host.Outcome.next.injEq] at h <;> subst h
    · exact .inr (.inl rfl)
    · next t ht => exact .inr (.inr ⟨u, t, hu, ht, rfl⟩)

theorem serviceTx_next {n : Inst} {u : Uart} {s s' : State} (h : serviceTx n u s = .next s') :
    (u.txSlot.ownedBy .irq = none ∧ s' = s.setUart n (u.ierClear s.freeCount 0x02)) ∨
    ∃ t t' u', u.txSlot.ownedBy .irq = some t ∧
      txRefill s.mem (min txChunk (t.len.toNat - t.done.toNat)) t u = .ok (t', u') ∧
      ((t'.done = t'.len ∧
        s' = finish .interrupt n .tx 0 0 t'.len (s.setUart n (({ u' with txSlot := .active t' } : Uart).ierClear s.freeCount 0x02))) ∨
       (t'.done ≠ t'.len ∧ s' = s.setUart n { u' with txSlot := .active t' })) := by
  unfold serviceTx at h
  split at h
  · next e => exact .inl ⟨e, by simpa using h.symm⟩
  · next t e =>
    split at h
    · cases h
    · next t' u' hr =>
      dsimp only at h
      split at h <;> simp only [Host.Outcome.next.injEq] at h
      · next hd => exact .inr ⟨t, t', u', e, hr, .inl ⟨hd, h.symm⟩⟩
      · next hd => exact .inr ⟨t, t', u', e, hr, .inr ⟨hd, h.symm⟩⟩

theorem serviceRx_next {n : Inst} {u : Uart} {s s' : State} (h : serviceRx n u s = .next s') :
    (u.rxSlot.ownedBy .irq = none ∧ s' = s.setUart n (u.ierClear s.freeCount 0x05)) ∨
    ∃ t m t' u', u.rxSlot.ownedBy .irq = some t ∧ rxDrain s.freeCount rxDrainMax s.mem t u = (m, t', u') ∧
      ((t'.done = t'.len ∧
        s' = finish .interrupt n .rx 0 0 t'.len
          (({ s with mem := m } : State).setUart n (({ u' with rxSlot := .active t' } : Uart).ierClear s.freeCount 0x05))) ∨
       (t'.done ≠ t'.len ∧ s' = ({ s with mem := m } : State).setUart n { u' with rxSlot := .active t' })) := by
  unfold serviceRx at h
  split at h
  · next e => exact .inl ⟨e, by simpa using h.symm⟩
  · next t e =>
    split at h
    next m t' u' hr =>
      dsimp only at h
      split at h <;> simp only [Host.Outcome.next.injEq] at h
      · next hd => exact .inr ⟨t, m, t', u', e, hr, .inl ⟨hd, h.symm⟩⟩
      · next hd => exact .inr ⟨t, m, t', u', e, hr, .inr ⟨hd, h.symm⟩⟩

theorem serviceLineStatus_next {n : Inst} {u : Uart} {s s' : State} (h : serviceLineStatus n u s = .next s') :
    let v : Uart := { u with latOe := false, latPe := false, latFe := false, latBi := false }
    (u.rxSlot.ownedBy .irq = none ∧ s' = s.setUart n (v.ierClear s.freeCount 0x04)) ∨
    ∃ t, u.rxSlot.ownedBy .irq = some t ∧
      s' = finish .interrupt n .rx s.params.err.io (errOf u.lsr) t.done (s.setUart n (v.ierClear s.freeCount 0x05)) := by
  unfold serviceLineStatus at h
  dsimp only at h
  split at h <;> simp only [Host.Outcome.next.injEq] at h
  · next e => exact .inl ⟨e, h.symm⟩
  · next t e => exact .inr ⟨t, e, h.symm⟩

theorem execIrq_next {n : Inst} {s s' : State} (h : execIrq n s = .next s') :
    s' = s ∨ ∃ u, s.uart? n = some u ∧ u.irqEnabled = true ∧
      ((u.iid = 0x6 ∧ serviceLineStatus n u s = .next s') ∨ ((u.iid = 0x4 ∨ u.iid = 0xC) ∧ serviceRx n u s = .next s') ∨
       (u.iid = 0x2 ∧ serviceTx n u s = .next s')) := by
  rcases forEvent_next h with rfl | ⟨u, hu, hp, h⟩
  · exact .inl rfl
  · split at h
    · next e => exact .inr ⟨u, hu, hp, .inl ⟨e, h⟩⟩
    · next e => exact .inr ⟨u, hu, hp, .inr (.inl ⟨.inl e, h⟩)⟩
    · next e => exact .inr ⟨u, hu, hp, .inr (.inl ⟨.inr e, h⟩)⟩
    · next e => exact .inr ⟨u, hu, hp, .inr (.inr ⟨e, h⟩)⟩
    · exact .inl (by simpa using h.symm)

/-! ### DMA engine -/

theorem execDmaChannelConfig_next {n : Inst} {ctrl chan dir : Word32} {s s' : State}
    (h : execDmaChannelConfig n ctrl chan dir s = .next s') :
    s' = s.respond s.params.err.inval 0 0 ∨
    ∃ u d, s.uart? n = some u ∧ commandDir dir = some d ∧
      ((s.params.dmaReady (ctrl.setWidth 8) (chan.setWidth 8) = false ∧ s' = s.respond s.params.err.state 0 0) ∨
       (u.slot d ≠ .idle ∧ s' = s.respond s.params.err.busy 0 0) ∨
       (u.slot d = .idle ∧ s' = ((s.setUart n (u.setBind d (.configured (ctrl.setWidth 8) (chan.setWidth 8)))).emitDma
          (.cfg n d (ctrl.setWidth 8) (chan.setWidth 8))).respond 0 0 0)) := by
  rcases forCommand_next h with ⟨-, rfl⟩ | ⟨u, hu, h⟩
  · exact .inl rfl
  · split at h
    · simp only [Host.Outcome.next.injEq] at h; subst h; exact .inl rfl
    · next d hd =>
      dsimp only at h
      split at h
      · simp only [Host.Outcome.next.injEq] at h; subst h; exact .inl rfl
      · split at h
        · next hr =>
          simp only [Host.Outcome.next.injEq] at h; subst h
          exact .inr ⟨u, d, hu, hd, .inl ⟨by simpa using hr, rfl⟩⟩
        · split at h <;> simp only [Host.Outcome.next.injEq] at h <;> subst h
          · next ha => exact .inr ⟨u, d, hu, hd, .inr (.inl ⟨by simpa [Slot.isActive_eq] using ha, rfl⟩)⟩
          · next ha => exact .inr ⟨u, d, hu, hd, .inr (.inr ⟨by simpa [Slot.isActive_eq] using ha, rfl⟩)⟩

theorem startDma_next {d : Dir} {n : Inst} {buf len cb ctx : Word32} {s s' : State} (h : startDma d n buf len cb ctx s = .next s') :
    s' = s.respond s.params.err.inval 0 0 ∨
    ∃ u, s.uart? n = some u ∧
      ((u.bind d = .unconfigured ∧ s' = s.respond s.params.err.state 0 0) ∨
       (u.slot d ≠ .idle ∧ s' = s.respond s.params.err.busy 0 0) ∨
       ∃ c k, u.bind d = .configured c k ∧ u.slot d = .idle ∧ startOperandsBad buf len cb = false ∧ len.toNat ≤ dmaMaxLen ∧
        s' = ((s.setUart n (u.setSlot d (.active { engine := .dma, buf := buf, len := len, done := 0, cb := cb, ctx := ctx }))).emitDma
          (.arm n d c k buf len)).respond 0 0 0) := by
  rcases forCommand_next h with ⟨-, rfl⟩ | ⟨u, hu, h⟩
  · exact .inl rfl
  · split at h
    · simp only [Host.Outcome.next.injEq] at h; subst h; exact .inl rfl
    · next hb =>
      split at h
      · simp only [Host.Outcome.next.injEq] at h; subst h; exact .inl rfl
      · next hlen =>
        split at h
        · next hbd =>
          simp only [Host.Outcome.next.injEq] at h; subst h
          exact .inr ⟨u, hu, .inl ⟨hbd, rfl⟩⟩
        · next c k hbd =>
          split at h <;> simp only [Host.Outcome.next.injEq] at h <;> subst h
          · next ha => exact .inr ⟨u, hu, .inr (.inl ⟨by simpa [Slot.isActive_eq] using ha, rfl⟩)⟩
          · next ha =>
            exact .inr ⟨u, hu, .inr (.inr ⟨c, k, hbd, by simpa [Slot.isActive_eq] using ha, by simpa using hb, by omega, rfl⟩)⟩

theorem terminateDma_next {d : Dir} {n : Inst} {s s' : State} (h : terminateDma d n s = .next s') :
    s' = s.respond s.params.err.inval 0 0 ∨ s' = s.respond 0 0 0 ∨
      ∃ u t, s.uart? n = some u ∧ (u.slot d).ownedBy .dma = some t ∧
        s' = (finish s.active n d s.params.err.canceled 0 t.done (emitDisarm n d (u.bind d) s)).respond 0 0 0 := by
  rcases forCommand_next h with ⟨-, rfl⟩ | ⟨u, hu, h⟩
  · exact .inl rfl
  · split at h <;> simp only [Host.Outcome.next.injEq] at h <;> subst h
    · exact .inr (.inl rfl)
    · next t ht => exact .inr (.inr ⟨u, t, hu, ht, rfl⟩)

theorem beatTx_next {n : Inst} {s s' : State} (h : beatTx n s = .next s') :
    s' = s ∨ ∃ u t b, s.uart? n = some u ∧ u.txSlot.ownedBy .dma = some t ∧ t.done < t.len ∧ u.thre = true ∧
      s' = s.setUart n { u.regWrite .data b with txSlot := .active { t with done := t.done + 1 } } := by
  rcases forEvent_next h with rfl | ⟨u, hu, -, h⟩
  · exact .inl rfl
  · split at h
    · exact .inl (by simpa using h.symm)
    · next t ht =>
      split at h
      · next hc =>
        split at h
        · cases h
        · next b _ => exact .inr ⟨u, t, b, hu, ht, hc.1, hc.2, by simpa using h.symm⟩
      · exact .inl (by simpa using h.symm)

theorem beatRx_next {n : Inst} {s s' : State} (h : beatRx n s = .next s') :
    s' = s ∨ ∃ u t, s.uart? n = some u ∧ u.rxSlot.ownedBy .dma = some t ∧ t.done < t.len ∧ u.dr = true ∧
      s' = ({ s with mem := memWrite s.mem (t.buf + t.done) (u.regRead s.freeCount .data).1 } : State).setUart n
        { (u.regRead s.freeCount .data).2 with rxSlot := .active { t with done := t.done + 1 } } := by
  rcases forEvent_next h with rfl | ⟨u, hu, -, h⟩
  · exact .inl rfl
  · split at h
    · exact .inl (by simpa using h.symm)
    · next t ht =>
      split at h
      · next hc => exact .inr ⟨u, t, hu, ht, hc.1, hc.2, by simpa using h.symm⟩
      · exact .inl (by simpa using h.symm)

theorem execDmaBeat_next {n : Inst} {dir : BitVec 8} {s s' : State} (h : execDmaBeat n dir s = .next s') :
    s' = s ∨ (dir = 0 ∧ beatTx n s = .next s') ∨ (dir = 1 ∧ beatRx n s = .next s') := by
  have key : ∀ b : BitVec 8, (eventDir b = some .tx → b = 0) ∧ (eventDir b = some .rx → b = 1) := by decide
  unfold execDmaBeat at h
  split at h
  · exact .inl (by simpa using h.symm)
  · next e => exact .inr (.inl ⟨(key dir).1 e, h⟩)
  · next e => exact .inr (.inr ⟨(key dir).2 e, h⟩)

theorem execDmaDone_next {n : Inst} {dir : BitVec 8} {ok : Bool} {s s' : State} (h : execDmaDone n dir ok s = .next s') :
    s' = s ∨ ∃ d u t, s.uart? n = some u ∧ (u.slot d).ownedBy .dma = some t ∧
      ((t.done = t.len ∧ s' = finish .dmaCompletion n d 0 0 t.len s) ∨ s' = finish .dmaCompletion n d s.params.err.io 0 t.done s) := by
  unfold execDmaDone at h
  split at h
  · exact .inl (by simpa using h.symm)
  · next d _ =>
    rcases forEvent_next h with rfl | ⟨u, hu, -, h⟩
    · exact .inl rfl
    · split at h
      · exact .inl (by simpa using h.symm)
      · next t ht =>
        split at h
        · split at h <;> simp only [Host.Outcome.next.injEq] at h
          · next hd => exact .inr ⟨d, u, t, hu, ht, .inl ⟨hd, h.symm⟩⟩
          · exact .inl h.symm
        · simp only [Host.Outcome.next.injEq] at h
          exact .inr ⟨d, u, t, hu, ht, .inr h.symm⟩

/-! ### Line agent -/

theorem execLineRx_next {n : Inst} {data : Byte} {pe fe bi : Bool} {s s' : State} (h : execLineRx n data pe fe bi s = .next s') :
    s' = s ∨ ∃ u, s.uart? n = some u ∧ s' = s.setUart n (u.receive data pe fe bi) := by
  rcases forEvent_next h with rfl | ⟨u, hu, -, h⟩
  · exact .inl rfl
  · exact .inr ⟨u, hu, by simpa using h.symm⟩

theorem execLineTxLoad_next {n : Inst} {s s' : State} (h : execLineTxLoad n s = .next s') :
    s' = s ∨ ∃ u b rest, s.uart? n = some u ∧ u.loadEnabled = true ∧ u.txFifo = b :: rest ∧
      s' = s.setUart n { u with txFifo := rest, shifter := .busy (b &&& u.wordMask) } := by
  rcases forEvent_next h with rfl | ⟨u, hu, hp, h⟩
  · exact .inl rfl
  · split at h
    · exact .inl (by simpa using h.symm)
    · next b rest e => exact .inr ⟨u, b, rest, hu, hp, e, by simpa using h.symm⟩

theorem execLineTxDone_next {n : Inst} {s s' : State} (h : execLineTxDone n s = .next s') :
    s' = s ∨ ∃ u b, s.uart? n = some u ∧ u.shifter = .busy b ∧
      s' = s.setUart n { u with wireLog := u.wireLog ++ [b], shifter := .idle } := by
  rcases forEvent_next h with rfl | ⟨u, hu, -, h⟩
  · exact .inl rfl
  · split at h
    · exact .inl (by simpa using h.symm)
    · next b e => exact .inr ⟨u, b, hu, e, by simpa using h.symm⟩

theorem execLineCto_next {n : Inst} {s s' : State} (h : execLineCto n s = .next s') :
    s' = s ∨ ∃ u, s.uart? n = some u ∧ u.ctoEnabled = true ∧ s' = s.setUart n { u with cto := true } := by
  rcases forEvent_next h with rfl | ⟨u, hu, hp, h⟩
  · exact .inl rfl
  · exact .inr ⟨u, hu, hp, by simpa using h.symm⟩

theorem execLineCts_next {n : Inst} {level : Bool} {s s' : State} (h : execLineCts n level s = .next s') :
    s' = s ∨ ∃ u, s.uart? n = some u ∧ s' = s.setUart n { u with ctsIn := level } := by
  rcases forEvent_next h with rfl | ⟨u, hu, -, h⟩
  · exact .inl rfl
  · exact .inr ⟨u, hu, by simpa using h.symm⟩

end Sys2Proof.Machine
end

