-- ==== Sys2Proof/Laws/PerInstr.lean ====
section
/-! SUPPORT. The header of every encoding, one lemma a constructor: an instruction's word is of the format of its table and carries
its code in bits 7:0 and its instance in bits 15:8 (spec/30_encoding.md R92, R94, R95, R96). -/

namespace Sys2Proof.Laws.EncodingHeader

open Sys2Proof

/-- Commands are command words, events event words; code and instance are the first two fields. -/
def Statement (i : Instr) : Prop :=
  match encode i with
  | .cmd w => i.isCommand = true ∧ cmdOp w = i.code ∧ cmdInst w = i.inst
  | .evt w => i.isCommand = false ∧ evtCode w = i.code ∧ evtInst w = i.inst

theorem setConfig (n : Inst) (lc : BitVec 8) (div : BitVec 24) (divHigh : BitVec 8) (fc ie valid : Bool) : Statement (.setConfig n lc div divHigh fc ie valid) :=
  ⟨rfl, cmdOp_fields _ _ _ _ _ _, cmdInst_fields _ _ _ _ _ _⟩

theorem getStatus (n : Inst) : Statement (.getStatus n) :=
  ⟨rfl, cmdOp_fields _ _ _ _ _ _, cmdInst_fields _ _ _ _ _ _⟩

theorem write (n : Inst) (b : Byte) : Statement (.write n b) :=
  ⟨rfl, cmdOp_fields _ _ _ _ _ _, cmdInst_fields _ _ _ _ _ _⟩

theorem read (n : Inst) : Statement (.read n) :=
  ⟨rfl, cmdOp_fields _ _ _ _ _ _, cmdInst_fields _ _ _ _ _ _⟩

theorem writeNonBlock (n : Inst) (b : Byte) : Statement (.writeNonBlock n b) :=
  ⟨rfl, cmdOp_fields _ _ _ _ _ _, cmdInst_fields _ _ _ _ _ _⟩

theorem readNonBlock (n : Inst) : Statement (.readNonBlock n) :=
  ⟨rfl, cmdOp_fields _ _ _ _ _ _, cmdInst_fields _ _ _ _ _ _⟩

theorem writeBuffer (n : Inst) (buf len : Word32) : Statement (.writeBuffer n buf len) :=
  ⟨rfl, cmdOp_fields _ _ _ _ _ _, cmdInst_fields _ _ _ _ _ _⟩

theorem irqWrite (n : Inst) (buf len cb ctx : Word32) : Statement (.irqWrite n buf len cb ctx) :=
  ⟨rfl, cmdOp_fields _ _ _ _ _ _, cmdInst_fields _ _ _ _ _ _⟩

theorem irqRead (n : Inst) (buf len cb ctx : Word32) : Statement (.irqRead n buf len cb ctx) :=
  ⟨rfl, cmdOp_fields _ _ _ _ _ _, cmdInst_fields _ _ _ _ _ _⟩

theorem irqWriteTerminate (n : Inst) : Statement (.irqWriteTerminate n) :=
  ⟨rfl, cmdOp_fields _ _ _ _ _ _, cmdInst_fields _ _ _ _ _ _⟩

theorem irqReadTerminate (n : Inst) : Statement (.irqReadTerminate n) :=
  ⟨rfl, cmdOp_fields _ _ _ _ _ _, cmdInst_fields _ _ _ _ _ _⟩

theorem dmaChannelConfig (n : Inst) (ctrl chan dir : Word32) : Statement (.dmaChannelConfig n ctrl chan dir) :=
  ⟨rfl, cmdOp_fields _ _ _ _ _ _, cmdInst_fields _ _ _ _ _ _⟩

theorem dmaWrite (n : Inst) (buf len cb ctx : Word32) : Statement (.dmaWrite n buf len cb ctx) :=
  ⟨rfl, cmdOp_fields _ _ _ _ _ _, cmdInst_fields _ _ _ _ _ _⟩

theorem dmaRead (n : Inst) (buf len cb ctx : Word32) : Statement (.dmaRead n buf len cb ctx) :=
  ⟨rfl, cmdOp_fields _ _ _ _ _ _, cmdInst_fields _ _ _ _ _ _⟩

theorem dmaWriteTerminate (n : Inst) : Statement (.dmaWriteTerminate n) :=
  ⟨rfl, cmdOp_fields _ _ _ _ _ _, cmdInst_fields _ _ _ _ _ _⟩

theorem dmaReadTerminate (n : Inst) : Statement (.dmaReadTerminate n) :=
  ⟨rfl, cmdOp_fields _ _ _ _ _ _, cmdInst_fields _ _ _ _ _ _⟩

theorem setThreshold (n : Inst) (preset : Word32) : Statement (.setThreshold n preset) :=
  ⟨rfl, cmdOp_fields _ _ _ _ _ _, cmdInst_fields _ _ _ _ _ _⟩

theorem irq (n : Inst) : Statement (.irq n) :=
  ⟨rfl, evtCode_fields _ _ _ _, evtInst_fields _ _ _ _⟩

theorem dmaBeat (n : Inst) (dir : BitVec 8) : Statement (.dmaBeat n dir) :=
  ⟨rfl, evtCode_fields _ _ _ _, evtInst_fields _ _ _ _⟩

theorem dmaDone (n : Inst) (dir : BitVec 8) (ok : Bool) : Statement (.dmaDone n dir ok) :=
  ⟨rfl, evtCode_fields _ _ _ _, evtInst_fields _ _ _ _⟩

theorem lineRx (n : Inst) (data : Byte) (pe fe bi : Bool) : Statement (.lineRx n data pe fe bi) :=
  ⟨rfl, evtCode_fields _ _ _ _, evtInst_fields _ _ _ _⟩

theorem lineTxLoad (n : Inst) : Statement (.lineTxLoad n) :=
  ⟨rfl, evtCode_fields _ _ _ _, evtInst_fields _ _ _ _⟩

theorem lineTxDone (n : Inst) : Statement (.lineTxDone n) :=
  ⟨rfl, evtCode_fields _ _ _ _, evtInst_fields _ _ _ _⟩

theorem lineCto (n : Inst) : Statement (.lineCto n) :=
  ⟨rfl, evtCode_fields _ _ _ _, evtInst_fields _ _ _ _⟩

theorem lineCts (n : Inst) (level : Bool) : Statement (.lineCts n level) :=
  ⟨rfl, evtCode_fields _ _ _ _, evtInst_fields _ _ _ _⟩

end Sys2Proof.Laws.EncodingHeader
end

