-- ==== Sys2Proof/Tests/Slice0.lean ====
section
/-! SUPPORT. Named tests: the words of spec/95_test_vectors.md section 2.1, at most two one-step checks an instruction with the results
of sections 2.2 to 2.7 and 3, and for every statement with hypotheses a state that meets them. -/

namespace Sys2Proof.Tests

open Sys2Proof Sys2Proof.Machine

set_option maxRecDepth 4000

/-! ### Well-formedness -/

theorem test_wellFormed_dmaBeat_badDirection : (Instr.dmaBeat 0 2).WellFormed = false := by decide
theorem test_wellFormed_dmaDone_badDirection : (Instr.dmaDone 0 255 true).WellFormed = false := by decide
theorem test_wellFormed_dmaDone_rx : (Instr.dmaDone 0 1 false).WellFormed = true := by decide

/-! ### Words written out from the encoding tables (95_test_vectors.md section 2.1) -/

theorem test_word_setConfig :
    decodeTableWord 144 0x00000001000000020000D005000000030001 = some (.setConfig 0 0x03 0x00D005 0 false true true) := by decide
theorem test_word_setConfig_fc :
    decodeTableWord 144 0x0000000100000001001234560000001B0001 = some (.setConfig 0 0x1B 0x123456 0 true false true) := by decide
theorem test_word_setConfig_u1 :
    decodeTableWord 144 0x000000010000000300FFFFFF000000030101 = some (.setConfig 1 0x03 0xFFFFFF 0 true true true) := by decide
theorem test_word_setConfig_wideDivisor :
    decodeTableWord 144 0x000000010000000201000000000000030001 = some (.setConfig 0 0x03 0 1 false true true) := by decide
theorem test_word_getStatus : decodeTableWord 144 0x02 = some (.getStatus 0) := by decide
theorem test_word_getStatus_unused : decodeTableWord 144 0xFFFFFFFF0002 = some (.getStatus 0) := by decide
theorem test_word_write : decodeTableWord 144 0x000000410003 = some (.write 0 0x41) := by decide
theorem test_word_read : decodeTableWord 144 0x04 = some (.read 0) := by decide
theorem test_word_writeNonBlock : decodeTableWord 144 0x000000630005 = some (.writeNonBlock 0 0x63) := by decide
theorem test_word_readNonBlock : decodeTableWord 144 0x06 = some (.readNonBlock 0) := by decide
theorem test_word_writeBuffer : decodeTableWord 144 0x00000002000020000007 = some (.writeBuffer 0 0x2000 2) := by decide
theorem test_word_irqWrite :
    decodeTableWord 144 0x000000A50000000100000014000010000008 = some (.irqWrite 0 0x1000 20 1 0xA5) := by decide
theorem test_word_irqRead :
    decodeTableWord 144 0x000000000000000200000040000030000009 = some (.irqRead 0 0x3000 64 2 0) := by decide
theorem test_word_irqWriteTerminate : decodeTableWord 144 0x0A = some (.irqWriteTerminate 0) := by decide
theorem test_word_irqReadTerminate : decodeTableWord 144 0x0B = some (.irqReadTerminate 0) := by decide
theorem test_word_dmaChannelConfig :
    decodeTableWord 144 0x0000000000000000000000030000000000 = none ∧
    decodeTableWord 144 0x00000000000000000000000300000000000C = some (.dmaChannelConfig 0 0 3 0) := by decide
theorem test_word_dmaWrite :
    decodeTableWord 144 0x00000007000000030000100000008000000D = some (.dmaWrite 0 0x8000 4096 3 7) := by decide
theorem test_word_dmaRead :
    decodeTableWord 144 0x00000000000000040000000400009000010E = some (.dmaRead 1 0x9000 4 4 0) := by decide
theorem test_word_dmaWriteTerminate : decodeTableWord 144 0x0F = some (.dmaWriteTerminate 0) := by decide
theorem test_word_dmaReadTerminate : decodeTableWord 144 0x10 = some (.dmaReadTerminate 0) := by decide
theorem test_word_setThreshold : decodeTableWord 144 0x000000010011 = some (.setThreshold 0 1) := by decide
theorem test_word_irq : decodeTableWord 32 0x00000080 = some (.irq 0) := by decide
theorem test_word_dmaBeat : decodeTableWord 32 0x00000081 = some (.dmaBeat 0 0) := by decide
theorem test_word_dmaDone : decodeTableWord 32 0x01000082 = some (.dmaDone 0 0 true) := by decide
theorem test_word_lineRx : decodeTableWord 32 0x017F0088 = some (.lineRx 0 0x7F true false false) := by decide
theorem test_word_lineTxLoad : decodeTableWord 32 0x00000089 = some (.lineTxLoad 0) := by decide
theorem test_word_lineTxDone : decodeTableWord 32 0x0000008A = some (.lineTxDone 0) := by decide
theorem test_word_lineCto : decodeTableWord 32 0x0000008B = some (.lineCto 0) := by decide
theorem test_word_lineCts : decodeTableWord 32 0x0001008C = some (.lineCts 0 true) := by decide
/-- Codes outside the tables (30_encoding.md R101) and a DMA direction that names none (R96). -/
theorem test_word_illegal :
    decodeTableWord 144 0x00 = none ∧ decodeTableWord 144 0x12 = none ∧ decodeTableWord 144 0xFF = none ∧
    decodeTableWord 32 0x7F = none ∧ decodeTableWord 32 0x83 = none ∧ decodeTableWord 32 0x8D = none ∧
    decodeTableWord 32 0x00020081 = none := by decide

/-- The table of 30_encoding.md R106, a code of each column: 8N1, 5N1.5, 7O1, 6O2, 5E1, 8E2. -/
theorem test_lineDecode :
    lineDecode 0x03 = { dataBits := 8, parity := .none, stop := .one } ∧
    lineDecode 0x04 = { dataBits := 5, parity := .none, stop := .oneAndHalf } ∧
    lineDecode 0x0A = { dataBits := 7, parity := .odd, stop := .one } ∧
    lineDecode 0x0D = { dataBits := 6, parity := .odd, stop := .two } ∧
    lineDecode 0x18 = { dataBits := 5, parity := .even, stop := .one } ∧
    lineEncode { dataBits := 8, parity := .even, stop := .two } = 0x1F := by decide

/-- The response word of `(-22, 0, 0)` and of a `read` of 0x55 with a parity error (30_encoding.md R93). -/
theorem test_responseWord :
    ({ res := -22, v0 := 0, v1 := 0 } : Response).word = 0xFFFFFFEA ∧
    ({ res := 0, v0 := 0x55, v1 := 0x004 } : Response).word = 0x000000040000005500000000 := by decide

/-! ### Small states -/

/-- Instance 0 of "cfg0" (95_test_vectors.md, conventions), every field as section 2 and rule R121 list it. -/
def cfg0 : Uart := { Uart.reset with
  lcr := 0x03
  ier := 0x80
  fifoe := true
  tet := 3
  rt := 2
  dll := 0xD0
  dlf := 0x05
  irqMasked := false
  cfg := { lineControl := 0x03, baudDivisor := 0x00D005, hwFc := false, intEn := true } }

/-- The machine with a given instance 0. -/
def on (u : Uart) : State := { State.reset with uarts := [u, Uart.reset] }

/-- The machine with a given instance 0 and memory. -/
def onMem (u : Uart) (m : Memory) : State := { on u with mem := m }

/-- A character received without error. -/
def good (b : Byte) : RxEntry := { data := b, pe := false, fe := false, bi := false }

/-- The transfer of `irq_write u0, buf=0x1000, len=20, cb=1, ctx=0xA5` with some bytes done. -/
def txIrq (len done : Word32) : Transfer := { engine := .irq, buf := 0x1000, len := len, done := done, cb := 1, ctx := 0xA5 }

/-- The transfer of `irq_read u0, buf=0x3000, len=64, cb=2, ctx=0`. -/
def rxIrq (len done : Word32) : Transfer := { engine := .irq, buf := 0x3000, len := len, done := done, cb := 2, ctx := 0 }

/-- The transfer of `dma_write u0, buf=0x8000, len, cb=3, ctx=7`. -/
def txDma (len done : Word32) : Transfer := { engine := .dma, buf := 0x8000, len := len, done := done, cb := 3, ctx := 7 }

/-- The transfer of `dma_read u0, buf=0x9000, len, cb=4, ctx=0`. -/
def rxDma (len done : Word32) : Transfer := { engine := .dma, buf := 0x9000, len := len, done := done, cb := 4, ctx := 0 }

/-- cfg0 with an IRQ write Active. -/
def writing (len done : Word32) : Uart := { cfg0 with ier := 0x82, txSlot := .active (txIrq len done) }

/-- cfg0 with an IRQ read Active and these characters waiting. -/
def reading (len done : Word32) (es : List RxEntry) : Uart :=
  { cfg0 with ier := 0x85, rxSlot := .active (rxIrq len done), rxFifo := es }

/-- cfg0 with a DMA write Active on channel 3. -/
def dmaWriting (len done : Word32) : Uart := { cfg0 with txBind := .configured 0 3, txSlot := .active (txDma len done) }

/-- cfg0 with a DMA read Active on channel 5 and these characters waiting. -/
def dmaReading (len done : Word32) (es : List RxEntry) : Uart :=
  { cfg0 with rxBind := .configured 0 5, rxSlot := .active (rxDma len done), rxFifo := es }

/-- Instance 0 after an instruction. -/
def after (i : Instr) (s : State) : Option Uart :=
  match exec i s with
  | .next t => t.uart? 0
  | _ => none

/-- The responses of an instruction. -/
def answers (i : Instr) (s : State) : Option (List (Word32 × Word32 × Word32)) :=
  match exec i s with
  | .next t => some (t.responses.map (fun r => (r.2.res, r.2.v0, r.2.v1)))
  | _ => none

/-- The callback records after an instruction. -/
def records (i : Instr) (s : State) : Option (List CbRecord) :=
  match exec i s with
  | .next t => some t.cbLog
  | _ => none

/-! ### One-step checks (95_test_vectors.md) -/

/-- Section 2.2: from reset, `set_config u0, lc=0x03, div=0x00D005, fc=0, ie=1` gives (0,0,0) and cfg0. -/
theorem test_setConfig_cfg0 :
    after (.setConfig 0 0x03 0x00D005 0 false true true) State.reset = some cfg0 ∧
    answers (.setConfig 0 0x03 0x00D005 0 false true true) State.reset = some [(0, 0, 0)] := by decide
/-- Section 2.2: `lc=0x10` and `a1[24]=1` give (-22,0,0). -/
theorem test_setConfig_rejects :
    answers (.setConfig 0 0x10 5 0 false true true) State.reset = some [(-22, 0, 0)] ∧
    answers (.setConfig 0 0x03 0 1 false true true) State.reset = some [(-22, 0, 0)] := by decide
/-- Section 2.3: a parity error at the head: (0, 0x1C4, 0). -/
theorem test_getStatus_parity :
    answers (.getStatus 0) (on { cfg0 with rxFifo := [{ good 0x55 with pe := true }], latPe := true }) = some [(0, 0x1C4, 0)] := by
  decide
/-- Section 2.3: 16 bytes waiting: (0, 0x020, 0). -/
theorem test_getStatus_full :
    answers (.getStatus 0) (on { cfg0 with txFifo := List.replicate 16 1 }) = some [(0, 0x020, 0)] := by decide
/-- Section 2.4: `write` appends. -/
theorem test_write : (after (.write 0 0x41) (on cfg0)).map (·.txFifo) = some [0x41] := by decide
/-- Section 2.4: `write` with `tx_count = 16` is held: no response. -/
theorem test_write_held : answers (.write 0 1) (on { cfg0 with txFifo := List.replicate 16 7 }) = some [] := by decide
/-- Section 2.4: `read` of a character with a parity error: (0, 0x55, 0x004), latches 0. -/
theorem test_read_parity :
    answers (.read 0) (on { cfg0 with rxFifo := [{ good 0x55 with pe := true }], latPe := true }) = some [(0, 0x55, 0x004)] := by
  decide
/-- Section 2.3: the pop exposes the break of the next entry. -/
theorem test_read_exposes :
    (after (.read 0) (on { cfg0 with rxFifo := [good 1, { data := 0, pe := false, fe := true, bi := true }] })).map
      (fun u => (u.latPe, u.latFe, u.latBi)) = some (false, true, true) := by decide
/-- Section 2.4: `write_non_block` with `tx_count = 15` is accepted, with 16 it answers (-11,0,0). -/
theorem test_writeNonBlock_room :
    answers (.writeNonBlock 0 0x63) (on { cfg0 with txFifo := List.replicate 15 7 }) = some [(0, 0, 0)] := by decide
theorem test_writeNonBlock_full :
    answers (.writeNonBlock 0 0x63) (on { cfg0 with txFifo := List.replicate 16 7 }) = some [(-11, 0, 0)] := by decide
/-- Section 2.4: `read_non_block` keeps the latch, and answers (-11,0,0) with nothing waiting. -/
theorem test_readNonBlock_latch :
    (after (.readNonBlock 0) (on { cfg0 with rxFifo := [{ good 0x0A with pe := true }], latPe := true })).map
      (fun u => (u.rxFifo, u.latPe)) = some ([], true) := by decide
theorem test_readNonBlock_empty : answers (.readNonBlock 0) (on cfg0) = some [(-11, 0, 0)] := by decide
/-- Section 2.4: bad regions and `len = 0`. -/
theorem test_writeBuffer_operands :
    answers (.writeBuffer 0 0 2) (on cfg0) = some [(-22, 0, 0)] ∧
    answers (.writeBuffer 0 0xFFFFFFFF 2) (on cfg0) = some [(-22, 0, 0)] ∧
    answers (.writeBuffer 0 0x2000 0) (on cfg0) = some [(0, 0, 0)] := by decide
/-- Program P1 step 2: the first byte of two enters the FIFO, and the command goes on. -/
theorem test_writeBuffer_first :
    (after (.writeBuffer 0 0x2000 2) (onMem cfg0 [(0x2000, 0x48), (0x2001, 0x69)])).map (·.txFifo) = some [0x48] ∧
    answers (.writeBuffer 0 0x2000 2) (onMem cfg0 [(0x2000, 0x48), (0x2001, 0x69)]) = some [] := by decide
/-- Section 2.5 and program P2: `irq_write` sets IER to 0x82; the same again answers (-16,0,0). -/
theorem test_irqWrite : after (.irqWrite 0 0x1000 20 1 0xA5) (on cfg0) = some (writing 20 0) := by decide
theorem test_irqWrite_busy : answers (.irqWrite 0 0x1000 20 1 0xA5) (on (writing 20 0)) = some [(-16, 0, 0)] := by decide
/-- Program P3 step 1; section 2.5: a region that wraps. -/
theorem test_irqRead : after (.irqRead 0 0x3000 64 2 0) (on cfg0) = some (reading 64 0 []) := by decide
theorem test_irqRead_wraps :
    answers (.irqRead 0 0xFFFFFFFF 2 1 0) (on cfg0) = some [(-22, 0, 0)] ∧
    answers (.irqRead 0 0xFFFFFFFF 1 1 0) (on cfg0) = some [(0, 0, 0)] := by decide
/-- Program P5 run B: one record with -125, IER 0x80. -/
theorem test_irqWriteTerminate :
    records (.irqWriteTerminate 0) (on { cfg0 with ier := 0x82, txSlot := .active { txIrq 4 0 with cb := 9, ctx := 1 } }) =
      some [{ inst := 0, dir := .tx, cb := 9, ctx := 1, err := -125, st := 0, n := 0 }] := by decide
/-- Section 2.6: a DMA transfer is not terminated by `irq_write_terminate`. -/
theorem test_irqWriteTerminate_dma : records (.irqWriteTerminate 0) (on (dmaWriting 4 0)) = some [] := by decide
/-- Rule R195: IER bits 0 and 2 are cleared, the slot is Idle. -/
theorem test_irqReadTerminate : after (.irqReadTerminate 0) (on (reading 64 0 [])) = some cfg0 := by decide
/-- Program P4 steps 2 and 5. -/
theorem test_dmaChannelConfig :
    (after (.dmaChannelConfig 0 0 3 0) (on cfg0)).map (·.txBind) = some (.configured 0 3) ∧
    answers (.dmaChannelConfig 0 0 4 0) (on (dmaWriting 4 0)) = some [(-16, 0, 0)] := by decide
/-- Section 2.6: `dir=2`, `chan=8`, `ctrl=1`, even with `DmaReady` false; and `DmaReady` false alone. -/
theorem test_dmaChannelConfig_rejects :
    let s := { on cfg0 with params := { Params.default with dmaNotReady := [(0, 3), (0, 0)] } }
    answers (.dmaChannelConfig 0 0 3 2) s = some [(-22, 0, 0)] ∧ answers (.dmaChannelConfig 0 0 8 0) s = some [(-22, 0, 0)] ∧
    answers (.dmaChannelConfig 0 1 3 0) s = some [(-22, 0, 0)] ∧ answers (.dmaChannelConfig 0 0 3 0) s = some [(-19, 0, 0)] := by
  decide
/-- Program P4 steps 1, 3, 4. -/
theorem test_dmaWrite_checks :
    answers (.dmaWrite 0 0x8000 16 3 7) (on cfg0) = some [(-19, 0, 0)] ∧
    answers (.dmaWrite 0 0x8000 4097 3 7) (on { cfg0 with txBind := .configured 0 3 }) = some [(-22, 0, 0)] := by decide
theorem test_dmaWrite :
    after (.dmaWrite 0 0x8000 4096 3 7) (on { cfg0 with txBind := .configured 0 3 }) = some (dmaWriting 4096 0) := by decide
/-- Section 2.7: `dma_read` while an `irq_read` is Active answers (-16,0,0). -/
theorem test_dmaRead_busy :
    answers (.dmaRead 0 0x9000 2 4 0) (on { reading 64 0 [] with rxBind := .configured 0 5 }) = some [(-16, 0, 0)] := by decide
theorem test_dmaRead :
    after (.dmaRead 0 0x9000 2 4 0) (on { cfg0 with rxBind := .configured 0 5 }) = some (dmaReading 2 0 []) := by decide
/-- Program P4 step 8: one record with -125 and three bytes. -/
theorem test_dmaWriteTerminate :
    records (.dmaWriteTerminate 0) (on (dmaWriting 4096 3)) =
      some [{ inst := 0, dir := .tx, cb := 3, ctx := 7, err := -125, st := 0, n := 3 }] := by decide
/-- Program P4 step 9: on an Idle slot nothing happens. -/
theorem test_dmaReadTerminate :
    records (.dmaReadTerminate 0) (on (dmaReading 4 1 [])) =
      some [{ inst := 0, dir := .rx, cb := 4, ctx := 0, err := -125, st := 0, n := 1 }] ∧
    records (.dmaReadTerminate 0) (on cfg0) = some [] := by decide
/-- Section 2.2: preset 1 gives `tet` 0, `rt` 0, `rx_level` 1; preset 2 answers (-22,0,0). -/
theorem test_setThreshold :
    (after (.setThreshold 0 1) (on cfg0)).map (fun u => (u.tet, u.rt, u.txLevel, u.rxLevel)) = some (0, 0, 0, 1) := by decide
theorem test_setThreshold_bad : answers (.setThreshold 0 2) (on cfg0) = some [(-22, 0, 0)] := by decide
/-- Program P5 run A: the refill of four bytes completes the transfer. -/
theorem test_irq_refill :
    records (.irq 0) (onMem (writing 2 0) [(0x1000, 0x61), (0x1001, 0x62)]) =
      some [{ inst := 0, dir := .tx, cb := 1, ctx := 0xA5, err := 0, st := 0, n := 2 }] := by decide
/-- Section 2.5: 0x61 and 0x62 are stored, the drain stops before the character with the framing error. -/
theorem test_irq_drain_stops :
    (after (.irq 0) (on { reading 64 0 [good 0x61, good 0x62, { good 0x63 with fe := true }, good 0x64] with cto := true })).map
      (fun u => (u.rxFifo, u.latFe, u.iid)) = some ([{ good 0x63 with fe := true }, good 0x64], true, 0x6) := by decide
/-- Section 2.6: a beat of each direction. -/
theorem test_dmaBeat_tx :
    (after (.dmaBeat 0 0) (onMem (dmaWriting 3 0) [(0x8000, 1)])).map (fun u => (u.txFifo, u.txSlot)) =
      some ([1], .active (txDma 3 1)) := by decide
theorem test_dmaBeat_rx :
    (match exec (.dmaBeat 0 1) (on (dmaReading 2 0 [good 0x11, { good 0x22 with pe := true }])) with
      | .next t => memRead t.mem 0x9000
      | _ => none) = some 0x11 := by decide
/-- Section 2.6: success only once `done = len`; an error at any point. -/
theorem test_dmaDone_ok :
    records (.dmaDone 0 0 true) (on (dmaWriting 3 2)) = some [] ∧
    records (.dmaDone 0 0 true) (on (dmaWriting 3 3)) =
      some [{ inst := 0, dir := .tx, cb := 3, ctx := 7, err := 0, st := 0, n := 3 }] := by decide
theorem test_dmaDone_error :
    records (.dmaDone 0 0 false) (on (dmaWriting 3 1)) =
      some [{ inst := 0, dir := .tx, cb := 3, ctx := 7, err := -5, st := 0, n := 1 }] := by decide
/-- Section 2.3: LSR would read 0xE5 after a character with a parity error; with `DEPTH = 1` the second character is lost. -/
theorem test_lineRx_parity :
    (after (.lineRx 0 0x55 true false false) (on cfg0)).map (fun u => (u.latPe, u.lsr)) = some (true, 0xE5) := by decide
theorem test_lineRx_overrun :
    (after (.lineRx 0 2 false false false) (on { Uart.reset with lcr := 0x03, rxFifo := [good 1] })).map
      (fun u => (u.rxFifo, u.latOe)) = some ([good 1], true) := by decide
/-- Program P1 step 4; section 2.2: not enabled while CTS is 0 under flow control. -/
theorem test_lineTxLoad :
    (after (.lineTxLoad 0) (on { cfg0 with txFifo := [0x48, 0x69] })).map (fun u => (u.shifter, u.txFifo)) =
      some (.busy 0x48, [0x69]) := by decide
theorem test_lineTxLoad_cts :
    (after (.lineTxLoad 0) (on { cfg0 with txFifo := [0x41], mcr := 0x22 })).map (·.shifter) = some .idle := by decide
/-- Program P1 step 5. -/
theorem test_lineTxDone :
    (after (.lineTxDone 0) (on { cfg0 with shifter := .busy 0x48 })).map (fun u => (u.wireLog, u.shifter)) =
      some ([0x48], .idle) := by decide
/-- Program P3 step 7; section 2.3: not enabled with nothing waiting. -/
theorem test_lineCto :
    (after (.lineCto 0) (on (reading 64 16 (List.replicate 4 (good 0x51))))).map (·.iid) = some 0xC ∧
    (after (.lineCto 0) (on cfg0)).map (·.cto) = some false := by decide
/-- Section 2.2: the CTS input follows the line. -/
theorem test_lineCts :
    (after (.lineCts 0 true) (on cfg0)).map (·.ctsIn) = some true ∧
    (after (.lineCts 0 false) (on { cfg0 with ctsIn := true })).map (·.ctsIn) = some false := by decide

/-- Section 2.2: `rts_out` under flow control is up with 7 characters waiting, down with 8 (the level), and always down without. -/
theorem test_rtsOut :
    ({ cfg0 with mcr := 0x22, rxFifo := List.replicate 7 (good 1) } : Uart).rtsOut = true ∧
    ({ cfg0 with mcr := 0x22, rxFifo := List.replicate 8 (good 1) } : Uart).rtsOut = false ∧ cfg0.rtsOut = false := by decide

/-! ### Placing a word -/

/-- The very next step from reset runs the command placed: `get_status u0` answers (0, 0x080, 0) (section 2.3). -/
theorem test_withFetchWord_command :
    (match step (State.reset.withFetchWord 144 0x02) with
      | .next t => some (t.responses.map (fun r => r.2.v0))
      | _ => none) = some [0x080] := by decide
/-- The very next step from reset runs the event placed. -/
theorem test_withFetchWord_event :
    (match step (State.reset.withFetchWord 32 0x0001008C) with
      | .next t => (t.uart? 0).map (·.ctsIn)
      | _ => none) = some true := by decide

/-! ### Contexts of callbacks -/

/-- `get_status u0` presented by the interrupt context, and its turn, with these callbacks running. -/
def inInterrupt (cs : List Context) : State := { on cfg0 with
  presented := [{ ctx := .interrupt, word := 0x02 }]
  callbacks := cs
  turns := [.host .interrupt] }

/-- What the interrupt context presents is performed while a callback runs in it, and else waits (60_exceptions.md R265, R266). -/
theorem test_interruptContext :
    (match step (inInterrupt [.dmaCompletion, .interrupt]) with
      | .next t => some (t.responses.map (·.1), t.presented.length)
      | _ => none) = some ([.interrupt], 0) ∧
    (match step (inInterrupt [.dmaCompletion]) with
      | .next t => some (t.responses.map (·.1), t.presented.length)
      | _ => none) = some ([], 1) := by decide

/-! ### States that meet the hypotheses of the statements

`witness_<Statement>` meets all hypotheses of that statement together; where a statement has several clauses, one conjunct or one
theorem a clause, at a boundary of its range. -/

theorem ok_txIrq : (txIrq 20 8).Ok := ⟨by decide, by decide, by decide, by decide, by decide⟩
theorem ok_rxIrq : (rxIrq 64 0).Ok := ⟨by decide, by decide, by decide, by decide, by decide⟩

theorem cfg0_inv : cfg0.Inv :=
  ⟨by decide, by decide, by decide, by decide, by decide, Slot.ok_idle, Slot.ok_idle, by decide, by decide, by decide, by decide,
    by decide, by decide⟩

theorem reset_inv : Uart.reset.Inv :=
  ⟨by decide, by decide, by decide, by decide, by decide, Slot.ok_idle, Slot.ok_idle, by decide, by decide, by decide, by decide,
    by decide, by decide⟩

theorem writing_inv : (writing 20 8).Inv :=
  ⟨by decide, by decide, by decide, by decide, by decide, Slot.ok_active ok_txIrq, Slot.ok_idle, by decide, by decide, by decide,
    by decide, by decide, by decide⟩

/-- cfg0 with an IRQ read Active, a character with a framing error behind a good one, and the timeout latched. -/
def draining : Uart := { reading 64 0 [good 0x61, { good 0x63 with fe := true }] with cto := true }

theorem draining_inv : draining.Inv :=
  ⟨by decide, by decide, by decide, by decide, by decide, Slot.ok_idle, Slot.ok_active ok_rxIrq, by decide, by decide, by decide,
    by decide, by decide, by decide⟩

/-- cfg0 with an IRQ read Active and a parity error latched at the head. -/
def erring : Uart := { reading 64 0 [{ good 0x7F with pe := true }] with latPe := true }

theorem erring_inv : erring.Inv :=
  ⟨by decide, by decide, by decide, by decide, by decide, Slot.ok_idle, Slot.ok_active ok_rxIrq, by decide, by decide, by decide,
    by decide, by decide, by decide⟩

theorem on_inv {u : Uart} (h : u.Inv) : (on u).UartsInv := by
  intro v hv
  have hv : v = u ∨ v = Uart.reset := by simpa [on] using hv
  rcases hv with rfl | rfl
  · exact h
  · exact reset_inv

/-- Thread `n` of the foreground. -/
def fg (n : Nat) : Context := .foreground n

/-- `get_status u0` presented by thread 1 behind a command of thread 0, and thread 1's turn. -/
def queued (w : BitVec 144) : State := { State.reset with
  presented := [{ ctx := fg 0, word := 0x04 }, { ctx := fg 1, word := w }, { ctx := fg 0, word := 0x02 }]
  turns := [.host (.foreground 1)] }

/-- A `write u0` held by thread 0, and its turn. -/
def holding : State := { on { cfg0 with txFifo := List.replicate 16 7 } with
  held := [{ ctx := fg 0, instr := .write 0 1, progress := 0 }]
  turns := [.host (.foreground 0)] }

/-- A callback running in a context is issuing commands. -/
def inCallback (c : Context) (s : State) : State := { s with active := c, callbacks := [c] }

/-! #### Encoding and the step -/

theorem witness_DecodeUndoesEncode : (Instr.dmaDone 255 1 true).WellFormed = true := by decide

theorem witness_DecodedHeaderIsTheWords :
    decode (.cmd 0xFF04) = .ok (.read 0xFF) ∧ decode (.evt 0x0001FF8C) = .ok (.lineCts 0xFF true) := ⟨rfl, rfl⟩

/-- Two words a clause, different only in bits the command does not use. -/
theorem witness_UnusedOperandBitsIgnored :
    ((0x02#144).extractLsb' 0 16 = (0xFFFFFFFF0002#144).extractLsb' 0 16 ∧ cmdOp 0x02 ∈ [0x02#8, 0x04#8, 0x06#8, 0x0A#8, 0x0B#8, 0x0F#8, 0x10#8]) ∧
    (cmdOp 0x410003 ∈ [0x03#8, 0x05#8] ∧ (0x410003#144).extractLsb' 16 8 = (0xFF410003#144).extractLsb' 16 8) ∧
    (cmdOp 0x010011 = 0x11#8 ∧ (0x010011#144).extractLsb' 16 32 = (0xFF000000010011#144).extractLsb' 16 32) ∧
    (cmdOp 0x07 = 0x07#8 ∧ (0x07#144).extractLsb' 16 64 = (0x0100000000000000000007#144).extractLsb' 16 64) ∧
    (cmdOp 0x0C = 0x0C#8 ∧ (0x0C#144).extractLsb' 16 96 = (0x01000000000000000000000000000C#144).extractLsb' 16 96) ∧
    (cmdOp 0x01 = 0x01#8 ∧ (0x01#144).extractLsb' 16 8 = (0xFF000001#144).extractLsb' 16 8 ∧
      (0x01#144).extractLsb' 48 34 = (0xFF000001#144).extractLsb' 48 34 ∧ (0x01#144).getLsbD 112 = (0xFF000001#144).getLsbD 112) := by
  decide

theorem witness_StepRunsThePresentedCommand :
    (queued 0x02).turns = [.host (.foreground 1)] ∧ (queued 0x02).heldOf (.foreground 1) = none ∧
    (queued 0x02).entered (.foreground 1) = true ∧
    takePresented (.foreground 1) (queued 0x02).presented =
      some ({ ctx := fg 1, word := 0x02 }, [{ ctx := fg 0, word := 0x04 }, { ctx := fg 0, word := 0x02 }]) ∧
    decodeTableWord 144 0x02 = some (.getStatus 0) ∧ (Instr.getStatus 0).WellFormed = true := by decide

theorem witness_CommandsOfAContextInOrder :
    (takePresented (.foreground 0) (queued 0x02).presented).isSome = true ∧
    (takePresented (.foreground 1) (queued 0x02).presented).isSome = true ∧
    takePresented (.foreground 2) (queued 0x02).presented = none := by decide

theorem witness_StepRunsTheLabelledEvent :
    ({ State.reset with turns := [.event 0x0001008C] } : State).turns = [.event 0x0001008C] ∧
    decode (.evt 0x0001008C) = .ok (.lineCts 0 true) ∧ (Instr.lineCts 0 true).WellFormed = true := ⟨rfl, rfl, rfl⟩

theorem witness_StepStoresTheCallersByte :
    let s : State := { State.reset with mem := [(0x1000, 1)], turns := [.store 0xFFFFFFFF 2] }
    s.turns = [.store 0xFFFFFFFF 2] ∧ s.MemInv := by decide

theorem witness_StepRetriesTheHeldCommand :
    holding.turns = [.host (.foreground 0)] ∧
    holding.heldOf (.foreground 0) = some { ctx := fg 0, instr := .write 0 1, progress := 0 } := by decide

/-- The boundary codes 0x00, 0x12 and 0xFF of a command, 0x7F, 0x83, 0x87 and 0x8D of an event, the directions 2 and 255 of a beat and a
notification. -/
theorem witness_IllegalCodesChangeNothing :
    (∀ w ∈ [0x00#144, 0x12#144, 0xFF#144], (queued w).heldOf (.foreground 1) = none ∧
      (queued w).entered (.foreground 1) = true ∧ takePresented (.foreground 1) (queued w).presented =
        some ({ ctx := fg 1, word := w }, [{ ctx := fg 0, word := 0x04 }, { ctx := fg 0, word := 0x02 }]) ∧
      (cmdOp w = 0x00 ∨ 0x12 ≤ cmdOp w)) ∧
    (∀ w ∈ [0x7F#32, 0x83#32, 0x87#32, 0x8D#32],
      evtCode w ∉ [0x80#8, 0x81#8, 0x82#8, 0x88#8, 0x89#8, 0x8A#8, 0x8B#8, 0x8C#8]) ∧
    (∀ w ∈ [0x00020081#32, 0x01FF0082#32], evtCode w ∈ [0x81#8, 0x82#8] ∧ 1 < evtE0 w) := by
  simp only [List.forall_mem_cons, List.not_mem_nil, false_imp_iff, implies_true]
  decide

/-! #### Invariants and rules about every instruction -/

/-- A step of the machine with a memory byte, a held command and legal instances. -/
theorem witness_StepKeepsMemoryCanonical :
    let s : State := { State.reset with mem := [(0x1000, 1)], turns := [.store 0x0FFF 2] }
    s.MemInv ∧ step s = .next { State.reset with mem := [(0x0FFF, 2), (0x1000, 1)], freeCount := 1 } := ⟨by decide, rfl⟩

theorem witness_StepKeepsTheInstanceInvariant :
    ({ on cfg0 with turns := [.event 0x8B] } : State).UartsInv ∧
    step { on cfg0 with turns := [.event 0x8B] } = .next { on cfg0 with freeCount := 1 } := ⟨on_inv cfg0_inv, rfl⟩

theorem witness_StepKeepsOneHeldCommandAContext :
    holding.PortInv ∧ step holding = .next { holding with turns := [], freeCount := 1 } := ⟨by decide, rfl⟩

/-- Each of the three cases: nothing, a start, an end. -/
theorem witness_OneCallbackForEachTransferEnded :
    (∃ t, step State.reset = .next t) ∧
    (∃ t, step ((on cfg0).withFetchWord 144 0x000000A50000000100000014000010000008) = .next t ∧ t.slotActive 0 .tx = true) ∧
    (∃ t, step ((on (writing 20 8)).withFetchWord 144 0x0A) = .next t ∧ t.callbackCount 0 .tx = 1) :=
  ⟨⟨_, rfl⟩, ⟨_, rfl, by decide⟩, ⟨_, rfl, by decide⟩⟩

theorem witness_OnlyStartCommandsActivateASlot :
    ∃ t, exec (.irqWrite 0 0x1000 20 1 0xA5) (on cfg0) = .next t ∧ (on cfg0).slotActive 0 .tx = false ∧ t.slotActive 0 .tx = true :=
  ⟨_, rfl, by decide, by decide⟩

theorem witness_InstancesAreIndependent :
    (∃ t, exec (.irqWriteTerminate 0) (on (writing 20 8)) = .next t) ∧ (1 : Nat) ≠ (Instr.irqWriteTerminate 0).inst.toNat ∧
    [writing 20 8, cfg0, cfg0][(Instr.irqWriteTerminate 0).inst.toNat]? = (on (writing 20 8)).uarts[(Instr.irqWriteTerminate 0).inst.toNat]? :=
  ⟨⟨_, rfl⟩, by decide, rfl⟩

theorem witness_MemoryChangesOnlyInsideTheReadRegion :
    (on draining).UartsInv ∧ ∃ t, exec (.irq 0) (on draining) = .next t ∧ memRead t.mem 0x3000 ≠ memRead (on draining).mem 0x3000 :=
  ⟨on_inv draining_inv, _, rfl, by decide⟩

theorem witness_ErrorResultsChangeNothing :
    ∃ t, exec (.irqWrite 0 0x1000 20 1 0xA5) (on (writing 20 8)) = .next t ∧
      t.responses = (on (writing 20 8)).responses ++ [((on (writing 20 8)).active, { res := -16, v0 := 0, v1 := 0 })] ∧
      (-16 : Word32) ≠ 0 := ⟨_, rfl, by decide, by decide⟩

/-- One command for each of the three codes, with parameters that R5 admits. -/
theorem witness_ErrorCodesHaveTheirCauses :
    (on cfg0).params.Valid ∧
    answers (.irqWrite 0 0x1000 20 1 0xA5) (on (writing 20 8)) = some [((on cfg0).params.err.busy, 0, 0)] ∧
    answers (.readNonBlock 0) (on cfg0) = some [((on cfg0).params.err.again, 0, 0)] ∧
    answers (.dmaWrite 0 0x8000 16 3 7) (on cfg0) = some [((on cfg0).params.err.state, 0, 0)] := by decide

theorem witness_OnlyCallerMistakesStopTheMachine :
    exec (.irq 0) (on (writing 20 8)) = .fault (.unwrittenByte 0x1008) ∧
    exec (.read 0) (inCallback .interrupt (on cfg0)) = .refused .blockingInCallback := ⟨rfl, rfl⟩

theorem witness_TracesOnlyGrow :
    ∃ t v, exec (.lineTxDone 0) (on { cfg0 with shifter := .busy 0x48 }) = .next t ∧
      (on { cfg0 with shifter := .busy 0x48 }).uart? 0 = some { cfg0 with shifter := .busy 0x48 } ∧ t.uart? 0 = some v :=
  ⟨_, _, rfl, rfl, rfl⟩

/-- An instruction of each clause. -/
theorem witness_OnlyConfigurationWritesConfiguration :
    (on cfg0).UartsInv ∧ (on cfg0).uart? 0 = some cfg0 ∧
    (∃ t v, exec (.irqRead 0 0x3000 64 2 0) (on cfg0) = .next t ∧ t.uart? 0 = some v ∧
      (Instr.irqRead 0 0x3000 64 2 0).code ≠ 0x01 ∧ (Instr.irqRead 0 0x3000 64 2 0).code ≠ 0x11) ∧
    (∃ t v, exec (.setThreshold 0 1) (on cfg0) = .next t ∧ t.uart? 0 = some v ∧ (Instr.setThreshold 0 1).code = 0x11) :=
  ⟨on_inv cfg0_inv, rfl, ⟨_, _, rfl, rfl, by decide, by decide⟩, ⟨_, _, rfl, rfl, by decide⟩⟩

theorem witness_SynchronousCommandsLeaveTransfersAlone :
    isSynchronous (.write 0 0x41) = true ∧ (on (writing 20 8)).UartsInv ∧ (on (writing 20 8)).uart? 0 = some (writing 20 8) ∧
    ∃ t v, exec (.write 0 0x41) (on (writing 20 8)) = .next t ∧ t.uart? 0 = some v :=
  ⟨rfl, on_inv writing_inv, rfl, _, _, rfl, rfl⟩

/-- A command that does not read LSR, and the handler in a service that does not. -/
theorem witness_LatchesStayUntilLsrIsRead :
    ((on erring).uart? 0 = some erring ∧ erring.latPe = true ∧ Instr.readNonBlock 0 ≠ .getStatus 0 ∧ Instr.readNonBlock 0 ≠ .read 0 ∧
      Instr.readNonBlock 0 ≠ .irq 0 ∧ ∃ t v, exec (.readNonBlock 0) (on erring) = .next t ∧ t.uart? 0 = some v) ∧
    (let u := { cfg0 with ier := 0x82, latPe := true }
     (on u).uart? 0 = some u ∧ u.latPe = true ∧ u.iid ≠ 0x6 ∧ ∃ t v, exec (.irq 0) (on u) = .next t ∧ t.uart? 0 = some v) :=
  ⟨⟨rfl, rfl, by decide, by decide, by decide, _, _, rfl, rfl⟩, rfl, rfl, by decide, _, _, rfl, rfl⟩

/-- The first instance that does not exist is 2 (95_test_vectors.md 2.7); a command of each kind. -/
theorem witness_MissingInstanceAnswersInvalid :
    (on cfg0).uarts.length ≤ (2 : Inst).toNat ∧ (Instr.getStatus 2).isCommand = true ∧ (Instr.getStatus 2).canHold = false ∧
    (Instr.write 2 0).isCommand = true ∧ (on cfg0).active ∉ (on cfg0).callbacks := by decide

/-! #### Commands -/

/-- Instance 0 and the first instance that does not exist: so for every command below. -/
theorem witness_instances : (on cfg0).uart? 0 = some cfg0 ∧ (on cfg0).uart? 2 = none ∧ (on cfg0).active ∉ (on cfg0).callbacks := by
  decide

/-- The least and the greatest of the 24 codes. -/
theorem witness_SetConfigApplies :
    ∀ lc ∈ [0x00#8, 0x1F#8], lc ≤ 0x1F ∧ ¬ (lc.getLsbD 4 = true ∧ lc.getLsbD 3 = false) := by
  simp only [List.forall_mem_cons, List.not_mem_nil, false_imp_iff, implies_true]
  decide

/-- The codes 0x10, 0x17 and 0x20 are none of them. -/
theorem witness_SetConfigApplies_rejects :
    ∀ lc ∈ [0x10#8, 0x17#8, 0x20#8], ¬ (lc ≤ 0x1F ∧ ¬ (lc.getLsbD 4 = true ∧ lc.getLsbD 3 = false)) := by
  simp only [List.forall_mem_cons, List.not_mem_nil, false_imp_iff, implies_true]
  decide

theorem witness_SetThresholdAppliesThePreset : (on cfg0).uart? 0 = some cfg0 ∧ ¬ (1 < (1 : Word32)) ∧ 1 < (2 : Word32) := by decide

theorem witness_GetStatusReportsAndClears : (on cfg0).uart? 0 = some cfg0 := by decide

/-- Room for one more byte, and none. -/
theorem witness_WriteWaitsForRoom :
    (on cfg0).uart? 0 = some cfg0 ∧ cfg0.dlab = false ∧ (on cfg0).active ∉ (on cfg0).callbacks ∧
    ({ cfg0 with txFifo := List.replicate 15 7 } : Uart).txCount < cfg0.depth ∧
    ¬ ({ cfg0 with txFifo := List.replicate 16 7 } : Uart).txCount < cfg0.depth := by decide

/-- A character waiting, and none. -/
theorem witness_ReadTakesTheOldestCharacter :
    (on erring).uart? 0 = some erring ∧ erring.dlab = false ∧ (on erring).active ∉ (on erring).callbacks ∧
    erring.rxFifo = { good 0x7F with pe := true } :: [] ∧ (on cfg0).uart? 0 = some cfg0 ∧ cfg0.rxFifo = [] := by decide

theorem witness_WriteNonBlockNeverWaits : (on cfg0).uart? 0 = some cfg0 ∧ cfg0.dlab = false := by decide

theorem witness_ReadNonBlockNeverWaits :
    (on erring).uart? 0 = some erring ∧ erring.dlab = false ∧ erring.rxFifo = { good 0x7F with pe := true } :: [] ∧
    (on cfg0).uart? 0 = some cfg0 ∧ cfg0.dlab = false ∧ cfg0.rxFifo = [] := by decide

/-- The hypotheses, then a state and operands for each outcome: bad operands at both bounds, no byte left, no room, a byte nothing has
written, the last byte, and a byte that is not the last. -/
theorem witness_WriteBufferMovesOneByteAStep :
    (on cfg0).uart? 0 = some cfg0 ∧ cfg0.dlab = false ∧ (on cfg0).active ∉ (on cfg0).callbacks ∧
    2 ^ 32 < (0xFFFFFFFF : Word32).toNat + (2 : Word32).toNat ∧ ¬ 2 ^ 32 < (0xFFFFFFFF : Word32).toNat + (1 : Word32).toNat ∧
    (0 : Word32) ≤ (on cfg0).progressOf (.writeBuffer 0 0x2000 0) ∧
    cfg0.depth ≤ ({ cfg0 with txFifo := List.replicate 16 7 } : Uart).txCount ∧ ¬ cfg0.depth ≤ cfg0.txCount ∧
    memRead (on cfg0).mem 0x2000 = none ∧ memRead (onMem cfg0 [(0x2000, 0x48)]).mem 0x2000 = some 0x48 ∧
    (on cfg0).progressOf (.writeBuffer 0 0x2000 1) + 1 = 1 ∧ (on cfg0).progressOf (.writeBuffer 0 0x2000 2) + 1 ≠ 2 ∧
    ({ on cfg0 with held := [{ ctx := fg 0, instr := .writeBuffer 0 0x2000 2, progress := 1 }] } : State).progressOf
      (.writeBuffer 0 0x2000 2) + 1 = 2 := by decide

/-- A callback in each kind of context. -/
theorem witness_BlockingCallbackIsRefused :
    (Instr.writeBuffer 0 0x2000 2).canHold = true ∧
    ∀ c ∈ [.interrupt, .dmaCompletion, fg 0], (inCallback c (on cfg0)).active ∈ (inCallback c (on cfg0)).callbacks := by
  refine ⟨rfl, ?_⟩
  simp only [List.forall_mem_cons, List.not_mem_nil, false_imp_iff, implies_true]
  decide

/-- A callback started in each of the three ways of 46_callback.md R240, and an instruction that starts none. -/
theorem witness_BlockingCallbackIsRefused_started :
    (∃ t, exec (.irq 0) (on erring) = .next t ∧ t.callbacks = [.interrupt]) ∧
    (∃ t, exec (.dmaDone 0 0 true) (on (dmaWriting 3 3)) = .next t ∧ t.callbacks = [.dmaCompletion]) ∧
    (∃ t, exec (.irqWriteTerminate 0) { on (writing 20 8) with active := fg 7 } = .next t ∧ t.callbacks = [fg 7]) ∧
    (∃ t, exec (.getStatus 0) (on cfg0) = .next t ∧ t.callbacks = []) :=
  ⟨⟨_, rfl, rfl⟩, ⟨_, rfl, rfl⟩, ⟨_, rfl, rfl⟩, ⟨_, rfl, rfl⟩⟩

/-- The interrupt context's turn with a command waiting and no callback running, and the return of one of two callbacks. -/
theorem witness_BlockingCallbackIsRefused_left :
    let s : State := { on cfg0 with presented := [{ ctx := .interrupt, word := 0x02 }], turns := [.host .interrupt] }
    let t : State := { on cfg0 with callbacks := [.interrupt, .interrupt], turns := [.callbackReturn .interrupt] }
    s.turns = .host .interrupt :: [] ∧ s.heldOf .interrupt = none ∧ .interrupt ∉ s.callbacks ∧
    t.turns = .callbackReturn .interrupt :: [] := by decide

theorem witness_IrqStartsATransfer : (on cfg0).uart? 0 = some cfg0 ∧ cfg0.dlab = false := by decide

/-- A slot of each kind in each direction. -/
theorem witness_IrqTerminateCancelsOnce :
    (writing 20 8).dlab = false ∧ (writing 20 8).txSlot = .active (txIrq 20 8) ∧ (txIrq 20 8).engine = .irq ∧
    draining.dlab = false ∧ draining.rxSlot = .active (rxIrq 64 0) ∧ (rxIrq 64 0).engine = .irq ∧
    (on (writing 20 8)).uart? 0 = some (writing 20 8) ∧ (on draining).uart? 0 = some draining := by decide

theorem witness_IrqTerminateCancelsOnce_other :
    (on (dmaWriting 3 1)).uart? 0 = some (dmaWriting 3 1) ∧ (dmaWriting 3 1).dlab = false ∧
    (∀ t, (dmaWriting 3 1).txSlot = .active t → t.engine = .dma) ∧ (∀ t, (dmaWriting 3 1).rxSlot = .active t → t.engine = .dma) :=
  ⟨by decide, by decide, fun _ h => by cases h; rfl, nofun⟩

/-! #### The handler -/

/-- Eight bytes from 0x1008 on. -/
def buffer : Memory := (List.range 8).map (fun k => (0x1008 + k, 0x38#8))

theorem witness_HandlerRefillsTheTxFifo :
    (writing 20 8).Inv ∧ (onMem (writing 20 8) buffer).uart? 0 = some (writing 20 8) ∧ (writing 20 8).irqMasked = false ∧
    (writing 20 8).iid = 0x2 ∧ (writing 20 8).txSlot = .active (txIrq 20 8) ∧
    (List.replicate 8 0x38#8).length = min 8 ((20 : Word32).toNat - (8 : Word32).toNat) ∧
    holdsBytes buffer (0x1000 + 8) (List.replicate 8 0x38#8) :=
  ⟨writing_inv, by decide, by decide, by decide, by decide, by decide, rfl, rfl, rfl, rfl, rfl, rfl, rfl, rfl, trivial⟩

/-- With FIFOs disabled: the single register, empty. -/
def bare : Uart := { writing 20 8 with fifoe := false, tet := 0, rt := 0 }

theorem witness_HandlerRefillsTheTxFifo_single :
    bare.Inv ∧ (on bare).uart? 0 = some bare ∧ bare.irqMasked = false ∧ bare.iid = 0x2 ∧ bare.txSlot = .active (txIrq 20 8) ∧
    holdsBytes buffer (0x1000 + 8) (List.replicate 8 0x38#8) :=
  ⟨⟨by decide, by decide, by decide, by decide, by decide, Slot.ok_active ok_txIrq, Slot.ok_idle, by decide, by decide, by decide,
    by decide, by decide, by decide⟩, by decide, by decide, by decide, by decide, rfl, rfl, rfl, rfl, rfl, rfl, rfl, rfl, trivial⟩

theorem witness_RefillNeverOverflows :
    (writing 20 8).Inv ∧ (writing 20 8).fifoe = true ∧
    ∃ t v, exec (.irq 0) (onMem (writing 20 8) ((List.range 20).map (fun k => (0x1000 + k, 0x30#8)))) = .next t ∧ t.uart? 0 = some v :=
  ⟨writing_inv, rfl, _, _, rfl, rfl⟩

/-- One good character, then one with an error: the drain stops between them. -/
theorem witness_HandlerDrainsTheRxFifo :
    draining.Inv ∧ (on draining).uart? 0 = some draining ∧ draining.irqMasked = false ∧ (draining.iid = 0x4 ∨ draining.iid = 0xC) ∧
    draining.rxSlot = .active (rxIrq 64 0) ∧ draining.rxFifo = good 0x61 :: [] ++ [{ good 0x63 with fe := true }] ∧
    ({ good 0x63 with fe := true } : RxEntry).flagged = true ∧ (rxIrq 64 0).done.toNat + 1 ≤ (rxIrq 64 0).len.toNat :=
  ⟨draining_inv, by decide, by decide, by decide, by decide, by decide, by decide, by decide⟩

/-- A read of no bytes with a character waiting (95_test_vectors.md 2.5, last row). -/
def empty : Uart := { reading 0 0 [good 5] with cto := true }

theorem witness_HandlerDrainsTheRxFifo_empty :
    empty.Inv ∧ (on empty).uart? 0 = some empty ∧ empty.irqMasked = false ∧ (empty.iid = 0x4 ∨ empty.iid = 0xC) ∧
    empty.rxSlot = .active (rxIrq 0 0) ∧ (rxIrq 0 0).done = (rxIrq 0 0).len :=
  ⟨⟨by decide, by decide, by decide, by decide, by decide, Slot.ok_idle,
    Slot.ok_active ⟨by decide, by decide, by decide, by decide, by decide⟩, by decide, by decide, by decide, by decide, by decide,
    by decide⟩, by decide, by decide, by decide, by decide, by decide⟩

theorem witness_HandlerReportsALineError :
    erring.Inv ∧ (on erring).uart? 0 = some erring ∧ erring.irqMasked = false ∧ erring.iid = 0x6 ∧
    erring.rxSlot = .active (rxIrq 64 0) := ⟨erring_inv, by decide, by decide, by decide, by decide⟩

/-- Each source with no transfer that owns it. -/
theorem witness_HandlerSilencesAnUnownedSource :
    let tx := { cfg0 with ier := 0x82 }
    let rx := { cfg0 with ier := 0x81, rxFifo := List.replicate 8 (good 1) }
    let ct := { cfg0 with ier := 0x81, rxFifo := [good 1], cto := true }
    let ls := { cfg0 with ier := 0x84, latOe := true }
    (tx.iid = 0x2 ∧ tx.txSlot.ownedBy .irq = none ∧ tx.dlab = false ∧ tx.irqMasked = false ∧ (on tx).uart? 0 = some tx) ∧
    (rx.iid = 0x4 ∧ rx.rxSlot.ownedBy .irq = none ∧ rx.dlab = false ∧ rx.irqMasked = false ∧ (on rx).uart? 0 = some rx) ∧
    (ct.iid = 0xC ∧ ct.rxSlot.ownedBy .irq = none ∧ ct.dlab = false ∧ ct.irqMasked = false ∧ (on ct).uart? 0 = some ct) ∧
    (ls.iid = 0x6 ∧ ls.rxSlot.ownedBy .irq = none ∧ ls.dlab = false ∧ ls.irqMasked = false ∧ (on ls).uart? 0 = some ls) := by decide

/-! #### DMA and line -/

theorem witness_DmaChannelConfigBinds : (on cfg0).uart? 0 = some cfg0 ∧ 1 < (2 : Word32) := by decide

/-- Operands at the bound, with a binding and without; operands beyond it. -/
theorem witness_DmaStartArmsTheChannel :
    (on cfg0).uart? 0 = some cfg0 ∧ cfg0.txBind = .unconfigured ∧ cfg0.rxBind = .unconfigured ∧
    ¬ ((0x8000 : Word32) = 0 ∨ (3 : Word32) = 0 ∨ 2 ^ 32 < (0x8000 : Word32).toNat + (4096 : Word32).toNat ∨ 4096 < (4096 : Word32).toNat) ∧
    4096 < (4097 : Word32).toNat ∧ (dmaWriting 3 1).txBind = .configured 0 3 ∧ (dmaReading 2 0 []).rxBind = .configured 0 5 ∧
    (on (dmaWriting 3 1)).uart? 0 = some (dmaWriting 3 1) ∧ (on (dmaReading 2 0 [])).uart? 0 = some (dmaReading 2 0 []) := by decide

theorem witness_DmaTerminateCancelsOnce :
    (on (dmaWriting 3 1)).uart? 0 = some (dmaWriting 3 1) ∧ (dmaWriting 3 1).txSlot = .active (txDma 3 1) ∧
    (txDma 3 1).engine = .dma ∧ (dmaWriting 3 1).txBind = .configured 0 3 ∧
    (on (dmaReading 2 0 [])).uart? 0 = some (dmaReading 2 0 []) ∧ (dmaReading 2 0 []).rxSlot = .active (rxDma 2 0) ∧
    (rxDma 2 0).engine = .dma ∧ (dmaReading 2 0 []).rxBind = .configured 0 5 := by decide

theorem witness_DmaTerminateCancelsOnce_other :
    (on (writing 20 8)).uart? 0 = some (writing 20 8) ∧ (∀ t, (writing 20 8).txSlot = .active t → t.engine = .irq) ∧
    (∀ t, (writing 20 8).rxSlot = .active t → t.engine = .irq) := ⟨by decide, fun _ h => by cases h; rfl, nofun⟩

theorem witness_DmaBeatSendsOneByte :
    (onMem (dmaWriting 3 2) [(0x8002, 9)]).uart? 0 = some (dmaWriting 3 2) ∧ (dmaWriting 3 2).dlab = false ∧
    (dmaWriting 3 2).txSlot = .active (txDma 3 2) ∧ (txDma 3 2).engine = .dma ∧ (txDma 3 2).done < (txDma 3 2).len ∧
    (dmaWriting 3 2).txCount < (dmaWriting 3 2).depth ∧
    memRead (onMem (dmaWriting 3 2) [(0x8002, 9)]).mem ((txDma 3 2).buf + (txDma 3 2).done) = some 9 := by decide

theorem witness_DmaBeatStoresOneByte :
    (on (dmaReading 2 0 [good 0x11])).uart? 0 = some (dmaReading 2 0 [good 0x11]) ∧ (dmaReading 2 0 [good 0x11]).dlab = false ∧
    (dmaReading 2 0 [good 0x11]).rxSlot = .active (rxDma 2 0) ∧ (rxDma 2 0).engine = .dma ∧ (rxDma 2 0).done < (rxDma 2 0).len ∧
    (dmaReading 2 0 [good 0x11]).rxFifo = good 0x11 :: [] := by decide

theorem witness_DmaDoneEndsTheTransfer :
    (on (dmaWriting 3 3)).uart? 0 = some (dmaWriting 3 3) ∧ (txDma 3 3).engine = .dma ∧
    (dmaWriting 3 3).txSlot = .active (txDma 3 3) ∧ (txDma 3 3).done = (txDma 3 3).len ∧
    (on (dmaReading 2 2 [])).uart? 0 = some (dmaReading 2 2 []) ∧ (rxDma 2 2).engine = .dma ∧
    (dmaReading 2 2 []).rxSlot = .active (rxDma 2 2) ∧ (rxDma 2 2).done = (rxDma 2 2).len := by decide

/-- The last place in the FIFO, and none left. -/
theorem witness_LineRxReceivesACharacter :
    (on cfg0).uart? 0 = some cfg0 ∧ ({ cfg0 with rxFifo := List.replicate 15 (good 1) } : Uart).rxCount < cfg0.depth ∧
    ¬ ({ cfg0 with rxFifo := List.replicate 16 (good 1) } : Uart).rxCount < cfg0.depth := by decide

theorem witness_LineTxLoadTakesTheOldestByte :
    let u := { cfg0 with txFifo := [0x48] }
    (on u).uart? 0 = some u ∧ u.txFifo = 0x48 :: [] ∧ u.shifter = .idle ∧ u.mcr.getLsbD 5 = false ∧
    cfg0.txFifo = [] ∧ ({ u with mcr := 0x22 } : Uart).mcr.getLsbD 5 = true ∧ ({ u with mcr := 0x22 } : Uart).ctsIn = false := by
  decide

/-- The four word lengths; legal codes and formats at the bounds of the table of 30_encoding.md R106, and each case of parity and stop
bits. -/
theorem witness_WordMaskFollowsTheWordLength :
    ((0x00 : Byte) &&& 0x03 = 0 ∧ (0x1D : Byte) &&& 0x03 = 1 ∧ (0x02 : Byte) &&& 0x03 = 2 ∧ (0x1F : Byte) &&& 0x03 = 3) ∧
    lcValid 0x00 = true ∧ lcValid 0x1F = true ∧
    ({ dataBits := 5, parity := .none, stop := .oneAndHalf } : LineFormat).valid = true ∧
    ({ dataBits := 8, parity := .even, stop := .two } : LineFormat).valid = true ∧
    (0x1C#5).getLsbD 3 = true ∧ (0x1C#5).getLsbD 4 = true ∧ (0x1C#5).getLsbD 2 = true ∧ (0x1C#5).toNat % 4 = 0 ∧
    (0x0F#5).getLsbD 3 = true ∧ (0x0F#5).getLsbD 4 = false ∧ (0x0F#5).getLsbD 2 = true ∧ (0x0F#5).toNat % 4 ≠ 0 ∧
    (0x03#5).getLsbD 3 = false ∧ (0x03#5).getLsbD 2 = false := by decide

theorem witness_LineDoneTimeoutAndCts :
    let b := { cfg0 with shifter := .busy 0x48 }
    (on b).uart? 0 = some b ∧ b.shifter = .busy 0x48 ∧ (on cfg0).uart? 0 = some cfg0 ∧ cfg0.shifter = .idle ∧ cfg0.rxFifo = [] ∧
    let c := { cfg0 with rxFifo := [good 1] }
    (on c).uart? 0 = some c ∧ c.fifoe = true ∧ c.rxFifo ≠ [] ∧ c.cto = false := by decide

/-- An event of instance 2, a masked instance, a quiet one, a direction above 1, and transfers that no beat or notification moves. -/
theorem witness_DisabledEventsChangeNothing :
    (Instr.irq 2).isCommand = false ∧ (on cfg0).uarts.length ≤ (Instr.irq 2).inst.toNat ∧
    (on Uart.reset).uart? 0 = some Uart.reset ∧ Uart.reset.irqMasked = true ∧ (on cfg0).uart? 0 = some cfg0 ∧ cfg0.iid = 0x1 ∧
    1 < (2 : BitVec 8) ∧ cfg0.txSlot.ownedBy .dma = none ∧ cfg0.rxSlot.ownedBy .dma = none ∧
    (dmaWriting 3 3).txSlot = .active (txDma 3 3) ∧ (txDma 3 3).len ≤ (txDma 3 3).done ∧ (txDma 3 1).done ≠ (txDma 3 1).len ∧
    (dmaReading 2 0 []).rxSlot = .active (rxDma 2 0) ∧ (dmaReading 2 0 []).rxFifo = [] ∧ (rxDma 2 0).done ≠ (rxDma 2 0).len := by
  decide

/-- A beat with its byte unwritten, a service with its first byte unwritten, and one with seven bytes written and the eighth not. -/
theorem witness_UnwrittenByteFaults :
    (on (dmaWriting 3 1)).uart? 0 = some (dmaWriting 3 1) ∧ memRead (on (dmaWriting 3 1)).mem (0x8000 + 1) = none ∧
    (txDma 3 1).done < (txDma 3 1).len ∧ (dmaWriting 3 1).txSlot = .active (txDma 3 1) ∧ (txDma 3 1).engine = .dma ∧
    (dmaWriting 3 1).txCount < (dmaWriting 3 1).depth ∧
    (on (writing 20 8)).uart? 0 = some (writing 20 8) ∧ memRead (on (writing 20 8)).mem (0x1000 + 8) = none ∧
    (writing 20 8).txSlot = .active (txIrq 20 8) ∧ (txIrq 20 8).engine = .irq ∧
    (writing 20 8).irqMasked = false ∧ (writing 20 8).iid = 0x2 ∧
    7 < min 8 ((20 : Word32).toNat - (8 : Word32).toNat) ∧ holdsBytes (buffer.take 7) (0x1000 + 8) (List.replicate 7 0x38#8) ∧
    memRead (buffer.take 7) (0x1000 + 8 + 7) = none :=
  ⟨by decide, by decide, by decide, by decide, by decide, by decide, by decide, by decide, by decide, by decide, by decide, by decide,
    by decide, ⟨rfl, rfl, rfl, rfl, rfl, rfl, rfl, trivial⟩, rfl⟩

theorem witness_LoopbackReturnsTheCharacter :
    (on cfg0).uart? 0 = some cfg0 ∧ cfg0.dlab = false ∧ (on cfg0).active ∉ (on cfg0).callbacks ∧ cfg0.txFifo = [] ∧ cfg0.rxFifo = [] ∧
    cfg0.shifter = .idle ∧ cfg0.lineErr = false ∧ cfg0.afce = false := by decide

/-- Both sides of each condition. -/
theorem witness_DerivedSignalsAreAssembled :
    cfg0.fifoe = true ∧ cfg0.ier.getLsbD 7 = true ∧ cfg0.tet = 3 ∧ cfg0.rt = 2 ∧ Uart.reset.fifoe = false ∧
    Uart.reset.ier.getLsbD 7 = false := by decide

end Sys2Proof.Tests
end

section
/-! SUPPORT. Proofs of the statements of 10_state.md. `Uart.Effect` says once everything an instruction can do to the UART it names and
`State.Grows` what it does to the rest of the state; `exec_performs` is the inversion of the whole of `exec`, and the statements about every
instruction are read off it. -/

namespace Sys2Proof.Machine

/-! ### What the register accesses leave: slots, wire logs, latches -/

theorem Uart.slot_setSlot (u : Uart) (d e : Dir) (x : Slot) : (u.setSlot d x).slot e = if e = d then x else u.slot e := by
  cases d <;> cases e <;> rfl

@[simp] theorem Uart.slot_setBind (u : Uart) (d e : Dir) (x : DmaBinding) : (u.setBind d x).slot e = u.slot e := by
  cases d <;> cases e <;> rfl

@[simp] theorem Uart.slot_readLsr (u : Uart) (d : Dir) : u.readLsr.2.slot d = u.slot d := by cases d <;> rfl

@[simp] theorem Uart.slot_regRead_data (k : Nat) (u : Uart) (d : Dir) : (u.regRead k .data).2.slot d = u.slot d := by
  obtain ⟨_, _, _, _, _, h, -⟩ := regRead_data_changes k u
  rw [h]; cases d <;> rfl

@[simp] theorem Uart.slot_regWrite_data (b : Byte) (u : Uart) (d : Dir) : (u.regWrite .data b).slot d = u.slot d := by
  obtain ⟨_, _, h, -⟩ := regWrite_data_changes b u
  rw [h]; cases d <;> rfl

@[simp] theorem Uart.slot_ierSet (k : Nat) (m : Byte) (u : Uart) (d : Dir) : (u.ierSet k m).slot d = u.slot d := by
  obtain ⟨_, _, h⟩ := ierSet_changes k m u
  rw [h]; cases d <;> rfl

@[simp] theorem Uart.slot_ierClear (k : Nat) (m : Byte) (u : Uart) (d : Dir) : (u.ierClear k m).slot d = u.slot d := by
  obtain ⟨_, _, h⟩ := ierClear_changes k m u
  rw [h]; cases d <;> rfl

@[simp] theorem Uart.wireLog_setSlot (d : Dir) (x : Slot) (u : Uart) : (u.setSlot d x).wireLog = u.wireLog := by
  cases d <;> rfl

@[simp] theorem Uart.wireLog_setBind (d : Dir) (x : DmaBinding) (u : Uart) : (u.setBind d x).wireLog = u.wireLog := by
  cases d <;> rfl

@[simp] theorem Uart.wireLog_regRead_data (k : Nat) (u : Uart) : (u.regRead k .data).2.wireLog = u.wireLog := by
  obtain ⟨_, _, _, _, _, h, -⟩ := regRead_data_changes k u
  rw [h]

@[simp] theorem Uart.wireLog_regWrite_data (b : Byte) (u : Uart) : (u.regWrite .data b).wireLog = u.wireLog := by
  obtain ⟨_, _, h, -⟩ := regWrite_data_changes b u
  rw [h]

@[simp] theorem Uart.wireLog_ierSet (k : Nat) (m : Byte) (u : Uart) : (u.ierSet k m).wireLog = u.wireLog := by
  obtain ⟨_, _, h⟩ := ierSet_changes k m u
  rw [h]

@[simp] theorem Uart.wireLog_ierClear (k : Nat) (m : Byte) (u : Uart) : (u.ierClear k m).wireLog = u.wireLog := by
  obtain ⟨_, _, h⟩ := ierClear_changes k m u
  rw [h]

/-- A latch that is set is still set. -/
def Uart.KeepsLatches (u v : Uart) : Prop :=
  (u.latOe = true → v.latOe = true) ∧ (u.latPe = true → v.latPe = true) ∧
  (u.latFe = true → v.latFe = true) ∧ (u.latBi = true → v.latBi = true)

namespace Uart.KeepsLatches
variable {u v w : Uart}

theorem refl (u : Uart) : u.KeepsLatches u := ⟨id, id, id, id⟩

theorem trans (h : u.KeepsLatches v) (h' : v.KeepsLatches w) : u.KeepsLatches w := by
  obtain ⟨ho, hp, hf, hb⟩ := h
  obtain ⟨ho', hp', hf', hb'⟩ := h'
  exact ⟨ho' ∘ ho, hp' ∘ hp, hf' ∘ hf, hb' ∘ hb⟩

end Uart.KeepsLatches

theorem Uart.keepsLatches_setSlot (d : Dir) (x : Slot) (u : Uart) : u.KeepsLatches (u.setSlot d x) := by
  cases d <;> exact .refl u

theorem Uart.keepsLatches_regRead_data (k : Nat) (u : Uart) : u.KeepsLatches (u.regRead k .data).2 := by
  obtain ⟨_, _, _, _, _, h, -, -, hp, hf, hb⟩ := regRead_data_changes k u
  rw [h]; exact ⟨id, hp, hf, hb⟩

theorem Uart.keepsLatches_regWrite_data (b : Byte) (u : Uart) : u.KeepsLatches (u.regWrite .data b) := by
  obtain ⟨_, _, h, -⟩ := regWrite_data_changes b u
  rw [h]; exact .refl u

theorem Uart.keepsLatches_ierSet (k : Nat) (m : Byte) (u : Uart) : u.KeepsLatches (u.ierSet k m) := by
  obtain ⟨_, _, h⟩ := ierSet_changes k m u
  rw [h]; exact .refl u

theorem Uart.keepsLatches_ierClear (k : Nat) (m : Byte) (u : Uart) : u.KeepsLatches (u.ierClear k m) := by
  obtain ⟨_, _, h⟩ := ierClear_changes k m u
  rw [h]; exact .refl u

/-- The drain loop reads no LSR: a latch that is set stays set (10_state.md R29). -/
theorem rxDrain_keepsLatches (k : Nat) : ∀ (j : Nat) (m : Memory) (t : Transfer) (u : Uart),
    u.KeepsLatches (rxDrain k j m t u).2.2
  | 0, _, _, _ => .refl _
  | j + 1, m, t, u => by
    unfold rxDrain
    split
    · exact (u.keepsLatches_regRead_data k).trans (rxDrain_keepsLatches k j _ _ _)
    · exact .refl u

/-- A received character changes at most the RX FIFO, by one entry and only if there is room, and the latches, of which a set one stays
set (42_status_fifo.md R151). -/
theorem Uart.receive_changes (data : Byte) (pe fe bi : Bool) (u : Uart) : ∃ rx oe pe' fe' bi',
    u.receive data pe fe bi = { u with rxFifo := rx, latOe := oe, latPe := pe', latFe := fe', latBi := bi' } ∧
    u.rxFifo.length ≤ rx.length ∧ (u.rxCount ≤ u.depth → rx.length ≤ u.depth) ∧
    u.KeepsLatches { u with latOe := oe, latPe := pe', latFe := fe', latBi := bi' } := by
  unfold Uart.receive
  split
  · next hroom =>
    have hroom' : u.rxFifo.length + 1 ≤ u.depth := hroom
    dsimp only
    split
    · rw [exposeHead_eq]
      refine ⟨_, u.latOe, _, _, _, rfl, by simp, fun _ => by simpa using hroom', ?_⟩
      exact ⟨id, fun h => by simp [h], fun h => by simp [h], fun h => by simp [h]⟩
    · exact ⟨_, u.latOe, u.latPe, u.latFe, u.latBi, rfl, by simp, fun _ => by simpa using hroom', .refl u⟩
  · exact ⟨u.rxFifo, true, u.latPe, u.latFe, u.latBi, rfl, le_rfl, id, fun _ => rfl, id, id, id⟩

@[simp] theorem Uart.slot_receive (data : Byte) (pe fe bi : Bool) (u : Uart) (d : Dir) :
    (u.receive data pe fe bi).slot d = u.slot d := by
  obtain ⟨_, _, _, _, _, h, -⟩ := u.receive_changes data pe fe bi
  rw [h]; cases d <;> rfl

@[simp] theorem Uart.wireLog_receive (data : Byte) (pe fe bi : Bool) (u : Uart) :
    (u.receive data pe fe bi).wireLog = u.wireLog := by
  obtain ⟨_, _, _, _, _, h, -⟩ := u.receive_changes data pe fe bi
  rw [h]

/-! ### The end of a transfer, as its UART sees it -/

/-- The interrupt enables of a direction: THRE for TX, RXAV and LS for RX (44_irq.md R186, R190). -/
def irqEnables : Dir → Byte
  | .tx => 0x02
  | .rx => 0x05

/-- The end of an interrupt-driven transfer as the UART sees it: its enables are cleared and its slot is Idle. -/
def Uart.endIrq (k : Nat) (d : Dir) (u : Uart) : Uart := (u.ierClear k (irqEnables d)).setSlot d .idle

/-- The slot after a service that left the transfer at `t`: ended once `done = len` (44_irq.md R202, R204). -/
def Uart.afterService (k : Nat) (d : Dir) (t : Transfer) (u : Uart) : Uart :=
  if t.done = t.len then (u.setSlot d (.active t)).endIrq k d else u.setSlot d (.active t)

theorem Uart.slot_endIrq (k : Nat) (d e : Dir) (u : Uart) : (u.endIrq k d).slot e = if e = d then .idle else u.slot e := by
  simp [Uart.endIrq, Uart.slot_setSlot]

theorem Uart.slot_afterService (k : Nat) (d e : Dir) (t : Transfer) (u : Uart) :
    (u.afterService k d t).slot e = if e = d then (if t.done = t.len then .idle else .active t) else u.slot e := by
  unfold Uart.afterService
  by_cases hd : t.done = t.len <;> by_cases he : e = d <;> simp [hd, he, Uart.slot_endIrq, Uart.slot_setSlot]

@[simp] theorem Uart.wireLog_endIrq (k : Nat) (d : Dir) (u : Uart) : (u.endIrq k d).wireLog = u.wireLog := by
  simp [Uart.endIrq]

@[simp] theorem Uart.wireLog_afterService (k : Nat) (d : Dir) (t : Transfer) (u : Uart) :
    (u.afterService k d t).wireLog = u.wireLog := by
  unfold Uart.afterService
  split <;> simp

theorem Uart.keepsLatches_endIrq (k : Nat) (d : Dir) (u : Uart) : u.KeepsLatches (u.endIrq k d) :=
  (u.keepsLatches_ierClear k _).trans (Uart.keepsLatches_setSlot ..)

theorem Uart.KeepsLatches.afterService {u v : Uart} (h : u.KeepsLatches v) (k : Nat) (d : Dir) (t : Transfer) :
    u.KeepsLatches (v.afterService k d t) := by
  unfold Uart.afterService
  split
  · exact (h.trans (v.keepsLatches_setSlot ..)).trans (Uart.keepsLatches_endIrq ..)
  · exact h.trans (v.keepsLatches_setSlot ..)

/-- Finish on the Active slot of a UART leaves that slot Idle and touches no other UART (46_callback.md R235). -/
theorem finish_uarts {c : Context} {n : Inst} {d : Dir} {err : Word32} {st : StatusFlags} {k : Word32} {s : State} {u : Uart}
    {t : Transfer} {e : Engine} (hu : s.uart? n = some u) (ht : (u.slot d).ownedBy e = some t) :
    (finish c n d err st k s).uarts = s.uarts.set n.toNat (u.setSlot d .idle) := by
  rw [finish_active err st k hu (Slot.ownedBy_eq_some.mp ht).1]
  rfl

/-- The same after the UART was written. -/
theorem finish_setUart_uarts {c : Context} {n : Inst} {d : Dir} {err : Word32} {st : StatusFlags} {k : Word32} {s : State}
    {u v : Uart} {t : Transfer} {e : Engine} (hu : s.uart? n = some u) (ht : (v.slot d).ownedBy e = some t) :
    (finish c n d err st k (s.setUart n v)).uarts = s.uarts.set n.toNat (v.setSlot d .idle) := by
  rw [finish_uarts (State.uart?_setUart_self hu) ht, State.setUart_uarts, List.set_set]

theorem emitDisarm_uarts (n : Inst) (d : Dir) (b : DmaBinding) (s : State) : (emitDisarm n d b s).uarts = s.uarts := by
  cases b <;> rfl

/-! ### What an instruction does to the UART it names -/

/-- Every change an instruction can make to the UART it names, with what was true then; `k` is what the free values are applied
to. The instruction is named where it matters which one it was. -/
inductive Uart.Effect (k : Nat) (i : Instr) (u : Uart) : Uart → Prop
  | configure {lc div fc ie} (hi : i.code = 0x01) (hl : lcValid lc = true) :
    Effect k i u { configSequence k lc div fc ie u with
      cfg := { lineControl := lc, baudDivisor := div, hwFc := fc, intEn := ie } }
  | threshold {p} (hi : i.code = 0x11) : Effect k i u (({ u with thrPreset := p } : Uart).writeFcr (fcrValue p))
  | readLsr (hi : i = .getStatus i.inst) : Effect k i u u.readLsr.2
  | readLsrThenData (hi : i = .read i.inst) : Effect k i u (u.readLsr.2.regRead k .data).2
  | readData : Effect k i u (u.regRead k .data).2
  | writeData {b} : Effect k i u (u.regWrite .data b)
  | bindDma {d c h} (hs : u.slot d = .idle) : Effect k i u (u.setBind d (.configured c h))
  | startIrq {d t} (hi : startsTransfer i i.inst d = true) (hs : u.slot d = .idle) (ht : t.Ok) (he : t.engine = .irq) :
    Effect k i u ((u.setSlot d (.active t)).ierSet k (irqEnables d))
  | startDma {d t c h} (hi : startsTransfer i i.inst d = true) (hs : u.slot d = .idle) (ht : t.Ok) (he : t.engine = .dma)
    (hb : u.bind d = .configured c h) : Effect k i u (u.setSlot d (.active t))
  | endIrq {d t} (hs : (u.slot d).ownedBy .irq = some t) : Effect k i u (u.endIrq k d)
  | endDma {d t} (hs : (u.slot d).ownedBy .dma = some t) : Effect k i u (u.setSlot d .idle)
  | clearStrayEnables {d} (hs : (u.slot d).ownedBy .irq = none) : Effect k i u (u.ierClear k (irqEnables d))
  | serviceTx {t done tx dll} (hs : (u.slot .tx).ownedBy .irq = some t) (hd : t.done ≤ t.len → done ≤ t.len)
    (hdll : u.dlab = false → dll = u.dll) (hroom : u.txCount ≤ u.depth → tx.length ≤ u.depth) :
    Effect k i u (({ u with txFifo := tx, dll := dll } : Uart).afterService k .tx { t with done := done })
  | serviceRx {t done rx cto pe fe bi} (hs : (u.slot .rx).ownedBy .irq = some t) (hd : t.done ≤ t.len → done ≤ t.len)
    (hl : rx.length ≤ u.rxFifo.length) (hcto : cto = true → u.cto = true ∧ rx = u.rxFifo)
    (hlat : u.KeepsLatches { u with rxFifo := rx, cto := cto, latPe := pe, latFe := fe, latBi := bi }) :
    Effect k i u (({ u with rxFifo := rx, cto := cto, latPe := pe, latFe := fe, latBi := bi } : Uart).afterService k .rx
      { t with done := done })
  | clearStrayLineStatus (hi : i = .irq i.inst) (h6 : u.iid = 0x6) (hs : (u.slot .rx).ownedBy .irq = none) :
    Effect k i u (u.readLsr.2.ierClear k 0x04)
  | lineError {t} (hi : i = .irq i.inst) (h6 : u.iid = 0x6) (hs : (u.slot .rx).ownedBy .irq = some t) :
    Effect k i u (u.readLsr.2.endIrq k .rx)
  | beatTx {t b} (hs : (u.slot .tx).ownedBy .dma = some t) (hd : t.done < t.len) :
    Effect k i u ((u.regWrite .data b).setSlot .tx (.active { t with done := t.done + 1 }))
  | beatRx {t} (hs : (u.slot .rx).ownedBy .dma = some t) (hd : t.done < t.len) :
    Effect k i u ((u.regRead k .data).2.setSlot .rx (.active { t with done := t.done + 1 }))
  | receive {data pe fe bi} : Effect k i u (u.receive data pe fe bi)
  | loadShifter {b rest} (hf : u.txFifo = b :: rest) :
    Effect k i u { u with txFifo := rest, shifter := .busy (b &&& u.wordMask) }
  | sendShifter {b} (hs : u.shifter = .busy b) : Effect k i u { u with wireLog := u.wireLog ++ [b], shifter := .idle }
  | timeout (he : u.ctoEnabled = true) : Effect k i u { u with cto := true }
  | clearToSend {level} : Effect k i u { u with ctsIn := level }

/-! ### What an instruction does to the rest of the state -/

/-- What no instruction changes, and what it only extends: the traces, the responses and the running callbacks (10_state.md R50,
R52). -/
structure State.Grows (s t : State) : Prop where
  params : t.params = s.params
  turns : t.turns = s.turns
  presented : t.presented = s.presented
  active : t.active = s.active
  freeCount : t.freeCount = s.freeCount
  cbLog : ∃ l, t.cbLog = s.cbLog ++ l
  dmaLog : ∃ l, t.dmaLog = s.dmaLog ++ l
  responses : ∃ l, t.responses = s.responses ++ l
  callbacks : ∃ l, t.callbacks = l ++ s.callbacks

namespace State.Grows
variable {s t : State}

theorem refl (s : State) : s.Grows s :=
  ⟨rfl, rfl, rfl, rfl, rfl, ⟨[], by simp⟩, ⟨[], by simp⟩, ⟨[], by simp⟩, ⟨[], rfl⟩⟩

theorem trans {r : State} (h : s.Grows t) (h' : t.Grows r) : s.Grows r where
  params := h'.params.trans h.params
  turns := h'.turns.trans h.turns
  presented := h'.presented.trans h.presented
  active := h'.active.trans h.active
  freeCount := h'.freeCount.trans h.freeCount
  cbLog := let ⟨l, e⟩ := h.cbLog; let ⟨l', e'⟩ := h'.cbLog; ⟨l ++ l', by rw [e', e, List.append_assoc]⟩
  dmaLog := let ⟨l, e⟩ := h.dmaLog; let ⟨l', e'⟩ := h'.dmaLog; ⟨l ++ l', by rw [e', e, List.append_assoc]⟩
  responses := let ⟨l, e⟩ := h.responses; let ⟨l', e'⟩ := h'.responses; ⟨l ++ l', by rw [e', e, List.append_assoc]⟩
  callbacks := let ⟨l, e⟩ := h.callbacks; let ⟨l', e'⟩ := h'.callbacks; ⟨l' ++ l, by rw [e', e, List.append_assoc]⟩

theorem setUart {i : Inst} {u : Uart} (h : s.Grows t) : s.Grows (t.setUart i u) := { h with }

theorem setMem {m : Memory} (h : s.Grows t) : s.Grows { t with mem := m } := { h with }

theorem hold {i : Instr} {k : Word32} (h : s.Grows t) : s.Grows (t.hold i k) := { h with }

theorem respond {r v w : Word32} (h : s.Grows t) : s.Grows (t.respond r v w) :=
  { h with responses := let ⟨l, e⟩ := h.responses; ⟨l ++ [(t.active, ⟨r, v, w⟩)], by simp [e]⟩ }

theorem emitDma {r : DmaRecord} (h : s.Grows t) : s.Grows (t.emitDma r) :=
  { h with dmaLog := let ⟨l, e⟩ := h.dmaLog; ⟨l ++ [r], by simp [e]⟩ }

theorem emitDisarm {n : Inst} {d : Dir} {b : DmaBinding} (h : s.Grows t) : s.Grows (emitDisarm n d b t) := by
  cases b
  · exact h
  · exact h.emitDma

theorem dispatch {c : Context} {n : Inst} {d : Dir} {cb ctx err : Word32} {st : StatusFlags} {k : Word32} (h : s.Grows t) :
    s.Grows (dispatch c n d cb ctx err st k t) :=
  { h with
    cbLog := let ⟨l, e⟩ := h.cbLog; ⟨l ++ [⟨n, d, cb, ctx, err, st, k⟩], by simp [e]⟩
    callbacks := let ⟨l, e⟩ := h.callbacks; ⟨c :: l, by simp [e]⟩ }

theorem finish {c : Context} {n : Inst} {d : Dir} {err : Word32} {st : StatusFlags} {k : Word32} (h : s.Grows t) :
    s.Grows (finish c n d err st k t) := by
  unfold Machine.finish
  repeat' split
  · exact h
  · exact h
  · exact h.setUart.dispatch

end State.Grows

/-- An instruction extends the traces, and changes at most the UART it names, by one of the effects above. -/
structure State.Performs (s : State) (i : Instr) (s' : State) : Prop where
  grows : s.Grows s'
  uarts : s'.uarts = s.uarts ∨
    ∃ u v, s.uart? i.inst = some u ∧ u.Effect s.freeCount i v ∧ s'.uarts = s.uarts.set i.inst.toNat v

namespace State.Performs
variable {s s' : State} {i : Instr} {u v : Uart}

theorem nothing : s.Performs i s := ⟨.refl s, .inl rfl⟩

theorem respond {r v w : Word32} : s.Performs i (s.respond r v w) := ⟨(State.Grows.refl s).respond, .inl rfl⟩

theorem hold {j : Instr} {k : Word32} : s.Performs i (s.hold j k) := ⟨(State.Grows.refl s).hold, .inl rfl⟩

theorem effect (hu : s.uart? i.inst = some u) (e : u.Effect s.freeCount i v) (hg : s.Grows s')
    (h : s'.uarts = s.uarts.set i.inst.toNat v) : s.Performs i s' := ⟨hg, .inr ⟨u, v, hu, e, h⟩⟩

end State.Performs

/-- A UART after an instruction is as before, or it is the one named, after one of the effects. -/
theorem State.Performs.uart?_cases {s s' : State} {i : Instr} (h : s.Performs i s') {n : Inst} {v : Uart}
    (hv : s'.uart? n = some v) :
    s.uart? n = some v ∨ ∃ u, n = i.inst ∧ s.uart? n = some u ∧ u.Effect s.freeCount i v := by
  rcases h.uarts with he | ⟨u, w, hu, heff, he⟩
  · exact .inl (by rw [← hv, State.uart?, State.uart?, he])
  · have hs' : s'.uart? n = (s.setUart i.inst w).uart? n := by rw [State.uart?, State.uart?, he]; rfl
    rw [hs'] at hv
    by_cases hn : n = i.inst
    · subst hn
      rw [State.uart?_setUart_self hu] at hv
      cases hv
      exact .inr ⟨u, rfl, hu, heff⟩
    · exact .inl (by rw [← hv, State.uart?_setUart_ne hn])

/-! ### Every instruction performs -/

/-- What the operand checks of a start command admit is a transfer that meets the slot invariant (44_irq.md R185, 45_dma.md R219). -/
theorem Transfer.ok_of_start {e : Engine} {buf len cb : Word32} (ctx : Word32) (h : startOperandsBad buf len cb = false)
    (hl : e = .dma → len.toNat ≤ dmaMaxLen) :
    Transfer.Ok { engine := e, buf := buf, len := len, done := 0, cb := cb, ctx := ctx } := by
  simp only [startOperandsBad_eq, decide_eq_false_iff_not, not_or] at h
  obtain ⟨hb, hc, hr⟩ := h
  exact ⟨hb, hc, by simpa using hr, BitVec.le_def.mpr (Nat.zero_le _), hl⟩

/-- Counting `j` more bytes does not overflow while they are within the length. -/
theorem done_add_le {x y : Word32} {j : Nat} (h : x.toNat + j ≤ y.toNat) : x + BitVec.ofNat 32 j ≤ y := by
  rw [BitVec.le_def, BitVec.toNat_add, BitVec.toNat_ofNat, Nat.add_mod_mod]
  exact (Nat.mod_le _ _).trans h

/-- A service of at most `len - done` bytes keeps `done <= len`. -/
theorem done_add_min_le {x y : Word32} (c : Nat) (h : x ≤ y) : x + BitVec.ofNat 32 (min c (y.toNat - x.toNat)) ≤ y := by
  rw [BitVec.le_def] at h
  exact done_add_le (by omega)

section
variable {s s' : State} {i : Instr} {n : Inst} {d : Dir} {buf len cb ctx : Word32}

theorem startIrq_performs (hn : i.inst = n) (hi : startsTransfer i n d = true)
    (h : startIrq d (irqEnables d) n buf len cb ctx s = .next s') : s.Performs i s' := by
  subst hn
  rcases startIrq_next h with rfl | ⟨-, -, -, rfl⟩ | ⟨u, hu, hs, hok, rfl⟩
  · exact .respond
  · exact .respond
  · exact .effect hu (.startIrq hi hs (Transfer.ok_of_start (e := .irq) ctx hok (by simp)) rfl) (State.Grows.refl s).setUart.respond rfl

theorem startDma_performs (hn : i.inst = n) (hi : startsTransfer i n d = true)
    (h : startDma d n buf len cb ctx s = .next s') : s.Performs i s' := by
  subst hn
  rcases startDma_next h with rfl | ⟨u, hu, ⟨-, rfl⟩ | ⟨-, rfl⟩ | ⟨c, k, hb, hs, hok, hlen, rfl⟩⟩
  · exact .respond
  · exact .respond
  · exact .respond
  · exact .effect hu (.startDma hi hs (Transfer.ok_of_start ctx hok fun _ => hlen) rfl hb)
      (State.Grows.refl s).setUart.emitDma.respond rfl

theorem terminateIrq_performs (hn : i.inst = n) (h : terminateIrq d (irqEnables d) n s = .next s') : s.Performs i s' := by
  subst hn
  rcases terminateIrq_next h with rfl | rfl | ⟨u, t, hu, ht, rfl⟩
  · exact .respond
  · exact .respond
  · exact .effect hu (.endIrq ht) (State.Grows.refl s).setUart.finish.respond
      (finish_setUart_uarts hu (by simpa using ht))

theorem terminateDma_performs (hn : i.inst = n) (h : terminateDma d n s = .next s') : s.Performs i s' := by
  subst hn
  rcases terminateDma_next h with rfl | rfl | ⟨u, t, hu, ht, rfl⟩
  · exact .respond
  · exact .respond
  · have hu' : (emitDisarm i.inst d (u.bind d) s).uart? i.inst = some u := by
      rw [State.uart?, emitDisarm_uarts]; exact hu
    refine .effect hu (.endDma ht) (State.Grows.refl s).emitDisarm.finish.respond ?_
    rw [State.respond_uarts, finish_uarts hu' ht, emitDisarm_uarts]

/-- What both transfer services leave: the transfer goes on at `t`, or Finish has ended it (44_irq.md R202, R204). -/
theorem service_settles {r : State} {u v : Uart} {t : Transfer} {k : Nat} (hu : r.uart? n = some u) (he : t.engine = .irq)
    (h : (t.done = t.len ∧
        s' = finish .interrupt n d 0 0 t.len (r.setUart n ((v.setSlot d (.active t)).ierClear k (irqEnables d)))) ∨
      (t.done ≠ t.len ∧ s' = r.setUart n (v.setSlot d (.active t)))) :
    r.Grows s' ∧ s'.uarts = r.uarts.set n.toNat (v.afterService k d t) := by
  rcases h with ⟨hd, rfl⟩ | ⟨hd, rfl⟩
  · rw [Uart.afterService, if_pos hd]
    refine ⟨(State.Grows.refl r).setUart.finish, finish_setUart_uarts (t := t) (e := .irq) hu ?_⟩
    rw [Uart.slot_ierClear, Uart.slot_setSlot, if_pos rfl]
    exact Slot.ownedBy_eq_some.mpr ⟨rfl, he⟩
  · rw [Uart.afterService, if_neg hd]
    exact ⟨(State.Grows.refl r).setUart, rfl⟩

theorem serviceTx_performs {u : Uart} (hn : i.inst = n) (hu : s.uart? n = some u) (h : serviceTx n u s = .next s') :
    s.Performs i s' := by
  subst hn
  rcases serviceTx_next h with ⟨ht, rfl⟩ | ⟨t, t', u', ht, hr, hs'⟩
  · exact .effect hu (.clearStrayEnables (d := .tx) ht) (State.Grows.refl s).setUart rfl
  · obtain ⟨ht', tx, dll, hu', hdll, hroom⟩ := txRefill_changes _ _ _ _ _ _ hr
    have he : t'.engine = .irq := ht' ▸ (Slot.ownedBy_eq_some.mp ht).2
    have hset := service_settles (v := u') (k := s.freeCount) (d := .tx) hu he hs'
    subst ht' hu'
    exact .effect hu (.serviceTx ht (done_add_min_le txChunk) hdll hroom) hset.1 hset.2

theorem serviceRx_performs {u : Uart} (hn : i.inst = n) (hu : s.uart? n = some u) (h : serviceRx n u s = .next s') :
    s.Performs i s' := by
  subst hn
  rcases serviceRx_next h with ⟨ht, rfl⟩ | ⟨t, m, t', u', ht, hr, hs'⟩
  · exact .effect hu (.clearStrayEnables (d := .rx) ht) (State.Grows.refl s).setUart rfl
  · have hlat := rxDrain_keepsLatches s.freeCount rxDrainMax s.mem t u
    obtain ⟨_, done, rx, cto, pe, fe, bi, hc, hl, hcto, hdone, -⟩ := rxDrain_changes s.freeCount rxDrainMax s.mem t u
    rw [hc] at hr hlat
    obtain ⟨-, ht', hu'⟩ : _ = m ∧ _ = t' ∧ _ = u' := by simpa using hr
    have he : t'.engine = .irq := ht' ▸ (Slot.ownedBy_eq_some.mp ht).2
    have hset := service_settles (r := { s with mem := m }) (v := u') (k := s.freeCount) (d := .rx) hu he hs'
    subst ht' hu'
    exact .effect hu (.serviceRx ht hdone hl hcto hlat) ((State.Grows.refl s).setMem.trans hset.1) hset.2

theorem serviceLineStatus_performs {u : Uart} (hu : s.uart? n = some u) (h6 : u.iid = 0x6)
    (h : serviceLineStatus n u s = .next s') : s.Performs (.irq n) s' := by
  rcases serviceLineStatus_next h with ⟨ht, rfl⟩ | ⟨t, ht, rfl⟩
  · exact .effect hu (.clearStrayLineStatus rfl h6 ht) (State.Grows.refl s).setUart rfl
  · exact .effect hu (.lineError rfl h6 ht) (State.Grows.refl s).setUart.finish
      (finish_setUart_uarts (d := .rx) hu (by rw [Uart.slot_ierClear]; exact ht))

theorem execIrq_performs (h : execIrq n s = .next s') : s.Performs (.irq n) s' := by
  rcases execIrq_next h with rfl | ⟨u, hu, -, ⟨h6, h⟩ | ⟨-, h⟩ | ⟨-, h⟩⟩
  · exact .nothing
  · exact serviceLineStatus_performs hu h6 h
  · exact serviceRx_performs rfl hu h
  · exact serviceTx_performs rfl hu h

theorem execDmaBeat_performs {dir : BitVec 8} (h : execDmaBeat n dir s = .next s') : s.Performs (.dmaBeat n dir) s' := by
  rcases execDmaBeat_next h with rfl | ⟨-, h⟩ | ⟨-, h⟩
  · exact .nothing
  · rcases beatTx_next h with rfl | ⟨u, t, b, hu, ht, hd, -, rfl⟩
    · exact .nothing
    · exact .effect hu (.beatTx ht hd) (State.Grows.refl s).setUart rfl
  · rcases beatRx_next h with rfl | ⟨u, t, hu, ht, hd, -, rfl⟩
    · exact .nothing
    · exact .effect hu (.beatRx ht hd) (State.Grows.refl s).setMem.setUart rfl

theorem execDmaDone_performs {dir : BitVec 8} {ok : Bool} (h : execDmaDone n dir ok s = .next s') :
    s.Performs (.dmaDone n dir ok) s' := by
  rcases execDmaDone_next h with rfl | ⟨d, u, t, hu, ht, ⟨-, rfl⟩ | rfl⟩
  · exact .nothing
  · exact .effect hu (.endDma ht) (State.Grows.refl s).finish (finish_uarts hu ht)
  · exact .effect hu (.endDma ht) (State.Grows.refl s).finish (finish_uarts hu ht)

theorem execDmaChannelConfig_performs {ctrl chan dir : Word32} (h : execDmaChannelConfig n ctrl chan dir s = .next s') :
    s.Performs (.dmaChannelConfig n ctrl chan dir) s' := by
  rcases execDmaChannelConfig_next h with rfl | ⟨u, d, hu, -, ⟨-, rfl⟩ | ⟨-, rfl⟩ | ⟨hs, rfl⟩⟩
  · exact .respond
  · exact .respond
  · exact .respond
  · exact .effect hu (.bindDma hs) (State.Grows.refl s).setUart.emitDma.respond rfl

theorem execWriteBuffer_performs (h : execWriteBuffer n buf len s = .next s') : s.Performs (.writeBuffer n buf len) s' := by
  obtain ⟨-, rfl | rfl | ⟨k, rfl⟩ | ⟨u, b, hu, rfl | ⟨k, rfl⟩⟩⟩ := execWriteBuffer_next h
  · exact .respond
  · exact .respond
  · exact .hold
  · exact .effect hu .writeData (State.Grows.refl s).setUart.respond rfl
  · exact .effect hu .writeData (State.Grows.refl s).setUart.hold rfl

end

/-- Every instruction that answers a next state performs (the inversion of the whole of `exec`). -/
theorem exec_performs {i : Instr} {s s' : State} (h : exec i s = .next s') : s.Performs i s' := by
  cases i with
  | setConfig n lc div divHigh fc ie valid =>
    rcases execSetConfig_next h with rfl | ⟨u, hu, hl, rfl⟩
    · exact .respond
    · exact .effect hu (.configure rfl hl) (State.Grows.refl s).setUart.respond rfl
  | getStatus n =>
    rcases execGetStatus_next h with rfl | ⟨u, v, hu, rfl⟩
    · exact .respond
    · exact .effect hu (.readLsr rfl) (State.Grows.refl s).setUart.respond rfl
  | write n b =>
    obtain ⟨-, rfl | rfl | ⟨u, hu, rfl⟩⟩ := execWrite_next h
    · exact .respond
    · exact .hold
    · exact .effect hu .writeData (State.Grows.refl s).setUart.respond rfl
  | read n =>
    obtain ⟨-, rfl | rfl | ⟨u, v, w, hu, rfl⟩⟩ := execRead_next h
    · exact .respond
    · exact .hold
    · exact .effect hu (.readLsrThenData rfl) (State.Grows.refl s).setUart.respond rfl
  | writeNonBlock n b =>
    rcases execWriteNonBlock_next h with rfl | ⟨u, -, -, rfl⟩ | ⟨u, hu, rfl⟩
    · exact .respond
    · exact .respond
    · exact .effect hu .writeData (State.Grows.refl s).setUart.respond rfl
  | readNonBlock n =>
    rcases execReadNonBlock_next h with rfl | ⟨u, -, -, rfl⟩ | ⟨u, v, hu, rfl⟩
    · exact .respond
    · exact .respond
    · exact .effect hu .readData (State.Grows.refl s).setUart.respond rfl
  | writeBuffer n buf len => exact execWriteBuffer_performs h
  | irqWrite n buf len cb ctx => exact startIrq_performs (d := .tx) rfl (decide_eq_true rfl) h
  | irqRead n buf len cb ctx => exact startIrq_performs (d := .rx) rfl (decide_eq_true rfl) h
  | irqWriteTerminate n => exact terminateIrq_performs (d := .tx) rfl h
  | irqReadTerminate n => exact terminateIrq_performs (d := .rx) rfl h
  | dmaChannelConfig n ctrl chan dir => exact execDmaChannelConfig_performs h
  | dmaWrite n buf len cb ctx => exact startDma_performs (d := .tx) rfl (decide_eq_true rfl) h
  | dmaRead n buf len cb ctx => exact startDma_performs (d := .rx) rfl (decide_eq_true rfl) h
  | dmaWriteTerminate n => exact terminateDma_performs rfl h
  | dmaReadTerminate n => exact terminateDma_performs rfl h
  | setThreshold n preset =>
    rcases execSetThreshold_next h with rfl | ⟨u, p, hu, -, rfl⟩
    · exact .respond
    · exact .effect hu (.threshold rfl) (State.Grows.refl s).setUart.respond rfl
  | irq n => exact execIrq_performs h
  | dmaBeat n dir => exact execDmaBeat_performs h
  | dmaDone n dir ok => exact execDmaDone_performs h
  | lineRx n data pe fe bi =>
    rcases execLineRx_next h with rfl | ⟨u, hu, rfl⟩
    · exact .nothing
    · exact .effect hu .receive (State.Grows.refl s).setUart rfl
  | lineTxLoad n =>
    rcases execLineTxLoad_next h with rfl | ⟨u, b, rest, hu, -, hf, rfl⟩
    · exact .nothing
    · exact .effect hu (.loadShifter hf) (State.Grows.refl s).setUart rfl
  | lineTxDone n =>
    rcases execLineTxDone_next h with rfl | ⟨u, b, hu, hs, rfl⟩
    · exact .nothing
    · exact .effect hu (.sendShifter hs) (State.Grows.refl s).setUart rfl
  | lineCto n =>
    rcases execLineCto_next h with rfl | ⟨u, hu, he, rfl⟩
    · exact .nothing
    · exact .effect hu (.timeout he) (State.Grows.refl s).setUart rfl
  | lineCts n level =>
    rcases execLineCts_next h with rfl | ⟨u, hu, rfl⟩
    · exact .nothing
    · exact .effect hu .clearToSend (State.Grows.refl s).setUart rfl

/-! ### What the effects keep: wire logs, idle slots, latches -/

/-- Only a character leaving the shifter is written to the wire log, at its end (42_status_fifo.md R153). -/
theorem Uart.Effect.wireLog_grows {k : Nat} {i : Instr} {u v : Uart} (h : u.Effect k i v) : ∃ l, v.wireLog = u.wireLog ++ l := by
  cases h with
  | @sendShifter b _ => exact ⟨[b], rfl⟩
  | configure _ hl => exact ⟨[], by simp [configSequence_eq _ _ _ _ _ hl]⟩
  | threshold _ => exact ⟨[], by simp [writeFcr_fcrValue]⟩
  | _ => exact ⟨[], by simp [Uart.readLsr]⟩

theorem State.Performs.wireLog_grows {s s' : State} {i : Instr} (h : s.Performs i s') {n : Inst} {u u' : Uart}
    (hu : s.uart? n = some u) (hu' : s'.uart? n = some u') : ∃ l, u'.wireLog = u.wireLog ++ l := by
  rcases h.uart?_cases hu' with hs | ⟨w, -, hs, he⟩
  · cases hu.symm.trans hs
    exact ⟨[], by simp⟩
  · cases hu.symm.trans hs
    exact he.wireLog_grows

theorem Slot.isActive_of_ownedBy {x : Slot} {e : Engine} {t : Transfer} (h : x.ownedBy e = some t) : x.isActive = true := by
  rw [(Slot.ownedBy_eq_some.mp h).1]; rfl

/-- A slot that is not Active stays so, but under a start command of its direction (10_state.md R22). -/
theorem Uart.Effect.slot_inactive {k : Nat} {i : Instr} {u v : Uart} (h : u.Effect k i v) {d : Dir}
    (hu : (u.slot d).isActive = false) : (v.slot d).isActive = false ∨ startsTransfer i i.inst d = true := by
  have hne {e : Dir} {g : Engine} {t : Transfer} (hs : (u.slot e).ownedBy g = some t) : d ≠ e := by
    rintro rfl
    rw [Slot.isActive_of_ownedBy hs] at hu
    cases hu
  cases h with
  | @startIrq e t hi =>
    by_cases hd : d = e
    · exact .inr (hd ▸ hi)
    · exact .inl (by simpa [Uart.slot_setSlot, hd] using hu)
  | @startDma e t c h hi =>
    by_cases hd : d = e
    · exact .inr (hd ▸ hi)
    · exact .inl (by simpa [Uart.slot_setSlot, hd] using hu)
  | configure _ hl => rw [configSequence_eq _ _ _ _ _ hl]; cases d <;> exact .inl hu
  | threshold => rw [writeFcr_fcrValue]; cases d <;> exact .inl hu
  | endIrq hs | lineError _ _ hs => exact .inl (by simpa [Uart.slot_endIrq, hne hs] using hu)
  | endDma hs => exact .inl (by simpa [Uart.slot_setSlot, hne hs] using hu)
  | beatTx hs | beatRx hs => rw [Uart.slot_setSlot, if_neg (hne hs)]; exact .inl (by simpa using hu)
  | serviceTx hs | serviceRx hs => rw [Uart.slot_afterService, if_neg (hne hs)]; cases d <;> exact .inl hu
  | loadShifter | sendShifter | timeout | clearToSend => cases d <;> exact .inl hu
  | _ => exact .inl (by simpa using hu)

/-- An effect clears no latch unless LSR is read: by `get_status`, by `read`, or in the line-status service (10_state.md R29). -/
theorem Uart.Effect.keepsLatches {k : Nat} {i : Instr} {u v : Uart} (h : u.Effect k i v) (hs : i ≠ .getStatus i.inst)
    (hr : i ≠ .read i.inst) (hq : i = .irq i.inst → u.iid ≠ 0x6) : u.KeepsLatches v := by
  cases h with
  | readLsr hi => exact absurd hi hs
  | readLsrThenData hi => exact absurd hi hr
  | clearStrayLineStatus hi h6 | lineError hi h6 => exact absurd h6 (hq hi)
  | configure _ hl => rw [configSequence_eq _ _ _ _ _ hl]; exact .refl u
  | threshold => rw [writeFcr_fcrValue]; exact .refl u
  | readData => exact u.keepsLatches_regRead_data k
  | writeData => exact u.keepsLatches_regWrite_data _
  | @bindDma d => cases d <;> exact .refl u
  | startIrq => exact (u.keepsLatches_setSlot ..).trans (Uart.keepsLatches_ierSet ..)
  | startDma | endDma => exact u.keepsLatches_setSlot ..
  | endIrq => exact u.keepsLatches_endIrq ..
  | clearStrayEnables => exact u.keepsLatches_ierClear ..
  | @serviceTx t done tx dll =>
    have hfifo : u.KeepsLatches { u with txFifo := tx, dll := dll } := ⟨id, id, id, id⟩
    exact hfifo.afterService ..
  | serviceRx _ _ _ _ hlat => exact hlat.afterService ..
  | beatTx => exact (u.keepsLatches_regWrite_data _).trans (Uart.keepsLatches_setSlot ..)
  | beatRx => exact (u.keepsLatches_regRead_data k).trans (Uart.keepsLatches_setSlot ..)
  | @receive data pe fe bi =>
    obtain ⟨_, _, _, _, _, h, -, -, hlat⟩ := u.receive_changes data pe fe bi
    rw [h]; exact hlat
  | loadShifter | sendShifter | timeout | clearToSend => exact .refl u

/-! ### Start commands and their answers -/

theorem startIrq_response {d : Dir} {m : Byte} {n : Inst} {buf len cb ctx : Word32} {s s' : State}
    (h : startIrq d m n buf len cb ctx s = .next s') :
    s'.uarts = s.uarts ∨ s'.responses = s.responses ++ [(s.active, { res := 0, v0 := 0, v1 := 0 })] := by
  rcases startIrq_next h with rfl | ⟨-, -, -, rfl⟩ | ⟨-, -, -, -, rfl⟩
  · exact .inl rfl
  · exact .inl rfl
  · exact .inr rfl

theorem startDma_response {d : Dir} {n : Inst} {buf len cb ctx : Word32} {s s' : State}
    (h : startDma d n buf len cb ctx s = .next s') :
    s'.uarts = s.uarts ∨ s'.responses = s.responses ++ [(s.active, { res := 0, v0 := 0, v1 := 0 })] := by
  rcases startDma_next h with rfl | ⟨-, -, ⟨-, rfl⟩ | ⟨-, rfl⟩ | ⟨-, -, -, -, -, -, rfl⟩⟩
  · exact .inl rfl
  · exact .inl rfl
  · exact .inl rfl
  · exact .inr rfl

/-- A start command that changes a UART answers success (10_state.md R22). -/
theorem start_response {i : Instr} {n : Inst} {d : Dir} {s s' : State} (hi : startsTransfer i n d = true)
    (h : exec i s = .next s') :
    s'.uarts = s.uarts ∨ s'.responses = s.responses ++ [(s.active, { res := 0, v0 := 0, v1 := 0 })] := by
  unfold startsTransfer at hi
  split at hi
  · exact startIrq_response h
  · exact startIrq_response h
  · exact startDma_response h
  · exact startDma_response h
  · cases hi

theorem State.slotActive_iff {s : State} {n : Inst} {d : Dir} :
    s.slotActive n d = true ↔ ∃ u, s.uart? n = some u ∧ (u.slot d).isActive = true := by
  unfold State.slotActive
  split <;> simp_all

/-! ### The interrupt enables follow the slots (10_state.md R54) -/

/-- IER bits 6:0 when the TX and the RX slot are, or are not, Active under the IRQ engine. -/
def enableBits (tx rx : Bool) : Byte := (if tx then irqEnables .tx else 0) ||| (if rx then irqEnables .rx else 0)

/-- The four IER clauses of the UART invariant in one: bits 6:0 are those of the slots. -/
def Uart.EnablesFollowSlots (u : Uart) : Prop :=
  u.ier &&& 0x7F = enableBits (u.txSlot.ownedBy .irq).isSome (u.rxSlot.ownedBy .irq).isSome

theorem and_7F_eq_enableBits_iff : ∀ (x : Byte) (a b : Bool), x &&& 0x7F = enableBits a b ↔
    x &&& 0x78 = 0 ∧ x.getLsbD 1 = a ∧ x.getLsbD 0 = b ∧ x.getLsbD 2 = x.getLsbD 0 := by decide

theorem Uart.enablesFollowSlots_iff (u : Uart) : u.EnablesFollowSlots ↔
    u.ier &&& 0x78 = 0 ∧ u.threEnable = (u.txSlot.ownedBy .irq).isSome ∧ u.rxav = (u.rxSlot.ownedBy .irq).isSome ∧
    u.lsEnable = u.rxav :=
  and_7F_eq_enableBits_iff ..

theorem Uart.Inv.enablesFollowSlots {u : Uart} (h : u.Inv) : u.EnablesFollowSlots :=
  u.enablesFollowSlots_iff.mpr ⟨h.ierReserved, h.txEnableIff, h.rxEnableIff, h.lsEnableEq⟩

theorem enableBits_set_tx : ∀ (x : Byte) (a b : Bool), x &&& 0x7F = enableBits a b →
    (x ||| irqEnables .tx) &&& 0x87 &&& 0x7F = enableBits true b := by decide

theorem enableBits_set_rx : ∀ (x : Byte) (a b : Bool), x &&& 0x7F = enableBits a b →
    (x ||| irqEnables .rx) &&& 0x87 &&& 0x7F = enableBits a true := by decide

theorem enableBits_clear_tx : ∀ (x : Byte) (a b : Bool), x &&& 0x7F = enableBits a b →
    x &&& ~~~irqEnables .tx &&& 0x87 &&& 0x7F = enableBits false b := by decide

theorem enableBits_clear_rx : ∀ (x : Byte) (a b : Bool), x &&& 0x7F = enableBits a b →
    x &&& ~~~irqEnables .rx &&& 0x87 &&& 0x7F = enableBits a false := by decide

theorem enableBits_clear_ls : ∀ (x : Byte) (a : Bool), x &&& 0x7F = enableBits a false →
    x &&& ~~~0x04#8 &&& 0x87 &&& 0x7F = enableBits a false := by decide

/-- `set_config` keeps bits 2:0 and sets bit 7 (41_config.md R122). -/
theorem enableBits_configure : ∀ (x : Byte) (a b : Bool), x &&& 0x7F = enableBits a b →
    (x &&& 0x07 ||| 0x80) &&& 0x7F = enableBits a b := by decide

/-! ### The invariant of a UART under each kind of change -/

theorem lcValid_dlab : ∀ c : BitVec 8, lcValid c = true → c.getLsbD 7 = false := by decide

/-- A slot one engine owns is not owned by the other. -/
theorem Slot.ownedBy_other {x : Slot} {e f : Engine} {t : Transfer} (h : x.ownedBy e = some t) (hf : f ≠ e) :
    x.ownedBy f = none :=
  Slot.ownedBy_eq_none.mpr fun r hr => by
    obtain ⟨hx, he⟩ := Slot.ownedBy_eq_some.mp h
    cases hx.symm.trans hr
    exact he ▸ hf.symm

/-- A transfer whose count is still within its length. -/
theorem Transfer.Ok.setDone {t : Transfer} (h : t.Ok) {x : Word32} (hx : x ≤ t.len) : Transfer.Ok { t with done := x } :=
  { h with doneLeLen := hx }

theorem done_succ_le {x y : Word32} (h : x < y) : x + 1 ≤ y := by
  rw [BitVec.lt_def] at h
  exact done_add_le (j := 1) h

namespace Uart.Inv
variable {u : Uart} {k : Nat} {d : Dir} {t : Transfer}

theorem dlab_eq_false (h : u.Inv) : u.dlab = false := lcValid_dlab _ h.lcrLegal

theorem slotOk (h : u.Inv) (d : Dir) : (u.slot d).Ok := by
  cases d
  · exact h.txSlotOk
  · exact h.rxSlotOk

theorem transferOk (h : u.Inv) {e : Engine} (ht : (u.slot d).ownedBy e = some t) : t.Ok :=
  h.slotOk d t (Slot.ownedBy_eq_some.mp ht).1

theorem dmaBound (h : u.Inv) (d : Dir) : ((u.slot d).ownedBy .dma).isSome = true → u.bind d ≠ .unconfigured := by
  cases d
  · exact h.txDmaBound
  · exact h.rxDmaBound

/-- Another IER that follows the slots. -/
theorem setIer (h : u.Inv) {ier : Byte} (hier : Uart.EnablesFollowSlots { u with ier := ier }) :
    Uart.Inv { u with ier := ier } := by
  obtain ⟨hres, htx, hrx, hls⟩ := (Uart.enablesFollowSlots_iff _).mp hier
  exact { h with ierReserved := hres, txEnableIff := htx, rxEnableIff := hrx, lsEnableEq := hls }

/-- Another slot and another IER: the slot meets its invariant, the enables follow, a DMA transfer is bound. -/
theorem setSlot_ier (h : u.Inv) {x : Slot} {ier : Byte} (hx : x.Ok)
    (hier : Uart.EnablesFollowSlots { u.setSlot d x with ier := ier })
    (hb : (x.ownedBy .dma).isSome = true → u.bind d ≠ .unconfigured) : Uart.Inv { u.setSlot d x with ier := ier } := by
  obtain ⟨hres, htx, hrx, hls⟩ := (Uart.enablesFollowSlots_iff _).mp hier
  cases d
  · exact { h with ierReserved := hres, txEnableIff := htx, rxEnableIff := hrx, lsEnableEq := hls, txSlotOk := hx, txDmaBound := hb }
  · exact { h with ierReserved := hres, txEnableIff := htx, rxEnableIff := hrx, lsEnableEq := hls, rxSlotOk := hx, rxDmaBound := hb }

/-- Another slot that the IRQ engine owns or not as before. -/
theorem setSlot (h : u.Inv) {x : Slot} (hx : x.Ok) (hirq : (x.ownedBy .irq).isSome = ((u.slot d).ownedBy .irq).isSome)
    (hb : (x.ownedBy .dma).isSome = true → u.bind d ≠ .unconfigured) : (u.setSlot d x).Inv := by
  have hier := h.enablesFollowSlots
  have key : Uart.Inv { u.setSlot d x with ier := u.ier } := by
    refine h.setSlot_ier hx ?_ hb
    cases d <;> simpa [Uart.EnablesFollowSlots] using hirq ▸ hier
  cases d <;> exact key

theorem startIrq (h : u.Inv) (ht : t.Ok) (he : t.engine = .irq) :
    ((u.setSlot d (.active t)).ierSet k (irqEnables d)).Inv := by
  have hirq : ((Slot.active t).ownedBy .irq).isSome = true := by simp [Slot.ownedBy, he]
  have hdma : ((Slot.active t).ownedBy .dma).isSome = false := by simp [Slot.ownedBy, he]
  have hd : (u.setSlot d (.active t)).dlab = false := by cases d <;> exact h.dlab_eq_false
  rw [ierSet_eq k _ hd]
  refine h.setSlot_ier (Slot.ok_active ht) ?_ (by simp [hdma])
  have hier := h.enablesFollowSlots
  cases d
  · simpa [Uart.EnablesFollowSlots, hirq] using enableBits_set_tx _ _ _ hier
  · simpa [Uart.EnablesFollowSlots, hirq] using enableBits_set_rx _ _ _ hier

theorem endIrq (h : u.Inv) : (u.endIrq k d).Inv := by
  rw [Uart.endIrq, ierClear_eq k _ h.dlab_eq_false]
  have hier := h.enablesFollowSlots
  cases d
  · exact h.setSlot_ier (d := .tx) Slot.ok_idle (enableBits_clear_tx _ _ _ hier) nofun
  · exact h.setSlot_ier (d := .rx) Slot.ok_idle (enableBits_clear_rx _ _ _ hier) nofun

theorem clearStrayEnables (h : u.Inv) (hs : (u.slot d).ownedBy .irq = none) : (u.ierClear k (irqEnables d)).Inv := by
  rw [ierClear_eq k _ h.dlab_eq_false]
  have hier := h.enablesFollowSlots
  refine h.setIer ?_
  cases d
  · have hs : u.txSlot.ownedBy .irq = none := hs
    simpa [Uart.EnablesFollowSlots, hs] using enableBits_clear_tx _ _ _ hier
  · have hs : u.rxSlot.ownedBy .irq = none := hs
    simpa [Uart.EnablesFollowSlots, hs] using enableBits_clear_rx _ _ _ hier

/-- The line-status service while no IRQ transfer owns RX: LS is clear already (44_irq.md R208). -/
theorem clearStrayLineStatus (h : u.Inv) (hs : u.rxSlot.ownedBy .irq = none) : (u.ierClear k 0x04).Inv := by
  rw [ierClear_eq k _ h.dlab_eq_false]
  refine h.setIer ?_
  have hier := h.enablesFollowSlots
  rw [Uart.EnablesFollowSlots, hs] at hier
  simpa [Uart.EnablesFollowSlots, hs] using enableBits_clear_ls _ _ hier

/-- A transfer that goes on, under the same engine. -/
theorem advance (h : u.Inv) {e : Engine} {r : Transfer} (hs : (u.slot d).ownedBy e = some t) (hr : r.Ok) (he : r.engine = e) :
    (u.setSlot d (.active r)).Inv := by
  obtain ⟨hx, ht⟩ := Slot.ownedBy_eq_some.mp hs
  have hown (f : Engine) : ((Slot.active r).ownedBy f).isSome = ((u.slot d).ownedBy f).isSome := by
    by_cases hf : e = f <;> simp [hx, Slot.ownedBy, he, ht, hf]
  exact h.setSlot (Slot.ok_active hr) (hown .irq) fun hd => h.dmaBound d (hown .dma ▸ hd)

theorem afterService (h : u.Inv) {r : Transfer} (hs : (u.slot d).ownedBy .irq = some t) (hr : r.Ok) (he : r.engine = .irq) :
    (u.afterService k d r).Inv := by
  have hv := h.advance hs hr he
  unfold Uart.afterService
  split
  · exact hv.endIrq
  · exact hv

theorem readLsr (h : u.Inv) : u.readLsr.2.Inv := { h with }

theorem readData (h : u.Inv) : (u.regRead k .data).2.Inv := by
  obtain ⟨rx, cto, pe, fe, bi, hv, hl, hcto, -⟩ := regRead_data_changes k u
  rw [hv]
  exact { h with
    rxBounded := hl.trans h.rxBounded
    ctoMeansData := fun hc => by obtain ⟨hu, rfl⟩ := hcto hc; exact h.ctoMeansData hu }

theorem writeData (h : u.Inv) (b : Byte) : (u.regWrite .data b).Inv := by
  obtain ⟨tx, dll, hv, -, hroom⟩ := regWrite_data_changes b u
  rw [hv]
  exact { h with txBounded := hroom h.txBounded }

theorem receive (h : u.Inv) (data : Byte) (pe fe bi : Bool) : (u.receive data pe fe bi).Inv := by
  obtain ⟨rx, oe, pe', fe', bi', hv, hl, hroom, -⟩ := u.receive_changes data pe fe bi
  rw [hv]
  exact { h with
    rxBounded := hroom h.rxBounded
    ctoMeansData := fun hc => ⟨(h.ctoMeansData hc).1, (h.ctoMeansData hc).2.trans_le hl⟩ }

theorem configure (h : u.Inv) {lc : BitVec 8} (div : BitVec 24) (fc ie : Bool) (cfg : Configuration) (hl : lcValid lc = true) :
    Uart.Inv { configSequence k lc div fc ie u with cfg := cfg } := by
  rw [configSequence_eq k div fc ie u hl]
  have hier := Uart.Inv.setIer h (ier := (u.ier &&& 0x07) ||| 0x80) (enableBits_configure _ _ _ h.enablesFollowSlots)
  have hmcr : (if fc then 0x22#8 else 0x00) &&& 0xDD = 0 := by cases fc <;> rfl
  exact { hier with
    txBounded := Nat.zero_le _
    rxBounded := Nat.zero_le _
    lcrLegal := hl
    mcrReserved := hmcr
    ctoMeansData := nofun }

theorem threshold (h : u.Inv) (p : Preset) : (({ u with thrPreset := p } : Uart).writeFcr (fcrValue p)).Inv := by
  rw [writeFcr_fcrValue]
  exact { h with txBounded := Nat.zero_le _, rxBounded := Nat.zero_le _, ctoMeansData := nofun }

theorem setBind (h : u.Inv) (c g : BitVec 8) : (u.setBind d (.configured c g)).Inv := by
  cases d
  · exact { h with txDmaBound := nofun }
  · exact { h with rxDmaBound := nofun }

end Uart.Inv

/-- Every effect keeps the UART invariant. -/
theorem Uart.Effect.keepsInv {k : Nat} {i : Instr} {u v : Uart} (e : u.Effect k i v) (h : u.Inv) : v.Inv := by
  cases e with
  | configure _ hl => exact h.configure _ _ _ _ hl
  | threshold => exact h.threshold _
  | readLsr => exact h.readLsr
  | readLsrThenData => exact h.readLsr.readData
  | readData => exact h.readData
  | writeData => exact h.writeData _
  | bindDma => exact h.setBind _ _
  | startIrq _ _ ht he => exact h.startIrq ht he
  | startDma _ hs ht he hb => exact h.setSlot (Slot.ok_active ht) (by simp [hs, Slot.ownedBy, he]) fun _ => by simp [hb]
  | endIrq => exact h.endIrq
  | endDma hs => exact h.setSlot Slot.ok_idle (by rw [Slot.ownedBy_other (f := .irq) hs (by decide)]; rfl) nofun
  | clearStrayEnables hs => exact h.clearStrayEnables hs
  | @serviceTx t done tx dll hs hd _ hroom =>
    have hfifo : Uart.Inv { u with txFifo := tx, dll := dll } := { h with txBounded := hroom h.txBounded }
    have ht := h.transferOk hs
    exact hfifo.afterService hs (ht.setDone (hd ht.doneLeLen)) (Slot.ownedBy_eq_some.mp hs).2
  | @serviceRx t done rx cto pe fe bi hs hd hl hcto =>
    have hfifo : Uart.Inv { u with rxFifo := rx, cto := cto, latPe := pe, latFe := fe, latBi := bi } := { h with
      rxBounded := hl.trans h.rxBounded
      ctoMeansData := fun hc => by obtain ⟨hu, rfl⟩ := hcto hc; exact h.ctoMeansData hu }
    have ht := h.transferOk hs
    exact hfifo.afterService hs (ht.setDone (hd ht.doneLeLen)) (Slot.ownedBy_eq_some.mp hs).2
  | clearStrayLineStatus _ _ hs => exact h.readLsr.clearStrayLineStatus hs
  | lineError => exact h.readLsr.endIrq
  | beatTx hs hd =>
    exact (h.writeData _).advance (by rw [Uart.slot_regWrite_data]; exact hs)
      ((h.transferOk hs).setDone (done_succ_le hd)) (Slot.ownedBy_eq_some.mp hs).2
  | beatRx hs hd =>
    exact h.readData.advance (by rw [Uart.slot_regRead_data]; exact hs)
      ((h.transferOk hs).setDone (done_succ_le hd)) (Slot.ownedBy_eq_some.mp hs).2
  | receive => exact h.receive _ _ _ _
  | @loadShifter b rest hf =>
    have hle : rest.length + 1 ≤ u.depth := by simpa [Uart.txCount, hf] using h.txBounded
    exact { h with txBounded := Nat.le_of_succ_le hle }
  | sendShifter => exact { h with }
  | timeout he =>
    simp only [Uart.ctoEnabled, Bool.and_eq_true] at he
    obtain ⟨⟨hf, hdr⟩, -⟩ := he
    exact { h with ctoMeansData := fun _ => ⟨hf, of_decide_eq_true hdr⟩ }
  | clearToSend => exact { h with }

theorem State.Performs.keepsUartsInv {s s' : State} {i : Instr} (hp : s.Performs i s') (h : s.UartsInv) : s'.UartsInv := by
  rcases hp.uarts with he | ⟨u, v, hu, heff, he⟩
  · rw [State.UartsInv, he]; exact h
  · intro w hw
    rw [he] at hw
    rcases List.mem_or_eq_of_mem_set hw with hold | rfl
    · exact h w hold
    · exact heff.keepsInv (h u (List.mem_of_getElem? hu))

/-! ### From instructions to steps -/

/-- The state a turn leaves, before the instruction it may bring is performed. -/
def Taken.state : Taken → State
  | .run _ s => s
  | .done s => s

theorem takeCommand_uarts (w : BitVec 144) (s : State) : (takeCommand w s).state.uarts = s.uarts := by
  unfold takeCommand
  split <;> rfl

theorem takeEvent_uarts (w : BitVec 32) (s : State) : (takeEvent w s).state.uarts = s.uarts := by
  unfold takeEvent
  split <;> rfl

theorem takeHost_uarts (c : Context) (s : State) : (takeHost c s).state.uarts = s.uarts := by
  unfold takeHost
  repeat' split
  · rfl
  · rfl
  · exact takeCommand_uarts ..
  · rfl

/-- A turn changes no UART before its instruction runs. -/
theorem take_uarts (s : State) : (take s).state.uarts = s.uarts := by
  unfold take
  split
  · rfl
  · next t ts _ =>
    cases t with
    | host c => exact takeHost_uarts ..
    | event w => exact takeEvent_uarts ..
    | store a b => rfl
    | callbackReturn c => rfl

/-- A step is the turn alone, or the instruction it brings. -/
theorem step_next {s s' : State} (h : step s = .next s') :
    take s = .done s' ∨ ∃ i r, take s = .run i r ∧ exec i r = .next s' := by
  unfold step at h
  split at h
  · next i r ht => exact .inr ⟨i, r, ht, h⟩
  · next r ht => cases h; exact .inl ht

/-! ### What stops the machine -/

/-- What a meaning may answer: a next state; a fault, if `reads`, at a byte nothing has written; a refusal, if `holds`, of a blocking
command. -/
def StopsOnlyAt (m : Memory) (reads holds : Prop) : Result → Prop
  | .next _ => True
  | .fault f => reads ∧ ∃ a, f = .unwrittenByte a ∧ memRead m a = none
  | .refused r => holds ∧ r = .blockingInCallback

section
variable {m : Memory} {reads holds : Prop}

theorem forCommand_stops {i : Inst} {s : State} {k : Uart → Result} (h : ∀ u, StopsOnlyAt m reads holds (k u)) :
    StopsOnlyAt m reads holds (forCommand i s k) := by
  unfold forCommand
  split
  · trivial
  · exact h _

theorem forEvent_stops {i : Inst} {s : State} {p : Uart → Bool} {k : Uart → Result} (h : ∀ u, StopsOnlyAt m reads holds (k u)) :
    StopsOnlyAt m reads holds (forEvent i s p k) := by
  unfold forEvent
  repeat' split
  · trivial
  · exact h _
  · trivial

theorem unlessCallback_stops {s : State} {k : Result} (hh : s.active ∈ s.callbacks → holds)
    (h : StopsOnlyAt m reads holds k) : StopsOnlyAt m reads holds (unlessCallback s k) := by
  unfold unlessCallback
  split
  · next hc => exact ⟨hh hc, rfl⟩
  · exact h

theorem startIrq_stops (d : Dir) (e : Byte) (i : Inst) (buf len cb ctx : Word32) (s : State) :
    StopsOnlyAt m reads holds (startIrq d e i buf len cb ctx s) :=
  forCommand_stops fun u => by
    repeat' split
    all_goals trivial

theorem terminateIrq_stops (d : Dir) (e : Byte) (i : Inst) (s : State) :
    StopsOnlyAt m reads holds (terminateIrq d e i s) :=
  forCommand_stops fun u => by split <;> trivial

theorem startDma_stops (d : Dir) (i : Inst) (buf len cb ctx : Word32) (s : State) :
    StopsOnlyAt m reads holds (startDma d i buf len cb ctx s) :=
  forCommand_stops fun u => by
    repeat' split
    all_goals trivial

theorem terminateDma_stops (d : Dir) (i : Inst) (s : State) : StopsOnlyAt m reads holds (terminateDma d i s) :=
  forCommand_stops fun u => by split <;> trivial

theorem execDmaChannelConfig_stops (i : Inst) (ctrl chan dir : Word32) (s : State) :
    StopsOnlyAt m reads holds (execDmaChannelConfig i ctrl chan dir s) :=
  forCommand_stops fun u => by
    split
    · trivial
    · dsimp only
      repeat' split
      all_goals trivial

theorem serviceTx_stops (i : Inst) (u : Uart) (s : State) (h : reads) : StopsOnlyAt s.mem reads holds (serviceTx i u s) := by
  unfold serviceTx
  split
  · trivial
  · split
    · next f hf => exact ⟨h, txRefill_error _ _ _ _ _ hf⟩
    · dsimp only
      split <;> trivial

theorem serviceRx_stops (i : Inst) (u : Uart) (s : State) : StopsOnlyAt m reads holds (serviceRx i u s) := by
  unfold serviceRx
  split
  · trivial
  · dsimp only
    split <;> trivial

theorem serviceLineStatus_stops (i : Inst) (u : Uart) (s : State) : StopsOnlyAt m reads holds (serviceLineStatus i u s) := by
  unfold serviceLineStatus
  dsimp only
  split <;> trivial

theorem execIrq_stops (i : Inst) (s : State) (h : reads) : StopsOnlyAt s.mem reads holds (execIrq i s) :=
  forEvent_stops fun u => by
    split
    · exact serviceLineStatus_stops i u s
    · exact serviceRx_stops i u s
    · exact serviceRx_stops i u s
    · exact serviceTx_stops i u s h
    · trivial

theorem beatTx_stops (i : Inst) (s : State) (h : reads) : StopsOnlyAt s.mem reads holds (beatTx i s) :=
  forEvent_stops fun u => by
    split
    · trivial
    · split
      · split
        · next hm => exact ⟨h, _, rfl, hm⟩
        · trivial
      · trivial

theorem beatRx_stops (i : Inst) (s : State) : StopsOnlyAt m reads holds (beatRx i s) :=
  forEvent_stops fun u => by
    split
    · trivial
    · dsimp only
      split <;> trivial

/-- The direction byte 0 is the only one of a TX event (30_encoding.md R96). -/
theorem eventDir_tx : ∀ {b : BitVec 8}, eventDir b = some .tx → b = 0 := by decide

theorem execDmaBeat_stops (i : Inst) (dir : BitVec 8) (s : State) (h : dir = 0 → reads) :
    StopsOnlyAt s.mem reads holds (execDmaBeat i dir s) := by
  unfold execDmaBeat
  split
  · trivial
  · next hd => exact beatTx_stops i s (h (eventDir_tx hd))
  · exact beatRx_stops i s

theorem execDmaDone_stops (i : Inst) (dir : BitVec 8) (ok : Bool) (s : State) :
    StopsOnlyAt m reads holds (execDmaDone i dir ok s) := by
  unfold execDmaDone
  split
  · trivial
  · refine forEvent_stops fun u => ?_
    repeat' split
    all_goals trivial

theorem execWriteBuffer_stops (i : Inst) (buf len : Word32) (s : State) (h : reads) (hh : s.active ∈ s.callbacks → holds) :
    StopsOnlyAt s.mem reads holds (execWriteBuffer i buf len s) :=
  unlessCallback_stops hh <| forCommand_stops fun u => by
    split
    · trivial
    · dsimp only
      split
      · trivial
      · split
        · trivial
        · split
          · next hm => exact ⟨h, _, rfl, hm⟩
          · split <;> trivial

end

/-- The three instructions that read buffer memory. -/
def readsMemory (i : Instr) : Prop :=
  (∃ buf len : Word32, i = .writeBuffer i.inst buf len) ∨ i = .irq i.inst ∨ i = .dmaBeat i.inst 0

/-- What stops an instruction, for each of them. -/
theorem exec_stops (i : Instr) (s : State) :
    StopsOnlyAt s.mem (readsMemory i) (i.canHold = true ∧ s.active ∈ s.callbacks) (exec i s) := by
  cases i with
  | setConfig =>
    refine forCommand_stops fun u => ?_
    repeat' split
    all_goals trivial
  | getStatus => exact forCommand_stops fun u => trivial
  | write => exact unlessCallback_stops (⟨rfl, ·⟩) <| forCommand_stops fun u => by split <;> trivial
  | read => exact unlessCallback_stops (⟨rfl, ·⟩) <| forCommand_stops fun u => by split <;> trivial
  | writeNonBlock => exact forCommand_stops fun u => by dsimp only; split <;> trivial
  | readNonBlock => exact forCommand_stops fun u => by dsimp only; split <;> trivial
  | writeBuffer n buf len => exact execWriteBuffer_stops n buf len s (.inl ⟨buf, len, rfl⟩) (⟨rfl, ·⟩)
  | irqWrite => exact startIrq_stops ..
  | irqRead => exact startIrq_stops ..
  | irqWriteTerminate => exact terminateIrq_stops ..
  | irqReadTerminate => exact terminateIrq_stops ..
  | dmaChannelConfig => exact execDmaChannelConfig_stops ..
  | dmaWrite => exact startDma_stops ..
  | dmaRead => exact startDma_stops ..
  | dmaWriteTerminate => exact terminateDma_stops ..
  | dmaReadTerminate => exact terminateDma_stops ..
  | setThreshold => exact forCommand_stops fun u => by split <;> trivial
  | irq n => exact execIrq_stops n s (.inr (.inl rfl))
  | dmaBeat n dir => exact execDmaBeat_stops n dir s fun h => .inr (.inr (h ▸ rfl))
  | dmaDone => exact execDmaDone_stops ..
  | lineRx => exact forEvent_stops fun u => trivial
  | lineTxLoad => exact forEvent_stops fun u => by split <;> trivial
  | lineTxDone => exact forEvent_stops fun u => by split <;> trivial
  | lineCto => exact forEvent_stops fun u => trivial
  | lineCts => exact forEvent_stops fun u => trivial

/-! ### Unwritten bytes -/

/-- An identity other than "none pending" is one of a raised line (60_exceptions.md R255, R256). -/
theorem Uart.irqOut_of_iid {u : Uart} (h : u.iid ≠ 0x1) : u.irqOut = true := by
  unfold Uart.irqOut
  unfold Uart.iid at h
  repeat' split at h
  all_goals simp_all

theorem beatTx_unwritten {n : Inst} {s : State} {u : Uart} {t : Transfer} (hu : s.uart? n = some u)
    (ht : u.txSlot.ownedBy .dma = some t) (hlt : t.done < t.len) (hr : u.thre = true)
    (hm : memRead s.mem (t.buf + t.done) = none) : beatTx n s = .fault (.unwrittenByte (t.buf + t.done)) := by
  rw [beatTx, forEvent_some _ hu rfl]
  simp [ht, hlt, hr, hm]

theorem serviceTx_unwritten {n : Inst} {s : State} {u : Uart} {t : Transfer} {f : Fault}
    (ht : u.txSlot.ownedBy .irq = some t)
    (hf : txRefill s.mem (min txChunk (t.len.toNat - t.done.toNat)) t u = .error f) : serviceTx n u s = .fault f := by
  simp [serviceTx, ht, hf]

/-! ### Reset -/

/-- After reset every UART is `Uart.reset`. -/
theorem eq_reset_of_mem {u : Uart} (h : u ∈ State.reset.uarts) : u = Uart.reset :=
  List.eq_of_mem_replicate h

theorem Uart.inv_reset : Uart.reset.Inv where
  txBounded := by decide
  rxBounded := by decide
  lcrLegal := by decide
  mcrReserved := by decide
  ierReserved := by decide
  txSlotOk := Slot.ok_idle
  rxSlotOk := Slot.ok_idle
  txEnableIff := by decide
  rxEnableIff := by decide
  lsEnableEq := by decide
  txDmaBound := nofun
  rxDmaBound := nofun
  ctoMeansData := nofun

/-! ### Derived signals -/

theorem Uart.thre_iff (u : Uart) : u.thre = true ↔ u.txFifo.length < u.depth := by
  unfold Uart.thre; exact decide_eq_true_iff

theorem Uart.dr_iff (u : Uart) : u.dr = true ↔ u.rxFifo ≠ [] := by
  simp [Uart.dr, Uart.rxCount, List.length_pos_iff]

theorem Uart.shiftBusy_eq_false (u : Uart) : u.shiftBusy = false ↔ u.shifter = .idle := by
  unfold Uart.shiftBusy
  split <;> simp_all

theorem Uart.temt_iff (u : Uart) : u.temt = true ↔ u.txFifo = [] ∧ u.shifter = .idle := by
  simp [Uart.temt, Uart.txCount, Uart.shiftBusy_eq_false]

theorem Uart.rtsOut_iff (u : Uart) :
    u.rtsOut = true ↔ u.mcr.getLsbD 1 = true ∧ (u.mcr.getLsbD 5 = false ∨ u.rxFifo.length < u.rxLevel) := by
  simp only [Uart.rtsOut, Bool.and_eq_true, Bool.or_eq_true, Bool.not_eq_true', decide_eq_true_iff]
  rfl

/-- The bits of a byte assembled from eight flags. -/
theorem getLsbD_flags (b7 b6 b5 b4 b3 b2 b1 b0 : Bool) :
    let x : Byte := BitVec.ofBool b7 ++ BitVec.ofBool b6 ++ BitVec.ofBool b5 ++ BitVec.ofBool b4 ++ BitVec.ofBool b3
      ++ BitVec.ofBool b2 ++ BitVec.ofBool b1 ++ BitVec.ofBool b0
    x.getLsbD 0 = b0 ∧ x.getLsbD 1 = b1 ∧ x.getLsbD 2 = b2 ∧ x.getLsbD 3 = b3 ∧
    x.getLsbD 4 = b4 ∧ x.getLsbD 5 = b5 ∧ x.getLsbD 6 = b6 ∧ x.getLsbD 7 = b7 := by
  revert b7 b6 b5 b4 b3 b2 b1 b0; decide

/-- The bits of LSR (10_state.md R35). -/
theorem Uart.lsr_bits (u : Uart) :
    u.lsr.getLsbD 0 = u.dr ∧ u.lsr.getLsbD 1 = u.latOe ∧ u.lsr.getLsbD 2 = u.latPe ∧ u.lsr.getLsbD 3 = u.latFe ∧
    u.lsr.getLsbD 4 = u.latBi ∧ u.lsr.getLsbD 5 = u.thre ∧ u.lsr.getLsbD 6 = u.temt ∧
    u.lsr.getLsbD 7 = u.rxFifo.any RxEntry.flagged :=
  getLsbD_flags ..

/-- The reserved bits of FSR read 0 (10_state.md R38). -/
theorem Uart.fsr_reserved (u : Uart) : u.fsr &&& 0xF5 = 0 := by
  unfold Uart.fsr; cases u.dr <;> cases u.thre <;> rfl

theorem any_flagged_iff (es : List RxEntry) :
    es.any RxEntry.flagged = true ↔ ∃ e ∈ es, e.pe = true ∨ e.fe = true ∨ e.bi = true := by
  simp [RxEntry.flagged, or_assoc]

/-! ### The statements -/

/-- Settles O15: a turn changes no UART, an instruction only the one it names, by an effect that keeps the invariant. -/
theorem stepKeepsTheInstanceInvariant : Obligations.StepKeepsTheInstanceInvariant := by
  unfold Obligations.StepKeepsTheInstanceInvariant
  intro s s' h hstep
  have hturn := take_uarts s
  rcases step_next hstep with ht | ⟨i, r, ht, hexec⟩
  · rw [ht] at hturn
    have hs' : s'.uarts = s.uarts := hturn
    rw [State.UartsInv, hs']; exact h
  · rw [ht] at hturn
    have hr : r.uarts = s.uarts := hturn
    exact (exec_performs hexec).keepsUartsInv (by rw [State.UartsInv, hr]; exact h)

/-- Settles O18: by `Uart.Effect.slot_inactive` only a start command activates, and one that changes a UART answers success. -/
theorem onlyStartCommandsActivateASlot : Obligations.OnlyStartCommandsActivateASlot := by
  unfold Obligations.OnlyStartCommandsActivateASlot
  intro i s s' n d h hidle hact
  obtain ⟨v, hv, hvd⟩ := State.slotActive_iff.mp hact
  have hi : startsTransfer i n d = true := by
    rcases (exec_performs h).uart?_cases hv with hs | ⟨u, rfl, hu, he⟩
    · rw [State.slotActive_iff.mpr ⟨v, hs, hvd⟩] at hidle
      cases hidle
    · have hud : (u.slot d).isActive = false := by simpa [State.slotActive, hu] using hidle
      exact (he.slot_inactive hud).resolve_left (by simp [hvd])
  refine ⟨hi, (start_response hi h).resolve_left fun hus => ?_⟩
  rw [State.slotActive, State.uart?, hus] at hact
  rw [State.slotActive, State.uart?, hact] at hidle
  cases hidle

/-- Settles O23: `exec_stops` read at a fault and at a refusal. -/
theorem onlyCallerMistakesStopTheMachine : Obligations.OnlyCallerMistakesStopTheMachine := by
  unfold Obligations.OnlyCallerMistakesStopTheMachine
  intro i s
  have h := exec_stops i s
  constructor
  · intro f hf
    rw [hf] at h
    obtain ⟨hreads, a, ha, hm⟩ := h
    exact ⟨a, ha, hm, hreads⟩
  · intro r hr
    rw [hr] at h
    obtain ⟨⟨hcan, hcb⟩, hb⟩ := h
    exact ⟨hb, hcan, hcb⟩

/-- Settles O24: `exec_performs` gives the traces and the frame, `Uart.Effect.wireLog_grows` the wire logs. -/
theorem tracesOnlyGrow : Obligations.TracesOnlyGrow := by
  unfold Obligations.TracesOnlyGrow
  intro i s s' h
  have hp := exec_performs h
  obtain ⟨hparams, hturns, hpres, hact, hfree, hcb, hdma, hresp, hrun⟩ := hp.grows
  exact ⟨hparams, hturns, hpres, hact, hfree, hcb, hdma, hresp, hrun, fun n u u' hu hu' => hp.wireLog_grows hu hu'⟩

/-- Settles O27: the UART is unchanged, or it is the one named and `Uart.Effect.keepsLatches` speaks of it. -/
theorem latchesStayUntilLsrIsRead : Obligations.LatchesStayUntilLsrIsRead := by
  unfold Obligations.LatchesStayUntilLsrIsRead
  intro i s s' n u u' h hu hu' hs hr hq
  rcases (exec_performs h).uart?_cases hu' with hsame | ⟨w, rfl, hw, he⟩
  · cases hu.symm.trans hsame
    exact Uart.KeepsLatches.refl u
  · cases hu.symm.trans hw
    exact he.keepsLatches hs hr hq

/-- Settles O58: the beat reads the one byte, and the refill loop stops at the first byte that has no value (`txRefill_fault`). -/
theorem unwrittenByteFaults : Obligations.UnwrittenByteFaults := by
  unfold Obligations.UnwrittenByteFaults
  intro s n u t hu ht
  refine ⟨fun he hlt hr hm => ?_, fun bs he hmask hi hlen hb hm => ?_⟩
  · exact beatTx_unwritten hu (Slot.ownedBy_eq_some.mpr ⟨ht, he⟩) hlt (u.thre_iff.mpr hr) hm
  · have hen : u.irqEnabled = true := by
      simp [Uart.irqEnabled, hmask, Uart.irqOut_of_iid (u := u) (by rw [hi]; decide)]
    calc exec (.irq n) s = serviceTx n u s := execIrq_tx hu hen hi
      _ = _ := serviceTx_unwritten (Slot.ownedBy_eq_some.mpr ⟨ht, he⟩) (txRefill_fault s.mem bs _ t u hlen hb hm)

/-- Settles O12: both UARTs are `Uart.reset`, whose fields are read off. -/
theorem resetLeavesTheStatedValues : Obligations.ResetLeavesTheStatedValues := by
  unfold Obligations.ResetLeavesTheStatedValues
  refine ⟨by decide, fun u hu => ?_, fun a => rfl, rfl, rfl⟩
  cases eq_reset_of_mem hu
  decide

/-- Settles O13: the UARTs meet theirs by `Uart.inv_reset`, the port and memory are empty. -/
theorem resetMeetsTheInvariants : Obligations.ResetMeetsTheInvariants := by
  unfold Obligations.ResetMeetsTheInvariants
  refine ⟨fun u hu => ?_, by decide, Memory.wf_nil, by decide⟩
  cases eq_reset_of_mem hu
  exact Uart.inv_reset

/-- Settles O60: the levels case by case, the bits of LSR and FSR by the signal each of them carries. -/
theorem derivedSignalsAreAssembled : Obligations.DerivedSignalsAreAssembled := by
  unfold Obligations.DerivedSignalsAreAssembled
  intro u
  obtain ⟨h0, h1, h2, h3, h4, h5, h6, h7⟩ := u.lsr_bits
  refine ⟨rfl, ?_, ?_, ?_, ?_, fun k => ⟨rfl, rfl⟩, ?_, h1, h2, h3, h4, ?_, ?_, ?_, ?_, ?_, u.fsr_reserved, u.rtsOut_iff⟩
  · rintro (h | h) <;> simp only [Uart.txLevel, Uart.ptime, h, Bool.false_and, Bool.and_false] <;> rfl
  · intro hf hp
    simp +contextual [Uart.txLevel, Uart.ptime, hf, hp, tetLevel]
  · intro hf; simp [Uart.rxLevel, hf]
  · intro hf
    simp +contextual [Uart.rxLevel, hf, rtLevel]
  · rw [h0]; exact u.dr_iff
  · rw [h5]; exact u.thre_iff
  · rw [h6]; exact u.temt_iff
  · rw [h7]; exact any_flagged_iff _
  · rw [fsr_bit1]; exact u.thre_iff
  · rw [fsr_bit3]; exact u.dr_iff

end Sys2Proof.Machine
end

section
/-! SUPPORT. Proofs of the statements of 20_memory.md. `State.Stores` says once what every instruction leaves in buffer memory and
`take_mem` what a turn does to it before its instruction runs; the canonical form then rests on `memWrite_wf` alone. -/

namespace Sys2Proof.Machine

/-! ### What an instruction leaves in memory -/

@[simp] theorem finish_mem (c : Context) (n : Inst) (d : Dir) (err : Word32) (st : StatusFlags) (k : Word32) (s : State) :
    (finish c n d err st k s).mem = s.mem := by
  unfold finish
  repeat' split
  all_goals rfl

@[simp] theorem emitDisarm_mem (n : Inst) (d : Dir) (b : DmaBinding) (s : State) : (emitDisarm n d b s).mem = s.mem := by
  cases b <;> rfl

/-- Every memory an instruction can leave: the one before it, or with the bytes a read transfer of the UART it names has received in the
handler's RX service (44_irq.md R204) or in an RX beat (45_dma.md R226). -/
inductive State.Stores (s : State) (i : Instr) : Memory → Prop
  | nothing : Stores s i s.mem
  | drain {u t} (hi : i = .irq i.inst) (hu : s.uart? i.inst = some u) (ht : u.rxSlot.ownedBy .irq = some t) :
    Stores s i (rxDrain s.freeCount rxDrainMax s.mem t u).1
  | beat {u t} (hi : i = .dmaBeat i.inst 1) (hu : s.uart? i.inst = some u) (ht : u.rxSlot.ownedBy .dma = some t)
    (hd : t.done < t.len) : Stores s i (memWrite s.mem (t.buf + t.done) (u.regRead s.freeCount .data).1)

section
variable {s s' : State} {i : Instr} {n : Inst} {d : Dir} {buf len cb ctx : Word32}

theorem State.Stores.of_eq (h : s'.mem = s.mem) : s.Stores i s'.mem := h ▸ .nothing

theorem startIrq_mem {m : Byte} (h : startIrq d m n buf len cb ctx s = .next s') : s'.mem = s.mem := by
  rcases startIrq_next h with rfl | ⟨-, -, -, rfl⟩ | ⟨-, -, -, -, rfl⟩ <;> rfl

theorem startDma_mem (h : startDma d n buf len cb ctx s = .next s') : s'.mem = s.mem := by
  rcases startDma_next h with rfl | ⟨-, -, ⟨-, rfl⟩ | ⟨-, rfl⟩ | ⟨-, -, -, -, -, -, rfl⟩⟩ <;> rfl

theorem terminateIrq_mem {m : Byte} (h : terminateIrq d m n s = .next s') : s'.mem = s.mem := by
  rcases terminateIrq_next h with rfl | rfl | ⟨-, -, -, -, rfl⟩ <;> simp

theorem terminateDma_mem (h : terminateDma d n s = .next s') : s'.mem = s.mem := by
  rcases terminateDma_next h with rfl | rfl | ⟨-, -, -, -, rfl⟩ <;> simp

theorem serviceLineStatus_mem {u : Uart} (h : serviceLineStatus n u s = .next s') : s'.mem = s.mem := by
  rcases serviceLineStatus_next h with ⟨-, rfl⟩ | ⟨-, -, rfl⟩ <;> simp

theorem serviceTx_mem {u : Uart} (h : serviceTx n u s = .next s') : s'.mem = s.mem := by
  rcases serviceTx_next h with ⟨-, rfl⟩ | ⟨-, -, -, -, -, ⟨-, rfl⟩ | ⟨-, rfl⟩⟩ <;> simp

/-- The RX service leaves memory as it was, without a transfer, or as the drain loop left it. -/
theorem serviceRx_mem {u : Uart} (h : serviceRx n u s = .next s') :
    s'.mem = s.mem ∨ ∃ t, u.rxSlot.ownedBy .irq = some t ∧ s'.mem = (rxDrain s.freeCount rxDrainMax s.mem t u).1 := by
  rcases serviceRx_next h with ⟨-, rfl⟩ | ⟨t, m, t', u', ht, hr, ⟨-, rfl⟩ | ⟨-, rfl⟩⟩
  · exact .inl rfl
  · exact .inr ⟨t, ht, by simp [hr]⟩
  · exact .inr ⟨t, ht, by simp [hr]⟩

theorem execIrq_stores (h : execIrq n s = .next s') : s.Stores (.irq n) s'.mem := by
  rcases execIrq_next h with rfl | ⟨u, hu, -, ⟨-, h⟩ | ⟨-, h⟩ | ⟨-, h⟩⟩
  · exact .nothing
  · exact .of_eq (serviceLineStatus_mem h)
  · rcases serviceRx_mem h with hm | ⟨t, ht, hm⟩
    · exact .of_eq hm
    · exact hm ▸ .drain rfl hu ht
  · exact .of_eq (serviceTx_mem h)

theorem execDmaBeat_stores {dir : BitVec 8} (h : execDmaBeat n dir s = .next s') : s.Stores (.dmaBeat n dir) s'.mem := by
  rcases execDmaBeat_next h with rfl | ⟨-, h⟩ | ⟨rfl, h⟩
  · exact .nothing
  · rcases beatTx_next h with rfl | ⟨-, -, -, -, -, -, -, rfl⟩ <;> exact .nothing
  · rcases beatRx_next h with rfl | ⟨u, t, hu, ht, hd, -, rfl⟩
    · exact .nothing
    · exact .beat rfl hu ht hd

end

/-- Only the two storing events write memory (20_memory.md R80, 45_dma.md R228). -/
theorem exec_stores {i : Instr} {s s' : State} (h : exec i s = .next s') : s.Stores i s'.mem := by
  cases i with
  | irq => exact execIrq_stores h
  | dmaBeat => exact execDmaBeat_stores h
  | irqWrite | irqRead => exact .of_eq (startIrq_mem h)
  | dmaWrite | dmaRead => exact .of_eq (startDma_mem h)
  | irqWriteTerminate | irqReadTerminate => exact .of_eq (terminateIrq_mem h)
  | dmaWriteTerminate | dmaReadTerminate => exact .of_eq (terminateDma_mem h)
  | setConfig => rcases execSetConfig_next h with rfl | ⟨-, -, -, rfl⟩ <;> exact .nothing
  | setThreshold => rcases execSetThreshold_next h with rfl | ⟨-, -, -, -, rfl⟩ <;> exact .nothing
  | getStatus => rcases execGetStatus_next h with rfl | ⟨-, -, -, rfl⟩ <;> exact .nothing
  | write => obtain ⟨-, rfl | rfl | ⟨-, -, rfl⟩⟩ := execWrite_next h <;> exact .nothing
  | read => obtain ⟨-, rfl | rfl | ⟨-, -, -, -, rfl⟩⟩ := execRead_next h <;> exact .nothing
  | writeNonBlock => rcases execWriteNonBlock_next h with rfl | ⟨-, -, -, rfl⟩ | ⟨-, -, rfl⟩ <;> exact .nothing
  | readNonBlock => rcases execReadNonBlock_next h with rfl | ⟨-, -, -, rfl⟩ | ⟨-, -, -, rfl⟩ <;> exact .nothing
  | writeBuffer =>
    obtain ⟨-, rfl | rfl | ⟨-, rfl⟩ | ⟨-, -, -, rfl | ⟨-, rfl⟩⟩⟩ := execWriteBuffer_next h <;> exact .nothing
  | dmaChannelConfig =>
    rcases execDmaChannelConfig_next h with rfl | ⟨-, -, -, -, ⟨-, rfl⟩ | ⟨-, rfl⟩ | ⟨-, rfl⟩⟩ <;> exact .nothing
  | dmaDone =>
    rcases execDmaDone_next h with rfl | ⟨-, -, -, -, -, ⟨-, rfl⟩ | rfl⟩
    · exact .nothing
    · exact .of_eq (finish_mem ..)
    · exact .of_eq (finish_mem ..)
  | lineRx => rcases execLineRx_next h with rfl | ⟨-, -, rfl⟩ <;> exact .nothing
  | lineTxLoad => rcases execLineTxLoad_next h with rfl | ⟨-, -, -, -, -, -, rfl⟩ <;> exact .nothing
  | lineTxDone => rcases execLineTxDone_next h with rfl | ⟨-, -, -, -, rfl⟩ <;> exact .nothing
  | lineCto => rcases execLineCto_next h with rfl | ⟨-, -, -, rfl⟩ <;> exact .nothing
  | lineCts => rcases execLineCts_next h with rfl | ⟨-, -, rfl⟩ <;> exact .nothing

/-- Whatever an instruction stores, memory keeps its canonical form. -/
theorem State.Stores.wf {s : State} {i : Instr} {m : Memory} (h : s.Stores i m) (hs : s.MemInv) : Memory.wf m := by
  cases h with
  | nothing => exact hs
  | @drain u t =>
    obtain ⟨m', _, _, _, _, _, _, he, -, -, -, hwf⟩ := rxDrain_changes s.freeCount rxDrainMax s.mem t u
    rw [he]
    exact hwf hs
  | beat => exact memWrite_wf _ _ hs

/-! ### What a turn does to memory -/

/-- What every address holds after a byte is written (20_memory.md R80). -/
theorem memRead_memWrite {m : Memory} (a : Word32) (b : Byte) (h : Memory.wf m) (k : Word32) :
    memRead (memWrite m a b) k = if k = a then some b else memRead m k := by
  split
  · next hk => rw [hk, memRead_memWrite_self a b h]
  · next hk => exact memRead_memWrite_ne m b hk

/-- The caller's store is a whole turn: it brings no instruction (log entry 12). -/
theorem take_store {s : State} {a : Word32} {b : Byte} {ts : List Turn} (h : s.turns = .store a b :: ts) :
    take s = .done { s with turns := ts, freeCount := s.freeCount + 1, mem := memWrite s.mem a b } := by
  simp [take, h, takeTurn]

theorem takeCommand_mem (w : BitVec 144) (s : State) : (takeCommand w s).state.mem = s.mem := by
  unfold takeCommand
  split <;> rfl

theorem takeEvent_mem (w : BitVec 32) (s : State) : (takeEvent w s).state.mem = s.mem := by
  unfold takeEvent
  split <;> rfl

theorem takeHost_mem (c : Context) (s : State) : (takeHost c s).state.mem = s.mem := by
  unfold takeHost
  repeat' split
  · rfl
  · rfl
  · exact takeCommand_mem ..
  · rfl

/-- Before its instruction runs, a turn leaves memory as it was unless it is the caller's store. -/
theorem take_mem (s : State) :
    (take s).state.mem = s.mem ∨ ∃ a b ts, s.turns = .store a b :: ts ∧ (take s).state.mem = memWrite s.mem a b := by
  unfold take
  split
  · exact .inl rfl
  · next t ts hturns =>
    cases t with
    | host c => exact .inl (takeHost_mem ..)
    | event w => exact .inl (takeEvent_mem ..)
    | store a b => exact .inr ⟨a, b, ts, hturns, rfl⟩
    | callbackReturn c => exact .inl rfl

theorem take_keepsMemInv {s : State} (h : s.MemInv) : (take s).state.MemInv := by
  rcases take_mem s with hm | ⟨a, b, -, -, hm⟩
  · rw [State.MemInv, hm]; exact h
  · rw [State.MemInv, hm]; exact memWrite_wf a b h

/-! ### The statements of 20_memory.md -/

/-- Settles O10: the turn is one `memWrite`, whose reads are `memRead_memWrite`. -/
theorem stepStoresTheCallersByte : Obligations.StepStoresTheCallersByte := by
  unfold Obligations.StepStoresTheCallersByte
  intro s a b ts h hs
  exact ⟨memWrite s.mem a b, by rw [step, take_store h], memWrite_wf a b hs, memRead_memWrite a b hs⟩

/-- Settles O14: the turn keeps the canonical form (`take_keepsMemInv`), and so does what its instruction stores (`exec_stores`). -/
theorem stepKeepsMemoryCanonical : Obligations.StepKeepsMemoryCanonical := by
  unfold Obligations.StepKeepsMemoryCanonical
  intro s s' h hstep
  have hturn := take_keepsMemInv h
  rcases step_next hstep with ht | ⟨i, r, ht, hexec⟩
  · rw [ht] at hturn
    exact hturn
  · rw [ht] at hturn
    exact (exec_stores hexec).wf hturn

end Sys2Proof.Machine
end

section
/-! SUPPORT. Proofs of the statements of 30_encoding.md. The decoder reads a word only through its fields: the round trip rests on the
fields of a word put together (`cmdOp_fields` and its companions), the rest on what it answers (`decodeCommand_ok`, `decodeEvent_ok`) and
refuses. `take_presented` and `take_event` say which word a turn brings. -/

namespace Sys2Proof

/-! ### Fields of a word -/

/-- A bit of a field is a bit of the word. -/
theorem getLsbD_extract {n : Nat} (w : BitVec n) {s len k : Nat} (hk : k < len) :
    (w.extractLsb' s len).getLsbD k = w.getLsbD (s + k) := by
  simp [hk]

/-- A field of a field is a field of the word. -/
theorem extract_extract {n : Nat} (w : BitVec n) {s len k m : Nat} (h : k + m ≤ len) :
    (w.extractLsb' s len).extractLsb' k m = w.extractLsb' (s + k) m := by
  ext j hj
  have hlt : k + j < len := by omega
  simp [hlt, Nat.add_assoc]

/-- Words that agree on a run of bits agree on every bit of it. -/
theorem getLsbD_congr {n : Nat} {w w' : BitVec n} {s len : Nat} (h : w.extractLsb' s len = w'.extractLsb' s len) {k : Nat}
    (hs : s ≤ k) (hk : k < s + len) : w.getLsbD k = w'.getLsbD k := by
  obtain ⟨j, rfl⟩ := Nat.exists_eq_add_of_le hs
  have hj : j < len := by omega
  rw [← getLsbD_extract w hj, h, getLsbD_extract w' hj]

/-- Words that agree on a run of bits agree on every field inside it. -/
theorem extract_congr {n : Nat} {w w' : BitVec n} {s len : Nat} (h : w.extractLsb' s len = w'.extractLsb' s len) (k m : Nat)
    (hs : s ≤ k) (hm : k + m ≤ s + len) : w.extractLsb' k m = w'.extractLsb' k m := by
  obtain ⟨j, rfl⟩ := Nat.exists_eq_add_of_le hs
  have hj : j + m ≤ len := by omega
  rw [← extract_extract w hj, h, extract_extract w' hj]

/-- The lower of two joined parts counts once, the upper 2^m times. -/
theorem toNat_append_eq_add {n m : Nat} (x : BitVec n) (y : BitVec m) : (x ++ y).toNat = x.toNat * 2 ^ m + y.toNat := by
  rw [BitVec.toNat_append, ← Nat.shiftLeft_add_eq_or_of_lt y.isLt, Nat.shiftLeft_eq]

/-! ### Flags inside an operand field -/

/-- `valid` and `ok` stand in bit 0 of their field (R100, R96). -/
theorem flag_of_field32 : ∀ b : Bool, ((BitVec.ofBool b).setWidth 32).getLsbD 0 = b := by decide

theorem flag_of_field8 : ∀ b : Bool, ((BitVec.ofBool b).setWidth 8).getLsbD 0 = b := by decide

/-- `hw_fc` and `int_en` stand in a2[0] and a2[1] (R100). -/
theorem flags_of_field32 : ∀ b1 b0 : Bool,
    ((BitVec.ofBool b1 ++ BitVec.ofBool b0).setWidth 32).getLsbD 0 = b0 ∧
    ((BitVec.ofBool b1 ++ BitVec.ofBool b0).setWidth 32).getLsbD 1 = b1 := by decide

/-- The indicators of a received character stand in e1[2:0] (R96). -/
theorem flags_of_field8 : ∀ b2 b1 b0 : Bool,
    ((BitVec.ofBool b2 ++ BitVec.ofBool b1 ++ BitVec.ofBool b0).setWidth 8).getLsbD 0 = b0 ∧
    ((BitVec.ofBool b2 ++ BitVec.ofBool b1 ++ BitVec.ofBool b0).setWidth 8).getLsbD 1 = b1 ∧
    ((BitVec.ofBool b2 ++ BitVec.ofBool b1 ++ BitVec.ofBool b0).setWidth 8).getLsbD 2 = b2 := by decide

/-! ### Decoding undoes encoding -/

/-- Settles O1: constructor by constructor, the code selects the row and the fields of the word give the operands back. -/
theorem decodeUndoesEncode : Obligations.DecodeUndoesEncode := by
  unfold Obligations.DecodeUndoesEncode
  intro i h
  cases i with
  | setConfig | getStatus | write | read | writeNonBlock | readNonBlock | writeBuffer | irqWrite | irqRead | irqWriteTerminate
  | irqReadTerminate | dmaChannelConfig | dmaWrite | dmaRead | dmaWriteTerminate | dmaReadTerminate | setThreshold =>
    simp only [encode, cmdWord, decode, decodeCommand, cmdOp_fields, cmdInst_fields, cmdA0_fields, cmdA1_fields, cmdA2_fields,
      cmdA3_fields, byte_of_field, div_of_field, divHigh_of_field, flag_of_field32, flags_of_field32, BitVec.ofNat_eq_ofNat]
  | irq | lineRx | lineTxLoad | lineTxDone | lineCto | lineCts =>
    simp only [encode, evtWord, decode, decodeEvent, evtCode_fields, evtInst_fields, evtE0_fields, evtE1_fields, flag_of_field8,
      flags_of_field8, BitVec.ofNat_eq_ofNat]
  | dmaBeat n dir | dmaDone n dir =>
    have hdir : dir ≤ 1#8 := of_decide_eq_true h
    simp only [encode, evtWord, decode, decodeEvent, evtCode_fields, evtInst_fields, evtE0_fields, evtE1_fields, flag_of_field8,
      if_pos hdir, BitVec.ofNat_eq_ofNat]

/-- Settles O3: each word is, bit for bit, the encoding of the instruction it stands for. -/
theorem specWordsDecode : Obligations.SpecWordsDecode := by
  unfold Obligations.SpecWordsDecode
  exact ⟨decodeUndoesEncode (.setConfig 0 0x1B 0x123456 0 true false true) rfl,
    decodeUndoesEncode (.irqWrite 0 0x1000 20 1 0xA5) rfl,
    decodeUndoesEncode (.dmaDone 0 0 true) rfl,
    decodeUndoesEncode (.lineRx 0 0x7F true false false) rfl⟩

/-! ### What the decoder answers -/

/-- A command word is decoded to a well-formed command with the opcode and the UART of the word. -/
theorem decodeCommand_ok {w : BitVec 144} {i : Instr} (h : decodeCommand w = .ok i) :
    i.WellFormed = true ∧ i.isCommand = true ∧ i.code = cmdOp w ∧ i.inst = cmdInst w := by
  unfold decodeCommand at h
  split at h
  case h_18 => cases h
  all_goals next hop => cases h; exact ⟨rfl, rfl, hop.symm, rfl⟩

/-- An event word is decoded to a well-formed event with the code and the UART of the word; a DMA event has passed the check of its
direction. -/
theorem decodeEvent_ok {w : BitVec 32} {i : Instr} (h : decodeEvent w = .ok i) :
    i.WellFormed = true ∧ i.isCommand = false ∧ i.code = evtCode w ∧ i.inst = evtInst w := by
  unfold decodeEvent at h
  split at h
  case h_2 hcode | h_3 hcode =>
    split at h
    · next hdir => cases h; exact ⟨decide_eq_true hdir, rfl, hcode.symm, rfl⟩
    · cases h
  case h_9 => cases h
  all_goals next hcode => cases h; exact ⟨rfl, rfl, hcode.symm, rfl⟩

/-- Settles O2: by `decodeCommand_ok` and `decodeEvent_ok`. -/
theorem decodedHeaderIsTheWords : Obligations.DecodedHeaderIsTheWords := by
  unfold Obligations.DecodedHeaderIsTheWords
  exact ⟨fun _ _ => decodeCommand_ok, fun _ _ => decodeEvent_ok⟩

/-- An opcode that is in no row of R95 is refused (R101). -/
theorem decodeCommand_illegalOpcode {w : BitVec 144} (h : cmdOp w = 0x00 ∨ 0x12 ≤ cmdOp w) :
    decodeCommand w = .error .illegalOpcode := by
  unfold decodeCommand
  split
  case h_18 => rfl
  all_goals next hop => exact absurd h (by rw [hop]; decide)

/-- An event code that is in no row of R96 is refused (R101). -/
theorem decodeEvent_illegalEventCode {w : BitVec 32}
    (h : evtCode w ∉ [0x80#8, 0x81#8, 0x82#8, 0x88#8, 0x89#8, 0x8A#8, 0x8B#8, 0x8C#8]) :
    decodeEvent w = .error .illegalEventCode := by
  unfold decodeEvent
  split
  case h_9 => rfl
  all_goals next hcode => exact absurd (by rw [hcode]; decide) h

/-- A DMA event whose direction byte is above 1 is refused (R96). -/
theorem decodeEvent_badDirection {w : BitVec 32} (hcode : evtCode w ∈ [0x81#8, 0x82#8]) (hdir : 1 < evtE0 w) :
    decodeEvent w = .error .badDirection := by
  have hdir : ¬ evtE0 w ≤ 1 := BitVec.not_le.mpr hdir
  simp only [List.mem_cons, List.not_mem_nil, or_false] at hcode
  rcases hcode with hcode | hcode
  · simp only [decodeEvent, hcode, if_neg hdir]
  · simp only [decodeEvent, hcode, if_neg hdir]

/-! ### Operand bits that are not read -/

/-- Settles O4: the decoder reads a word through its fields, and the two words agree on those the row of their opcode names. -/
theorem unusedOperandBitsIgnored : Obligations.UnusedOperandBitsIgnored := by
  unfold Obligations.UnusedOperandBitsIgnored
  intro w w' h
  have hop : cmdOp w = cmdOp w' := extract_congr h 0 8 (by decide) (by decide)
  have hinst : cmdInst w = cmdInst w' := extract_congr h 8 8 (by decide) (by decide)
  have hbyte : 0 + 8 ≤ 32 := by decide
  have hlow (h0 : w.extractLsb' 16 8 = w'.extractLsb' 16 8) : (cmdA0 w).extractLsb' 0 8 = (cmdA0 w').extractLsb' 0 8 :=
    (extract_extract w hbyte).trans (h0.trans (extract_extract w' hbyte).symm)
  refine ⟨fun hc => ?_, fun hc h0 => ?_, fun hc h0 => ?_, fun hc h01 => ?_, fun hc h012 => ?_, fun hc h0 h12 h3 => ?_⟩
  · simp only [List.mem_cons, List.not_mem_nil, or_false] at hc
    rcases hc with hc | hc | hc | hc | hc | hc | hc <;> simp only [decode, decodeCommand, ← hop, hc, hinst]
  · simp only [List.mem_cons, List.not_mem_nil, or_false] at hc
    rcases hc with hc | hc <;> simp only [decode, decodeCommand, ← hop, hc, hinst, hlow h0]
  · have ha0 : cmdA0 w = cmdA0 w' := h0
    simp only [decode, decodeCommand, ← hop, hc, hinst, ha0]
  · have ha0 : cmdA0 w = cmdA0 w' := extract_congr h01 16 32 (by decide) (by decide)
    have ha1 : cmdA1 w = cmdA1 w' := extract_congr h01 48 32 (by decide) (by decide)
    simp only [decode, decodeCommand, ← hop, hc, hinst, ha0, ha1]
  · have ha0 : cmdA0 w = cmdA0 w' := extract_congr h012 16 32 (by decide) (by decide)
    have ha1 : cmdA1 w = cmdA1 w' := extract_congr h012 48 32 (by decide) (by decide)
    have ha2 : cmdA2 w = cmdA2 w' := extract_congr h012 80 32 (by decide) (by decide)
    simp only [decode, decodeCommand, ← hop, hc, hinst, ha0, ha1, ha2]
  · have ha1 : cmdA1 w = cmdA1 w' := extract_congr h12 48 32 (by decide) (by decide)
    have hflag {k : Nat} (hk : k < 2) : (cmdA2 w).getLsbD k = (cmdA2 w').getLsbD k :=
      (getLsbD_extract w (by omega)).trans
        ((getLsbD_congr h12 (by omega) (by omega)).trans (getLsbD_extract w' (by omega)).symm)
    have hbit : 0 < 32 := by decide
    have hvalid : (cmdA3 w).getLsbD 0 = (cmdA3 w').getLsbD 0 :=
      (getLsbD_extract w hbit).trans (h3.trans (getLsbD_extract w' hbit).symm)
    simp only [decode, decodeCommand, ← hop, hc, hinst, hlow h0, ha1, hflag Nat.zero_lt_two, hflag Nat.one_lt_two, hvalid]

end Sys2Proof

namespace Sys2Proof.Machine

/-! ### The divisor (R105) -/

theorem pack_eq_append (dlh dll dlf : Byte) : pack dlh dll dlf = dlh ++ dll ++ dlf := by
  have h := BitVec.setWidth_append_append_eq_shiftLeft_setWidth_or (w''' := 24) (b := dlh) (b' := dll) (b'' := dlf)
  simpa [pack] using h.symm

/-- Settles O5: `pack` joins the three bytes that `unpack` takes out (`pack_eq_append`). -/
theorem divisorPackingIsExact : Obligations.DivisorPackingIsExact := by
  unfold Obligations.DivisorPackingIsExact
  refine ⟨fun dlh dll dlf => ?_, fun w => ?_, fun dlh dll dlf => ?_, fun w => ?_⟩
  · rw [pack_eq_append, toNat_append_eq_add, toNat_append_eq_add]
    omega
  · have hw := w.isLt
    simp only [divHighByte, divLowByte, divFracByte, BitVec.extractLsb'_toNat, Nat.shiftRight_eq_div_pow]
    exact ⟨by omega, trivial, by omega⟩
  · rw [pack_eq_append]
    exact ⟨(extract_upper (dlh ++ dll) dlf 8 8).trans BitVec.extractLsb'_append_eq_left,
      (extract_upper (dlh ++ dll) dlf 0 8).trans BitVec.extractLsb'_append_eq_right, BitVec.extractLsb'_append_eq_right⟩
  · have hupper : divHighByte w ++ divLowByte w = w.extractLsb' 8 16 :=
      BitVec.extractLsb'_append_extractLsb'_eq_extractLsb' (by decide)
    rw [pack_eq_append, hupper]
    exact (BitVec.extractLsb'_append_extractLsb'_eq_extractLsb' (by decide)).trans (extract_all w)

/-! ### The line-control codec and the word mask (R106, R156) -/

/-- Each of the legal codes stands for one of the formats, and is the code of it. -/
theorem lineEncode_lineDecode : ∀ code : BitVec 5, lcValid (code.setWidth 8) = true →
    (lineDecode code).valid = true ∧ lineEncode (lineDecode code) = code := by decide

/-- Each of the formats has a legal code, and is the format of it; the stop bits say which lengths there are. -/
theorem lineDecode_lineEncode {f : LineFormat} (h : f.valid = true) :
    lcValid ((lineEncode f).setWidth 8) = true ∧ lineDecode (lineEncode f) = f := by
  obtain ⟨n, parity, stop⟩ := f
  simp only [LineFormat.valid, Bool.and_eq_true, decide_eq_true_eq] at h
  obtain ⟨⟨h5, h8⟩, hstop⟩ := h
  cases stop with
  | one => interval_cases n <;> cases parity <;> decide
  | oneAndHalf =>
    obtain rfl : n = 5 := of_decide_eq_true hstop
    cases parity <;> decide
  | two =>
    have h6 : 6 ≤ n := Nat.lt_of_le_of_ne h5 (Ne.symm (of_decide_eq_true hstop))
    interval_cases n <;> cases parity <;> decide

theorem lineDecode_dataBits (code : BitVec 5) : (lineDecode code).dataBits = 5 + code.toNat % 4 := by
  simp [lineDecode, BitVec.extractLsb'_toNat]

/-- PEN and EPS give the parity, STOP and the data bits the stop bits: the table of the 32 codes. -/
theorem lineDecode_parity_stop : ∀ code : BitVec 5,
    (code.getLsbD 3 = false → (lineDecode code).parity = .none) ∧
    (code.getLsbD 3 = true → code.getLsbD 4 = false → (lineDecode code).parity = .odd) ∧
    (code.getLsbD 3 = true → code.getLsbD 4 = true → (lineDecode code).parity = .even) ∧
    (code.getLsbD 2 = false → (lineDecode code).stop = .one) ∧
    (code.getLsbD 2 = true → code.toNat % 4 = 0 → (lineDecode code).stop = .oneAndHalf) ∧
    (code.getLsbD 2 = true → code.toNat % 4 ≠ 0 → (lineDecode code).stop = .two) := by decide

theorem Uart.lineFormat_dataBits (u : Uart) : u.lineFormat.dataBits = 5 + u.lcr.toNat % 4 := by
  rw [Uart.lineFormat, lineDecode_dataBits, BitVec.extractLsb'_toNat, Nat.shiftRight_zero, Nat.mod_mod_of_dvd _ (by decide)]

/-- The mask has as many bits as a character. -/
theorem Uart.wordMask_toNat (u : Uart) : u.wordMask.toNat = 2 ^ u.lineFormat.dataBits - 1 := by
  have hmask : ∀ k < 4, ((1#8 <<< (5 + k)) - 1).toNat = 2 ^ (5 + k) - 1 := by decide
  rw [Uart.wordMask, u.lineFormat_dataBits, hmask _ (Nat.mod_lt _ (by decide))]

/-- The mask of a UART whose LCR has `k` in its two low bits. -/
theorem Uart.wordMask_of_lcr {u : Uart} {k : Byte} (h : u.lcr &&& 0x03 = k) : u.wordMask = (1#8 <<< (5 + k.toNat)) - 1 := by
  have hk : u.lcr.toNat % 4 = k.toNat := by
    rw [← h, BitVec.toNat_and]
    exact (Nat.and_two_pow_sub_one_eq_mod u.lcr.toNat 2).symm
  rw [Uart.wordMask, u.lineFormat_dataBits, hk]

/-- Settles O55: both round trips, the fields of a code, and the mask by the two low bits of LCR. -/
theorem wordMaskFollowsTheWordLength : Obligations.WordMaskFollowsTheWordLength := by
  unfold Obligations.WordMaskFollowsTheWordLength
  refine ⟨lineEncode_lineDecode, fun f => lineDecode_lineEncode,
    fun code => ⟨lineDecode_dataBits code, lineDecode_parity_stop code⟩, fun u => ⟨rfl, u.wordMask_toNat, ?_⟩⟩
  exact ⟨Uart.wordMask_of_lcr, Uart.wordMask_of_lcr, Uart.wordMask_of_lcr, Uart.wordMask_of_lcr⟩

/-! ### The command port (R91) -/

/-- The word a context takes is the first that is its own; the others stay in their order. -/
theorem takePresented_some {c : Context} {l : List Presented} {p : Presented} {ps : List Presented}
    (h : takePresented c l = some (p, ps)) :
    ∃ a b : List Presented, l = a ++ p :: b ∧ ps = a ++ b ∧ p.ctx = c ∧ ∀ q ∈ a, q.ctx ≠ c := by
  induction l generalizing ps with
  | nil => cases h
  | cons x xs ih =>
    unfold takePresented at h
    split at h
    · next hx =>
      cases h
      exact ⟨[], xs, rfl, rfl, hx, nofun⟩
    · next hx =>
      split at h
      · cases h
      · next hrest =>
        cases h
        obtain ⟨a, b, rfl, rfl, hp, ha⟩ := ih hrest
        exact ⟨x :: a, b, rfl, rfl, hp, List.forall_mem_cons.mpr ⟨hx, ha⟩⟩

/-- There is none to take exactly when none waiting is the context's. -/
theorem takePresented_eq_none_iff (c : Context) (l : List Presented) : takePresented c l = none ↔ ∀ q ∈ l, q.ctx ≠ c := by
  induction l with
  | nil => simp [takePresented]
  | cons x xs ih =>
    rw [List.forall_mem_cons, ← ih, takePresented]
    by_cases hx : x.ctx = c
    · simp [hx]
    · cases h : takePresented c xs <;> simp [hx]

/-- Settles O7: by `takePresented_some` and `takePresented_eq_none_iff`. -/
theorem commandsOfAContextInOrder : Obligations.CommandsOfAContextInOrder := by
  unfold Obligations.CommandsOfAContextInOrder
  exact fun c l => ⟨fun _ _ => takePresented_some, takePresented_eq_none_iff c l⟩

/-- The Host's turn in an entered context that holds no command brings the first command it presented. -/
theorem take_presented {s : State} {c : Context} {ts : List Turn} {p : Presented} {ps : List Presented}
    (ht : s.turns = .host c :: ts) (hh : s.heldOf c = none) (he : s.entered c = true)
    (hp : takePresented c s.presented = some (p, ps)) :
    take s = takeCommand p.word { s with turns := ts, freeCount := s.freeCount + 1, presented := ps, active := p.ctx } := by
  have hh' : State.heldOf { s with turns := ts, freeCount := s.freeCount + 1 } c = none := hh
  have he' : State.entered { s with turns := ts, freeCount := s.freeCount + 1 } c = true := he
  simp only [take, ht, takeTurn, takeHost, hh', he', hp, if_true]

/-- An agent's turn brings its event word. -/
theorem take_event {s : State} {w : BitVec 32} {ts : List Turn} (ht : s.turns = .event w :: ts) :
    take s = takeEvent w { s with turns := ts, freeCount := s.freeCount + 1 } := by
  simp only [take, ht, takeTurn]

/-- Settles O6: by `take_presented` the turn brings the word, which decodes. -/
theorem stepRunsThePresentedCommand : Obligations.StepRunsThePresentedCommand := by
  unfold Obligations.StepRunsThePresentedCommand
  intro s c ts p ps i ht hh he hp hd _
  simp only [step, take_presented ht hh he hp, takeCommand, hd]

/-- Settles O8: by `take_event` the turn brings the word, which decodes. -/
theorem stepRunsTheLabelledEvent : Obligations.StepRunsTheLabelledEvent := by
  unfold Obligations.StepRunsTheLabelledEvent
  intro s w ts i ht hd _
  simp only [step, take_event ht, takeEvent, hd]

/-- Settles O11: the turn brings a word that the decoder refuses. -/
theorem illegalCodesChangeNothing : Obligations.IllegalCodesChangeNothing := by
  unfold Obligations.IllegalCodesChangeNothing
  refine ⟨fun s c ts p ps ht hh he hp hop => ?_, fun s w ts ht hw => ?_⟩
  · have hd : decode (.cmd p.word) = .error .illegalOpcode := decodeCommand_illegalOpcode hop
    simp only [step, take_presented ht hh he hp, takeCommand, hd]
    rfl
  · obtain ⟨r, hd⟩ : ∃ r, decode (.evt w) = .error r := by
      rcases hw with hcode | ⟨hcode, hdir⟩
      · exact ⟨_, decodeEvent_illegalEventCode hcode⟩
      · exact ⟨_, decodeEvent_badDirection hcode hdir⟩
    simp only [step, take_event ht, takeEvent, hd]

/-! ### Instances that do not exist, and responses (R93, R97) -/

theorem State.uart?_eq_none {s : State} {n : Inst} (h : s.uarts.length ≤ n.toNat) : s.uart? n = none :=
  List.getElem?_eq_none h

/-- A command of a UART that does not exist answers E_INVAL (60_exceptions.md R257). -/
theorem forCommand_none {n : Inst} {s : State} (k : Uart → Result) (h : s.uart? n = none) :
    forCommand n s k = .next (s.respond s.params.err.inval 0 0) := by
  simp [forCommand, h, State.raise_eq, ErrorCodes.code]

/-- Settles O28: every command opens with `forCommand`, the three that can hold after `unlessCallback`. -/
theorem missingInstanceAnswersInvalid : Obligations.MissingInstanceAnswersInvalid := by
  unfold Obligations.MissingInstanceAnswersInvalid
  intro i s hc hi hcb
  have hu : s.uart? i.inst = none := State.uart?_eq_none hi
  cases i with
  | irq | dmaBeat | dmaDone | lineRx | lineTxLoad | lineTxDone | lineCto | lineCts => cases hc
  | write | read | writeBuffer => exact (unlessCallback_false _ (hcb.resolve_left nofun)).trans (forCommand_none _ hu)
  | _ => exact forCommand_none _ hu

/-- Settles O29: the response is appended and the held command dropped by definition; its word joins `v1`, `v0` and `res`. -/
theorem responseGoesToItsContext : Obligations.ResponseGoesToItsContext := by
  unfold Obligations.ResponseGoesToItsContext
  intro s res v0 v1 r
  have hword : r.word = v1 ++ v0 ++ res := rfl
  refine ⟨rfl, s.heldOf_respond res v0 v1, ?_, ?_, ?_, ?_⟩ <;> rw [hword]
  · rw [toNat_append_eq_add, toNat_append_eq_add]
    omega
  · exact BitVec.extractLsb'_append_eq_right
  · exact (extract_upper (v1 ++ v0) res 0 32).trans BitVec.extractLsb'_append_eq_right
  · exact (extract_upper (v1 ++ v0) res 32 32).trans BitVec.extractLsb'_append_eq_left

end Sys2Proof.Machine
end

section
/-! SUPPORT. Proofs of the statements of 41_config.md. `Uart.configRegs` is what the Configuration Manager alone writes (R120): with DLAB
clear every other effect keeps it (`Uart.Effect.configRegs_eq`). The two commands are their operand checks, then the closed form of the
sequence (`configSequence_eq`) or of the FCR write (`writeFcr_fcrValue`). -/

namespace Sys2Proof.Machine

/-! ### The configuration registers (R120) -/

/-- What the Configuration Manager alone writes: LCR, MCR, the FCR shadow, the divisor latches, IER bit 7, `irq_masked`, the preset and
`cfg` (R120, R126, R130). -/
structure ConfigRegs where
  lcr : Byte
  mcr : Byte
  fifoe : Bool
  tet : BitVec 2
  rt : BitVec 2
  dll : Byte
  dlh : Byte
  dlf : Byte
  ptime : Bool
  irqMasked : Bool
  thrPreset : Preset
  cfg : Configuration

/-- The configuration registers of a UART. -/
def Uart.configRegs (u : Uart) : ConfigRegs where
  lcr := u.lcr
  mcr := u.mcr
  fifoe := u.fifoe
  tet := u.tet
  rt := u.rt
  dll := u.dll
  dlh := u.dlh
  dlf := u.dlf
  ptime := u.ptime
  irqMasked := u.irqMasked
  thrPreset := u.thrPreset
  cfg := u.cfg

theorem Uart.configRegs_eq_iff (u v : Uart) : v.configRegs = u.configRegs ↔
    v.lcr = u.lcr ∧ v.mcr = u.mcr ∧ v.fifoe = u.fifoe ∧ v.tet = u.tet ∧ v.rt = u.rt ∧ v.dll = u.dll ∧ v.dlh = u.dlh ∧
    v.dlf = u.dlf ∧ v.ptime = u.ptime ∧ v.irqMasked = u.irqMasked ∧ v.thrPreset = u.thrPreset ∧ v.cfg = u.cfg := by
  simp [Uart.configRegs]

@[simp] theorem Uart.dlab_setSlot (d : Dir) (x : Slot) (u : Uart) : (u.setSlot d x).dlab = u.dlab := by
  cases d <;> rfl

@[simp] theorem Uart.configRegs_setSlot (d : Dir) (x : Slot) (u : Uart) : (u.setSlot d x).configRegs = u.configRegs := by
  cases d <;> rfl

@[simp] theorem Uart.configRegs_setBind (d : Dir) (x : DmaBinding) (u : Uart) : (u.setBind d x).configRegs = u.configRegs := by
  cases d <;> rfl

@[simp] theorem Uart.configRegs_regRead_data (k : Nat) (u : Uart) : (u.regRead k .data).2.configRegs = u.configRegs := by
  obtain ⟨_, _, _, _, _, h, -⟩ := regRead_data_changes k u
  rw [h]; rfl

@[simp] theorem Uart.configRegs_receive (data : Byte) (pe fe bi : Bool) (u : Uart) :
    (u.receive data pe fe bi).configRegs = u.configRegs := by
  obtain ⟨_, _, _, _, _, h, -⟩ := u.receive_changes data pe fe bi
  rw [h]; rfl

/-! With DLAB clear the data port reaches THR, not DLL, and the enable port IER, not DLH (20_memory.md R62). -/

theorem Uart.configRegs_regWrite_data (b : Byte) {u : Uart} (hd : u.dlab = false) :
    (u.regWrite .data b).configRegs = u.configRegs := by
  obtain ⟨_, dll, h, hdll, -⟩ := regWrite_data_changes b u
  rw [h, hdll hd]; rfl

/-- Another IER with the same bit 7. -/
theorem Uart.configRegs_setIer {u : Uart} {ier : Byte} (h : ier[7] = u.ier[7]) :
    Uart.configRegs { u with ier := ier } = u.configRegs := by
  simp [Uart.configRegs, Uart.ptime, h]

theorem Uart.configRegs_ierSet (k : Nat) {m : Byte} (hm : m[7] = false) {u : Uart} (hd : u.dlab = false) :
    (u.ierSet k m).configRegs = u.configRegs := by
  rw [ierSet_eq k m hd]
  exact Uart.configRegs_setIer (by simp [hm])

theorem Uart.configRegs_ierClear (k : Nat) {m : Byte} (hm : m[7] = false) {u : Uart} (hd : u.dlab = false) :
    (u.ierClear k m).configRegs = u.configRegs := by
  rw [ierClear_eq k m hd]
  exact Uart.configRegs_setIer (by simp [hm])

theorem irqEnables_bit7 (d : Dir) : (irqEnables d)[7] = false := by cases d <;> rfl

theorem Uart.configRegs_endIrq (k : Nat) (d : Dir) {u : Uart} (hd : u.dlab = false) :
    (u.endIrq k d).configRegs = u.configRegs := by
  rw [Uart.endIrq, Uart.configRegs_setSlot, Uart.configRegs_ierClear k (irqEnables_bit7 d) hd]

theorem Uart.configRegs_afterService (k : Nat) (d : Dir) (t : Transfer) {u : Uart} (hd : u.dlab = false) :
    (u.afterService k d t).configRegs = u.configRegs := by
  unfold Uart.afterService
  split
  · rw [Uart.configRegs_endIrq k d (by simpa using hd), Uart.configRegs_setSlot]
  · exact u.configRegs_setSlot ..

/-- Every effect but those of the two configuration commands keeps the configuration registers (R120). -/
theorem Uart.Effect.configRegs_eq {k : Nat} {i : Instr} {u v : Uart} (h : u.Effect k i v) (hd : u.dlab = false)
    (hc : i.code ≠ 0x01) (ht : i.code ≠ 0x11) : v.configRegs = u.configRegs := by
  cases h with
  | configure hi => exact absurd hi hc
  | threshold hi => exact absurd hi ht
  | readLsr => rfl
  | readLsrThenData => exact Uart.configRegs_regRead_data ..
  | readData => exact u.configRegs_regRead_data k
  | writeData => exact Uart.configRegs_regWrite_data _ hd
  | bindDma => exact u.configRegs_setBind ..
  | startIrq => rw [Uart.configRegs_ierSet k (irqEnables_bit7 _) (by simpa using hd), Uart.configRegs_setSlot]
  | startDma | endDma => exact u.configRegs_setSlot ..
  | endIrq => exact Uart.configRegs_endIrq k _ hd
  | clearStrayEnables => exact Uart.configRegs_ierClear k (irqEnables_bit7 _) hd
  | serviceTx _ _ hdll =>
    cases hdll hd
    exact Uart.configRegs_afterService k _ _ hd
  | serviceRx => exact Uart.configRegs_afterService k _ _ hd
  | clearStrayLineStatus => exact Uart.configRegs_ierClear k rfl hd
  | lineError => exact Uart.configRegs_endIrq k _ hd
  | beatTx => rw [Uart.configRegs_setSlot, Uart.configRegs_regWrite_data _ hd]
  | beatRx => rw [Uart.configRegs_setSlot, Uart.configRegs_regRead_data]
  | receive => exact u.configRegs_receive ..
  | loadShifter | sendShifter | timeout | clearToSend => rfl

/-! ### What the two configuration commands leave (R120) -/

/-- What the Configuration Manager never touches: the slots and IER bits 2:0. -/
def Uart.SameTransfers (u v : Uart) : Prop :=
  v.txSlot = u.txSlot ∧ v.rxSlot = u.rxSlot ∧ v.ier &&& 0x07 = u.ier &&& 0x07

theorem Uart.SameTransfers.refl (u : Uart) : u.SameTransfers u := ⟨rfl, rfl, rfl⟩

theorem Uart.sameTransfers_configure (k : Nat) {lc : BitVec 8} (div : BitVec 24) (fc ie : Bool) (cfg : Configuration) (u : Uart)
    (hl : lcValid lc = true) : u.SameTransfers { configSequence k lc div fc ie u with cfg := cfg } := by
  have hier : ∀ x : Byte, (x &&& 0x07 ||| 0x80) &&& 0x07 = x &&& 0x07 := by decide
  rw [configSequence_eq k div fc ie u hl]
  exact ⟨rfl, rfl, hier u.ier⟩

theorem Uart.sameTransfers_threshold (p : Preset) (u : Uart) :
    u.SameTransfers (({ u with thrPreset := p } : Uart).writeFcr (fcrValue p)) := by
  rw [writeFcr_fcrValue]
  exact .refl u

/-- A write of one UART that keeps its transfers keeps those of every UART. -/
theorem State.sameTransfers_setUart {s : State} {n m : Inst} {r w u v : Uart} (hr : s.uart? n = some r) (hw : r.SameTransfers w)
    (hu : s.uart? m = some u) (hv : (s.setUart n w).uart? m = some v) : u.SameTransfers v := by
  by_cases hm : m = n
  · subst hm
    cases hr.symm.trans hu
    cases (State.uart?_setUart_self hr).symm.trans hv
    exact hw
  · rw [State.uart?_setUart_ne hm, hu] at hv
    cases hv
    exact .refl u

theorem execSetConfig_sameTransfers {n : Inst} {lc : BitVec 8} {div : BitVec 24} {divHigh : BitVec 8} {fc ie valid : Bool}
    {s s' : State} (h : execSetConfig n lc div divHigh fc ie valid s = .next s') {m : Inst} {u v : Uart} (hu : s.uart? m = some u)
    (hv : s'.uart? m = some v) : u.SameTransfers v ∧ s'.mem = s.mem := by
  rcases execSetConfig_next h with rfl | ⟨r, hr, hl, rfl⟩
  · cases hu.symm.trans hv
    exact ⟨.refl u, rfl⟩
  · exact ⟨State.sameTransfers_setUart hr (Uart.sameTransfers_configure _ div fc ie _ r hl) hu hv, rfl⟩

theorem execSetThreshold_sameTransfers {n : Inst} {preset : Word32} {s s' : State} (h : execSetThreshold n preset s = .next s')
    {m : Inst} {u v : Uart} (hu : s.uart? m = some u) (hv : s'.uart? m = some v) : u.SameTransfers v ∧ s'.mem = s.mem := by
  rcases execSetThreshold_next h with rfl | ⟨r, p, hr, -, rfl⟩
  · cases hu.symm.trans hv
    exact ⟨.refl u, rfl⟩
  · exact ⟨State.sameTransfers_setUart hr (Uart.sameTransfers_threshold p r) hu hv, rfl⟩

/-- The configuration commands leave slots, IER bits 2:0 and memory as they were (R120). -/
theorem exec_config_sameTransfers {i : Instr} {s s' : State} (hi : i.code = 0x01 ∨ i.code = 0x11) (h : exec i s = .next s')
    {m : Inst} {u v : Uart} (hu : s.uart? m = some u) (hv : s'.uart? m = some v) : u.SameTransfers v ∧ s'.mem = s.mem := by
  cases i with
  | setConfig => exact execSetConfig_sameTransfers h hu hv
  | setThreshold => exact execSetThreshold_sameTransfers h hu hv
  | _ => simp [Instr.code] at hi

/-- Settles O25: a UART is as before, or it is the one named, after an effect that keeps `Uart.configRegs`; DLAB is clear by the
invariant. The two commands by their inversions. -/
theorem onlyConfigurationWritesConfiguration : Obligations.OnlyConfigurationWritesConfiguration := by
  unfold Obligations.OnlyConfigurationWritesConfiguration
  intro i s s' n u u' hinv h hu hu'
  constructor
  · rintro ⟨hc, ht⟩
    rw [← Uart.configRegs_eq_iff]
    rcases (exec_performs h).uart?_cases hu' with hsame | ⟨w, -, hw, he⟩
    · cases hu.symm.trans hsame
      rfl
    · cases hu.symm.trans hw
      exact he.configRegs_eq (hinv u (List.mem_of_getElem? hu)).dlab_eq_false hc ht
  · intro hi
    obtain ⟨⟨htx, hrx, hier⟩, hmem⟩ := exec_config_sameTransfers hi h hu hu'
    exact ⟨htx, hrx, hier, hmem⟩

/-! ### set_config (R121 to R126) -/

/-- `LcValid` as R123 writes it. -/
theorem lcValid_iff : ∀ c : BitVec 8, lcValid c = true ↔ c ≤ 0x1F ∧ ¬ (c.getLsbD 4 = true ∧ c.getLsbD 3 = false) := by
  decide

theorem execSetConfig_rejects {s : State} {n : Inst} {u : Uart} {lc : BitVec 8} {div : BitVec 24} {divHigh : BitVec 8}
    {fc ie valid : Bool} (hu : s.uart? n = some u) (h : valid = false ∨ ¬ lcValid lc = true ∨ divHigh ≠ 0) :
    execSetConfig n lc div divHigh fc ie valid s = .next (s.respond s.params.err.inval 0 0) := by
  rw [execSetConfig, forCommand_some _ hu]
  split
  · rfl
  · next hvalid =>
    split
    · rfl
    · next hlc =>
      exact if_pos ((h.resolve_left (by simpa using hvalid)).resolve_left (by simpa using hlc))

theorem execSetConfig_applies {s : State} {n : Inst} {u : Uart} {lc : BitVec 8} (div : BitVec 24) (fc ie : Bool)
    (hu : s.uart? n = some u) (hl : lcValid lc = true) :
    execSetConfig n lc div 0 fc ie true s = .next ((s.setUart n { configSequence s.freeCount lc div fc ie u with
      cfg := { lineControl := lc, baudDivisor := div, hwFc := fc, intEn := ie } }).respond 0 0 0) := by
  rw [execSetConfig, forCommand_some _ hu]
  simp [hl, State.returnOk_eq]

/-- Settles O30: the operand checks, then the sequence in closed form (`configSequence_eq`). -/
theorem setConfigApplies : Obligations.SetConfigApplies := by
  unfold Obligations.SetConfigApplies
  intro s n lc div divHigh fc ie valid
  refine ⟨fun hu => forCommand_none _ hu, fun u hu => ?_⟩
  simp only [← lcValid_iff]
  split
  · next h => exact execSetConfig_rejects hu h
  · next h =>
    obtain ⟨hvalid, hl, hdiv⟩ : valid = true ∧ lcValid lc = true ∧ divHigh = 0 := by simpa using h
    subst hvalid hdiv
    refine (execSetConfig_applies div fc ie hu hl).trans ?_
    rw [configSequence_eq _ div fc ie u hl]
    rfl

/-! ### set_threshold (R130) -/

/-- The preset is the operand itself, and there is none above 1. -/
theorem presetOf_eq (w : Word32) :
    presetOf w = if 1 < w then none else some (if w = 0 then .halfHalf else .emptyOne) := by
  unfold presetOf
  split
  · rfl
  · rfl
  · next h0 h1 =>
    have hne : w ≠ 0#32 ∧ w ≠ 1#32 := ⟨h0, h1⟩
    rw [if_pos (by bv_omega)]

/-- Settles O31: the preset check (`presetOf_eq`), then the FCR write in closed form (`writeFcr_fcrValue`). -/
theorem setThresholdAppliesThePreset : Obligations.SetThresholdAppliesThePreset := by
  unfold Obligations.SetThresholdAppliesThePreset
  intro s n preset
  refine ⟨fun hu => forCommand_none _ hu, fun u hu => (forCommand_some _ hu).trans ?_⟩
  rw [presetOf_eq]
  by_cases hbad : 1 < preset
  · rw [if_pos hbad, if_pos hbad]
    rfl
  · rw [if_neg hbad, if_neg hbad]
    by_cases h0 : preset = 0 <;> simp [h0, Uart.regWrite, writeFcr_fcrValue, State.returnOk_eq]

end Sys2Proof.Machine
end

section
/-! SUPPORT. Proofs of the statements of 42_status_fifo.md. Each event of the Line agent is said once on a UART it finds enabled; the round
trip of R157 is then a chain of five such steps, each from the state the one before it left. -/

namespace Sys2Proof.Machine

/-- An event that is not enabled changes nothing (log entry 3). -/
theorem forEvent_disabled {n : Inst} {s : State} {p : Uart → Bool} {u : Uart} (k : Uart → Result) (h : s.uart? n = some u)
    (hp : p u = false) : forEvent n s p k = .next s := by
  simp [forEvent, h, hp]

/-! ### StatusFlags (R141, R142) -/

theorem Uart.temt_eq (u : Uart) : u.temt = decide (u.txCount = 0 ∧ u.shifter = .idle) := by
  rw [Bool.eq_iff_iff, Uart.temt_iff, decide_eq_true_iff, Uart.txCount, List.length_eq_zero_iff]

/-- The nine bits of StatusFlags, as the response carries them. -/
theorem setWidth_statusFlags : ∀ oe pe fe bi temt dr thre : Bool,
    ((if oe then 0x002 else 0) + (if pe then 0x004 else 0) + (if fe then 0x008 else 0) + (if bi then 0x010 else 0)
      + (if temt then 0 else 0x020) + (if dr then 0x040 else 0) + (if thre then 0x080 else 0)
      + (if dr then 0x100 else 0) : StatusFlags).setWidth 32 =
    (if oe then 0x002 else 0) + (if pe then 0x004 else 0) + (if fe then 0x008 else 0) + (if bi then 0x010 else 0)
      + (if temt then 0 else 0x020) + (if dr then 0x040 else 0) + (if thre then 0x080 else 0) + (if dr then 0x100 else 0) := by
  decide

/-- `StatusOf` of a UART's own LSR and FSR (R141). -/
theorem Uart.setWidth_statusOf (u : Uart) : (statusOf u.lsr u.fsr).setWidth 32 =
    (if u.latOe then 0x002 else 0) + (if u.latPe then 0x004 else 0) + (if u.latFe then 0x008 else 0)
      + (if u.latBi then 0x010 else 0) + (if u.txCount = 0 ∧ u.shifter = .idle then 0 else 0x020)
      + (if 0 < u.rxCount then 0x040 else 0) + (if u.txCount < u.depth then 0x080 else 0)
      + (if 0 < u.rxCount then 0x100 else 0) := by
  rw [Uart.lsr, Uart.fsr, statusOf_flags, setWidth_statusFlags]
  simp only [Uart.temt_eq, Uart.dr, Uart.thre, decide_eq_true_iff]

/-- `ErrOf` of a UART's own LSR (R142). -/
theorem Uart.setWidth_errOf (u : Uart) : (errOf u.lsr).setWidth 32 =
    (if u.latOe then 0x002 else 0) + (if u.latPe then 0x004 else 0) + (if u.latFe then 0x008 else 0)
      + (if u.latBi then 0x010 else 0) := by
  rw [Uart.lsr, errOf_flags]
  cases u.latOe <;> cases u.latPe <;> cases u.latFe <;> cases u.latBi <;> rfl

/-- Settles O32: LSR and FSR are read in the state before (`Uart.setWidth_statusOf`); only the read of LSR clears, the four latches. -/
theorem getStatusReportsAndClears : Obligations.GetStatusReportsAndClears := by
  unfold Obligations.GetStatusReportsAndClears
  intro s n
  refine ⟨fun hu => forCommand_none _ hu, fun u hu => (forCommand_some _ hu).trans ?_⟩
  rw [← u.setWidth_statusOf]
  rfl

/-! ### A received character (R151) -/

/-- With room the character is the newest entry; its flags are latched iff it is the head (10_state.md R41). -/
theorem Uart.receive_room {u : Uart} (data : Byte) (pe fe bi : Bool) (h : u.rxCount < u.depth) :
    u.receive data pe fe bi = { u with
      rxFifo := u.rxFifo ++ [{ data := data &&& u.wordMask, pe := pe, fe := fe, bi := bi }]
      latPe := u.latPe || (decide (u.rxFifo = []) && pe)
      latFe := u.latFe || (decide (u.rxFifo = []) && fe)
      latBi := u.latBi || (decide (u.rxFifo = []) && bi) } := by
  rw [Uart.receive, if_pos h]
  by_cases hempty : u.rxFifo = []
  · simp [Uart.rxCount, hempty, Uart.exposeHead]
  · simp [Uart.rxCount, hempty]

theorem Uart.receive_full {u : Uart} (data : Byte) (pe fe bi : Bool) (h : ¬ u.rxCount < u.depth) :
    u.receive data pe fe bi = { u with latOe := true } :=
  if_neg h

theorem execLineRx_some {s : State} {n : Inst} {u : Uart} (data : Byte) (pe fe bi : Bool) (hu : s.uart? n = some u) :
    execLineRx n data pe fe bi s = .next (s.setUart n (u.receive data pe fe bi)) :=
  forEvent_some _ hu rfl

/-- Settles O53: the event is always enabled; the two cases of `Uart.receive`. -/
theorem lineRxReceivesACharacter : Obligations.LineRxReceivesACharacter := by
  unfold Obligations.LineRxReceivesACharacter
  intro s n u data pe fe bi hu
  refine (execLineRx_some data pe fe bi hu).trans ?_
  split
  · next h => rw [Uart.receive_room data pe fe bi h]
  · next h => rw [Uart.receive_full data pe fe bi h]

/-! ### The transmit shifter (R152, R153) -/

theorem Uart.loadEnabled_iff (u : Uart) :
    u.loadEnabled = true ↔ u.txFifo ≠ [] ∧ u.shifter = .idle ∧ (u.afce = false ∨ u.ctsIn = true) := by
  simp [Uart.loadEnabled, Uart.txCount, List.length_pos_iff, Uart.shiftBusy_eq_false, and_assoc]

theorem Uart.loadEnabled_eq_false_iff (u : Uart) :
    u.loadEnabled = false ↔ u.txFifo = [] ∨ u.shifter ≠ .idle ∨ (u.afce = true ∧ u.ctsIn = false) := by
  rw [← Bool.not_eq_true, u.loadEnabled_iff]
  simp only [not_and_or, not_or, ne_eq, not_not, Bool.not_eq_false, Bool.not_eq_true]

theorem execLineTxLoad_cons {s : State} {n : Inst} {u : Uart} {b : Byte} {rest : List Byte} (hu : s.uart? n = some u)
    (hf : u.txFifo = b :: rest) (hs : u.shifter = .idle) (hc : u.afce = false ∨ u.ctsIn = true) :
    execLineTxLoad n s = .next (s.setUart n { u with txFifo := rest, shifter := .busy (b &&& u.wordMask) }) := by
  rw [execLineTxLoad, forEvent_some _ hu (u.loadEnabled_iff.mpr ⟨by simp [hf], hs, hc⟩), hf]

/-- Settles O54: `Uart.loadEnabled_iff` is the condition of R152; the second clause is its negation. -/
theorem lineTxLoadTakesTheOldestByte : Obligations.LineTxLoadTakesTheOldestByte := by
  unfold Obligations.LineTxLoadTakesTheOldestByte
  intro s n u hu
  exact ⟨fun b rest hf hs hc => execLineTxLoad_cons hu hf hs hc,
    fun hoff => forEvent_disabled _ hu (u.loadEnabled_eq_false_iff.mpr hoff)⟩

theorem execLineTxDone_busy {s : State} {n : Inst} {u : Uart} {b : Byte} (hu : s.uart? n = some u) (hs : u.shifter = .busy b) :
    execLineTxDone n s = .next (s.setUart n { u with wireLog := u.wireLog ++ [b], shifter := .idle }) := by
  rw [execLineTxDone, forEvent_some _ hu (by simp [Uart.shiftBusy, hs]), hs]

/-! ### The character timeout (R154) -/

theorem Uart.ctoEnabled_iff (u : Uart) : u.ctoEnabled = true ↔ u.fifoe = true ∧ u.rxFifo ≠ [] ∧ u.cto = false := by
  simp [Uart.ctoEnabled, Uart.dr_iff, and_assoc]

theorem Uart.ctoEnabled_eq_false_iff (u : Uart) : u.ctoEnabled = false ↔ u.fifoe = false ∨ u.rxFifo = [] ∨ u.cto = true := by
  rw [← Bool.not_eq_true, u.ctoEnabled_iff]
  simp only [not_and_or, ne_eq, not_not, Bool.not_eq_false, Bool.not_eq_true]

/-- Settles O56: each event on a UART it finds enabled, and on one it does not. -/
theorem lineDoneTimeoutAndCts : Obligations.LineDoneTimeoutAndCts := by
  unfold Obligations.LineDoneTimeoutAndCts
  intro s n u hu
  exact ⟨fun b hs => execLineTxDone_busy hu hs, fun hs => forEvent_disabled _ hu (u.shiftBusy_eq_false.mpr hs),
    fun hf hr hc => forEvent_some _ hu (u.ctoEnabled_iff.mpr ⟨hf, hr, hc⟩),
    fun hoff => forEvent_disabled _ hu (u.ctoEnabled_eq_false_iff.mpr hoff), fun level => forEvent_some _ hu rfl⟩

/-! ### The loopback round trip (R157) -/

theorem Uart.depth_pos (u : Uart) : 0 < u.depth := by
  unfold Uart.depth
  split <;> decide

/-- `write` with room (43_sync.md R170). -/
theorem execWrite_room {s : State} {n : Inst} {u : Uart} (b : Byte) (hcb : s.active ∉ s.callbacks) (hu : s.uart? n = some u)
    (hd : u.dlab = false) (hr : u.thre = true) :
    execWrite n b s = .next ((s.setUart n { u with txFifo := u.txFifo ++ [b] }).respond 0 0 0) := by
  rw [execWrite, unlessCallback_false _ hcb, forCommand_some _ hu, if_pos hr, regWrite_data_room b hd hr, State.returnOk_eq]

/-- `read` with a character waiting: LSR is read, and cleared, before the pop exposes the next head (43_sync.md R172). -/
theorem execRead_cons {s : State} {n : Inst} {u : Uart} {e : RxEntry} {rest : List RxEntry} (hcb : s.active ∉ s.callbacks)
    (hu : s.uart? n = some u) (hd : u.dlab = false) (hf : u.rxFifo = e :: rest) :
    execRead n s = .next ((s.setUart n { u with
      rxFifo := rest
      cto := false
      latOe := false
      latPe := headFlag RxEntry.pe rest
      latFe := headFlag RxEntry.fe rest
      latBi := headFlag RxEntry.bi rest }).respond 0 (e.data.setWidth 32)
        ((if u.latOe then 0x002 else 0) + (if u.latPe then 0x004 else 0) + (if u.latFe then 0x008 else 0)
          + (if u.latBi then 0x010 else 0))) := by
  have hdr : u.dr = true := u.dr_iff.mpr (by simp [hf])
  have hlsr : u.regRead s.freeCount .lineStatus = u.readLsr := rfl
  have hpop := regRead_data_closed s.freeCount (u := u.readLsr.2) hd hf
  rw [execRead, unlessCallback_false _ hcb, forCommand_some _ hu, if_pos hdr, ← u.setWidth_errOf]
  simp only [hlsr, hpop]
  simp [Uart.readLsr]

/-- The sending half: on an idle UART `write`, LINE_TX_LOAD and LINE_TX_DONE leave no trace of the character but on the wire, masked to
the word length (R156), and in the response. -/
theorem write_load_done {s : State} {n : Inst} {u : Uart} (b : Byte) (hcb : s.active ∉ s.callbacks) (hu : s.uart? n = some u)
    (hd : u.dlab = false) (htx : u.txFifo = []) (hs : u.shifter = .idle) (hflow : u.afce = false ∨ u.ctsIn = true) :
    ∃ s1 s2 s3, execWrite n b s = .next s1 ∧ execLineTxLoad n s1 = .next s2 ∧ execLineTxDone n s2 = .next s3 ∧
      s3.uart? n = some { u with wireLog := u.wireLog ++ [b &&& u.wordMask] } ∧ s3.active = s.active ∧
      s3.callbacks = s.callbacks ∧ s3.responses = s.responses ++ [(s.active, { res := 0, v0 := 0, v1 := 0 })] := by
  have hthre : u.thre = true := u.thre_iff.mpr (by simp [htx, u.depth_pos])
  have hwrite := execWrite_room b hcb hu hd hthre
  rw [htx, List.nil_append] at hwrite
  have hwritten := State.uart?_setUart_self (u := { u with txFifo := [b] }) hu
  rw [← State.uart?_respond _ 0 0 0] at hwritten
  have hload := execLineTxLoad_cons hwritten rfl hs hflow
  have hloaded := State.uart?_setUart_self (u := { u with txFifo := [], shifter := .busy (b &&& u.wordMask) }) hwritten
  refine ⟨_, _, _, hwrite, hload, execLineTxDone_busy hloaded rfl, (State.uart?_setUart_self hloaded).trans ?_, rfl, rfl, rfl⟩
  simp [htx, hs]

/-- An error-free character that arrives at an empty RX FIFO waits there alone and sets no latch. -/
theorem Uart.receive_empty {u : Uart} (data : Byte) (hrx : u.rxFifo = []) :
    u.receive data false false false =
      { u with rxFifo := [{ data := data &&& u.wordMask, pe := false, fe := false, bi := false }] } := by
  rw [Uart.receive_room data _ _ _ (by simp [Uart.rxCount, hrx, u.depth_pos])]
  simp [hrx]

/-- The receiving half: an error-free character of the word length that arrives at an empty RX FIFO is what the next `read` answers,
without an error flag. -/
theorem receive_read {s : State} {n : Inst} {u : Uart} (data : Byte) (hcb : s.active ∉ s.callbacks) (hu : s.uart? n = some u)
    (hd : u.dlab = false) (hrx : u.rxFifo = []) (herr : u.lineErr = false) (hfits : data &&& u.wordMask = data) :
    ∃ s1 s2, execLineRx n data false false false s = .next s1 ∧ execRead n s1 = .next s2 ∧
      s2.responses = s.responses ++ [(s.active, { res := 0, v0 := data.setWidth 32, v1 := 0 })] := by
  obtain ⟨⟨⟨hoe, hpe⟩, hfe⟩, hbi⟩ : ((u.latOe = false ∧ u.latPe = false) ∧ u.latFe = false) ∧ u.latBi = false := by
    simpa [Uart.lineErr] using herr
  have hrecv := execLineRx_some data false false false hu
  rw [u.receive_empty data hrx] at hrecv
  refine ⟨_, _, hrecv, execRead_cons hcb (State.uart?_setUart_self hu) hd rfl, ?_⟩
  simp [hoe, hpe, hfe, hbi, hfits]

/-- Settles O59: the sending half, then the receiving half on the character the wire carried, which is masked already. -/
theorem loopbackReturnsTheCharacter : Obligations.LoopbackReturnsTheCharacter := by
  unfold Obligations.LoopbackReturnsTheCharacter
  intro s n u b hu hd hcb htx hrx hs herr hflow
  have hfits : (b &&& u.wordMask) &&& u.wordMask = b &&& u.wordMask := by rw [BitVec.and_assoc, BitVec.and_self]
  obtain ⟨s1, s2, s3, hwrite, hload, hdone, hu3, hactive, hcbs, hsent⟩ := write_load_done b hcb hu hd htx hs hflow
  obtain ⟨s4, s5, hrecv, hread, hanswer⟩ := receive_read _ (by rwa [hactive, hcbs]) hu3 hd hrx herr hfits
  refine ⟨s1, s2, s3, s4, s5, _, _, hwrite, hload, hdone, hu3, rfl, rfl, hrecv, hread, ?_⟩
  rw [hanswer, hsent, hactive, List.append_assoc]
  rfl

end Sys2Proof.Machine
end

section
/-! SUPPORT. Proofs of the statements of 43_sync.md. The data port is all a synchronous command touches of a UART (`Uart.SameEngines`,
R180); each command is then said once on a UART with DLAB clear, for each case of the FIFO it tests. -/

namespace Sys2Proof.Machine

/-! ### What the synchronous engine leaves (R180) -/

/-- What the synchronous engine never touches of a UART: slots, bindings, IER, the shifter and the wire trace. -/
def Uart.SameEngines (u v : Uart) : Prop :=
  v.txSlot = u.txSlot ∧ v.rxSlot = u.rxSlot ∧ v.txBind = u.txBind ∧ v.rxBind = u.rxBind ∧ v.ier = u.ier ∧
  v.shifter = u.shifter ∧ v.wireLog = u.wireLog

theorem Uart.SameEngines.refl (u : Uart) : u.SameEngines u := ⟨rfl, rfl, rfl, rfl, rfl, rfl, rfl⟩

theorem Uart.sameEngines_regWrite_data (b : Byte) (u : Uart) : u.SameEngines (u.regWrite .data b) := by
  obtain ⟨_, _, h, -⟩ := regWrite_data_changes b u
  rw [h]; exact .refl u

theorem Uart.sameEngines_regRead_data (k : Nat) (u : Uart) : u.SameEngines (u.regRead k .data).2 := by
  obtain ⟨_, _, _, _, _, h, -⟩ := regRead_data_changes k u
  rw [h]; exact .refl u

/-- What the synchronous engine leaves of the whole block: the traces, memory, and of every UART what `Uart.SameEngines` names. -/
def State.SameEngines (s s' : State) : Prop :=
  s'.cbLog = s.cbLog ∧ s'.dmaLog = s.dmaLog ∧ s'.mem = s.mem ∧
  ∀ (n : Inst) (u u' : Uart), s.uart? n = some u → s'.uart? n = some u' → u.SameEngines u'

namespace State.SameEngines
variable {s s' : State}

theorem refl (s : State) : s.SameEngines s :=
  ⟨rfl, rfl, rfl, fun _ u _ hu hu' => by cases hu.symm.trans hu'; exact .refl u⟩

theorem setUart {n : Inst} {u v : Uart} (hu : s.uart? n = some u) (h : u.SameEngines v) : s.SameEngines (s.setUart n v) := by
  refine ⟨rfl, rfl, rfl, fun m w w' hw hw' => ?_⟩
  by_cases hm : m = n
  · subst hm
    cases hu.symm.trans hw
    cases (State.uart?_setUart_self hu).symm.trans hw'
    exact h
  · rw [State.uart?_setUart_ne hm, hw] at hw'
    cases hw'
    exact .refl w

theorem respond {r v w : Word32} (h : s.SameEngines s') : s.SameEngines (s'.respond r v w) := h

theorem hold {i : Instr} {k : Word32} (h : s.SameEngines s') : s.SameEngines (s'.hold i k) := h

end State.SameEngines

/-- Every outcome of the five commands answers or is held, after at most a read of LSR and one access of the data port. -/
theorem exec_synchronous_sameEngines {i : Instr} {s s' : State} (hi : isSynchronous i = true) (h : exec i s = .next s') :
    s.SameEngines s' := by
  cases i with
  | write =>
    obtain ⟨-, rfl | rfl | ⟨u, hu, rfl⟩⟩ := execWrite_next h
    · exact (State.SameEngines.refl s).respond
    · exact (State.SameEngines.refl s).hold
    · exact (State.SameEngines.setUart hu (u.sameEngines_regWrite_data _)).respond
  | read =>
    obtain ⟨-, rfl | rfl | ⟨u, _, _, hu, rfl⟩⟩ := execRead_next h
    · exact (State.SameEngines.refl s).respond
    · exact (State.SameEngines.refl s).hold
    · have hkeep : u.SameEngines (u.readLsr.2.regRead s.freeCount .data).2 := u.readLsr.2.sameEngines_regRead_data _
      exact (State.SameEngines.setUart hu hkeep).respond
  | writeNonBlock =>
    obtain rfl | ⟨-, -, -, rfl⟩ | ⟨u, hu, rfl⟩ := execWriteNonBlock_next h
    · exact (State.SameEngines.refl s).respond
    · exact (State.SameEngines.refl s).respond
    · exact (State.SameEngines.setUart hu (u.sameEngines_regWrite_data _)).respond
  | readNonBlock =>
    obtain rfl | ⟨-, -, -, rfl⟩ | ⟨u, _, hu, rfl⟩ := execReadNonBlock_next h
    · exact (State.SameEngines.refl s).respond
    · exact (State.SameEngines.refl s).respond
    · exact (State.SameEngines.setUart hu (u.sameEngines_regRead_data _)).respond
  | writeBuffer =>
    obtain ⟨-, rfl | rfl | ⟨_, rfl⟩ | ⟨u, _, hu, rfl | ⟨_, rfl⟩⟩⟩ := execWriteBuffer_next h
    · exact (State.SameEngines.refl s).respond
    · exact (State.SameEngines.refl s).respond
    · exact (State.SameEngines.refl s).hold
    · exact (State.SameEngines.setUart hu (u.sameEngines_regWrite_data _)).respond
    · exact (State.SameEngines.setUart hu (u.sameEngines_regWrite_data _)).hold
  | _ => cases hi

/-- Settles O26: the data port reaches no slot, binding, IER or shifter, whatever DLAB is, so the invariant is not needed. -/
theorem synchronousCommandsLeaveTransfersAlone : Obligations.SynchronousCommandsLeaveTransfersAlone := by
  unfold Obligations.SynchronousCommandsLeaveTransfersAlone
  intro i s s' hi _ h
  exact exec_synchronous_sameEngines hi h

/-! ### Room in the TX FIFO, characters in the RX FIFO -/

theorem Uart.thre_eq_false_iff (u : Uart) : u.thre = false ↔ u.depth ≤ u.txCount := by
  simp [Uart.thre]

theorem Uart.dr_eq_false {u : Uart} (h : u.rxFifo = []) : u.dr = false := by
  simp [Uart.dr, Uart.rxCount, h]

/-! ### write (R170) -/

theorem execWrite_full {s : State} {n : Inst} {u : Uart} (b : Byte) (hcb : s.active ∉ s.callbacks) (hu : s.uart? n = some u)
    (hfull : u.thre = false) : execWrite n b s = .next (s.hold (.write n b) 0) := by
  rw [execWrite, unlessCallback_false _ hcb, forCommand_some _ hu, if_neg (by simp [hfull])]

/-- Settles O33: `execWrite_room` and `execWrite_full`, by the same test of the TX FIFO. -/
theorem writeWaitsForRoom : Obligations.WriteWaitsForRoom := by
  unfold Obligations.WriteWaitsForRoom
  intro s n b hcb
  refine ⟨fun hu => (unlessCallback_false _ hcb).trans (forCommand_none _ hu), fun u hu hd => ?_⟩
  split
  · next hroom => exact execWrite_room b hcb hu hd (u.thre_iff.mpr hroom)
  · next hfull => exact execWrite_full b hcb hu (u.thre_eq_false_iff.mpr (Nat.le_of_not_lt hfull))

/-! ### read (R172) -/

theorem execRead_nil {s : State} {n : Inst} {u : Uart} (hcb : s.active ∉ s.callbacks) (hu : s.uart? n = some u)
    (hempty : u.rxFifo = []) : execRead n s = .next (s.hold (.read n) 0) := by
  rw [execRead, unlessCallback_false _ hcb, forCommand_some _ hu, if_neg (by simp [u.dr_eq_false hempty])]

/-- Settles O34: `execRead_cons` and `execRead_nil`, by the oldest character if there is one. -/
theorem readTakesTheOldestCharacter : Obligations.ReadTakesTheOldestCharacter := by
  unfold Obligations.ReadTakesTheOldestCharacter
  intro s n hcb
  exact ⟨fun hu => (unlessCallback_false _ hcb).trans (forCommand_none _ hu), fun u hu hd =>
    ⟨fun e rest hf => execRead_cons hcb hu hd hf, fun hempty => execRead_nil hcb hu hempty⟩⟩

/-! ### write_non_block (R174) -/

theorem execWriteNonBlock_some {s : State} {n : Inst} {u : Uart} (b : Byte) (hu : s.uart? n = some u) :
    execWriteNonBlock n b s =
      if u.thre then .next ((s.setUart n (u.regWrite .data b)).respond 0 0 0) else .next (s.respond s.params.err.again 0 0) := by
  have hfsr : u.regRead s.freeCount .fifoStatus = (u.fsr, u) := rfl
  rw [execWriteNonBlock, forCommand_some _ hu]
  simp only [hfsr, fsr_bit1]
  cases u.thre <;> rfl

/-- Settles O35: FSR bit 1 is the test for room (`execWriteNonBlock_some`). -/
theorem writeNonBlockNeverWaits : Obligations.WriteNonBlockNeverWaits := by
  unfold Obligations.WriteNonBlockNeverWaits
  intro s n b
  refine ⟨fun hu => forCommand_none _ hu, fun u hu hd => (execWriteNonBlock_some b hu).trans ?_⟩
  split
  · next hroom =>
    rw [regWrite_data_room b hd hroom]
    exact (if_pos (u.thre_iff.mp hroom)).symm
  · next hfull => exact (if_neg (mt u.thre_iff.mpr hfull)).symm

/-! ### read_non_block (R175) -/

theorem execReadNonBlock_some {s : State} {n : Inst} {u : Uart} (hu : s.uart? n = some u) :
    execReadNonBlock n s =
      if u.dr then
        .next ((s.setUart n (u.regRead s.freeCount .data).2).respond 0 ((u.regRead s.freeCount .data).1.setWidth 32) 0)
      else .next (s.respond s.params.err.again 0 0) := by
  have hfsr : u.regRead s.freeCount .fifoStatus = (u.fsr, u) := rfl
  rw [execReadNonBlock, forCommand_some _ hu]
  simp only [hfsr, fsr_bit3]
  cases u.dr <;> rfl

/-- Settles O36: FSR bit 3 is the test for a character (`execReadNonBlock_some`); the pop is `regRead_data_closed`. -/
theorem readNonBlockNeverWaits : Obligations.ReadNonBlockNeverWaits := by
  unfold Obligations.ReadNonBlockNeverWaits
  intro s n
  refine ⟨fun hu => forCommand_none _ hu, fun u hu hd => ⟨fun e rest hf => ?_, fun hempty => ?_⟩⟩
  · refine (execReadNonBlock_some hu).trans ?_
    rw [if_pos (u.dr_iff.mpr (by simp [hf])), regRead_data_closed _ hd hf]
  · refine (execReadNonBlock_some hu).trans ?_
    rw [if_neg (by simp [u.dr_eq_false hempty])]

/-! ### write_buffer (R176, R177) -/

/-- Settles O37: the tests of the model in its order, on the operands, the count of bytes moved, the room and the byte in memory; a byte
that is written finds room, so it is appended. -/
theorem writeBufferMovesOneByteAStep : Obligations.WriteBufferMovesOneByteAStep := by
  unfold Obligations.WriteBufferMovesOneByteAStep
  intro s n buf len hcb
  refine ⟨fun hu => (unlessCallback_false _ hcb).trans (forCommand_none _ hu), fun u hu hd => ?_⟩
  refine (unlessCallback_false _ hcb).trans ((forCommand_some _ hu).trans ?_)
  simp only [bufferOperandsBad_eq, decide_eq_true_iff, Bool.not_eq_true', u.thre_eq_false_iff]
  split
  · rfl
  split
  · rfl
  split
  · rfl
  next hroom =>
  have hthre : u.thre = true := u.thre_iff.mpr (Nat.lt_of_not_le hroom)
  cases memRead s.mem (buf + s.progressOf (.writeBuffer n buf len)) with
  | none => rfl
  | some b =>
    simp only [regWrite_data_room b hd hthre]
    split <;> rfl

end Sys2Proof.Machine
end

section
/-! SUPPORT. Proofs of the statements of 44_irq.md. An identity names the pending source and, under the invariant, the engine that owns the
slot; each service is then its loop in closed form (`txRefill_eq`, `rxDrain_eq`), after which the transfer goes on or ends by
`finish_endIrq`. -/

namespace Sys2Proof.Machine

/-! ### What an identity says (60_exceptions.md R252 to R256) -/

theorem Uart.iid_lineStatus_iff (u : Uart) : u.iid = 0x6 ↔ u.pendLs = true := by
  unfold Uart.iid
  repeat' split
  all_goals simp_all

theorem Uart.iid_rx_iff (u : Uart) :
    (u.iid = 0x4 ∨ u.iid = 0xC) ↔ u.pendLs = false ∧ (u.pendRx = true ∨ u.pendCto = true) := by
  unfold Uart.iid
  repeat' split
  all_goals simp_all

theorem Uart.iid_tx_iff (u : Uart) :
    u.iid = 0x2 ↔ u.pendLs = false ∧ u.pendRx = false ∧ u.pendCto = false ∧ u.pendTx = true := by
  unfold Uart.iid
  repeat' split
  all_goals simp_all

theorem Uart.iid_none_iff (u : Uart) : u.iid = 0x1 ↔ u.irqOut = false := by
  unfold Uart.iid Uart.irqOut
  repeat' split
  all_goals simp_all

theorem Uart.irqEnabled_of_iid {u : Uart} (hm : u.irqMasked = false) (hi : u.iid ≠ 0x1) : u.irqEnabled = true := by
  simp [Uart.irqEnabled, hm, Uart.irqOut_of_iid hi]

section
variable {s : State} {n : Inst} {u : Uart}

/-- An unmasked handler event performs the service of its identity, one lemma a service (44_irq.md R200). -/
theorem exec_irq_lineStatus (hu : s.uart? n = some u) (hm : u.irqMasked = false) (hi : u.iid = 0x6) :
    exec (.irq n) s = serviceLineStatus n u s :=
  execIrq_lineStatus hu (Uart.irqEnabled_of_iid hm (by rw [hi]; decide)) hi

theorem exec_irq_rx (hu : s.uart? n = some u) (hm : u.irqMasked = false) (hi : u.iid = 0x4 ∨ u.iid = 0xC) :
    exec (.irq n) s = serviceRx n u s :=
  execIrq_rx hu (Uart.irqEnabled_of_iid hm (by rcases hi with hi | hi <;> rw [hi] <;> decide)) hi

theorem exec_irq_tx (hu : s.uart? n = some u) (hm : u.irqMasked = false) (hi : u.iid = 0x2) :
    exec (.irq n) s = serviceTx n u s :=
  execIrq_tx hu (Uart.irqEnabled_of_iid hm (by rw [hi]; decide)) hi

end

/-! ### Which engine owns the slot of a pending source (10_state.md R54) -/

theorem Slot.eq_of_ownedBy {x : Slot} {e : Engine} {t r : Transfer} (hx : x = .active t) (hr : x.ownedBy e = some r) : r = t := by
  cases hx.symm.trans (Slot.ownedBy_eq_some.mp hr).1
  rfl

theorem Slot.ownedBy_of_active {x : Slot} {e : Engine} {t : Transfer} (ho : (x.ownedBy e).isSome = true) (hx : x = .active t) :
    x.ownedBy e = some t := by
  obtain ⟨r, hr⟩ := Option.isSome_iff_exists.mp ho
  exact Slot.eq_of_ownedBy hx hr ▸ hr

theorem Uart.Inv.irqOwns_tx {u : Uart} {t : Transfer} (h : u.Inv) (hi : u.iid = 0x2) (ht : u.txSlot = .active t) :
    u.txSlot.ownedBy .irq = some t := by
  obtain ⟨-, -, -, hp⟩ := u.iid_tx_iff.mp hi
  have hen : u.threEnable = true := (Bool.and_eq_true_iff.mp hp).1
  exact Slot.ownedBy_of_active (h.txEnableIff ▸ hen) ht

theorem Uart.rxav_of_iid {u : Uart} (hi : u.iid = 0x4 ∨ u.iid = 0xC) : u.rxav = true := by
  rcases (u.iid_rx_iff.mp hi).2 with hp | hp <;> exact (Bool.and_eq_true_iff.mp hp).1

theorem Uart.Inv.irqOwns_rx {u : Uart} {t : Transfer} (h : u.Inv) (hen : u.rxav = true) (ht : u.rxSlot = .active t) :
    u.rxSlot.ownedBy .irq = some t :=
  Slot.ownedBy_of_active (h.rxEnableIff ▸ hen) ht

/-- An RX service runs only while no error is latched: with one, the line-status source would come first (60_exceptions.md R255). -/
theorem Uart.Inv.lineErr_of_iid_rx {u : Uart} (h : u.Inv) (hi : u.iid = 0x4 ∨ u.iid = 0xC) : u.lineErr = false := by
  have hls : u.lsEnable = true := h.lsEnableEq.trans (Uart.rxav_of_iid hi)
  simpa [Uart.pendLs, hls] using (u.iid_rx_iff.mp hi).1

/-! ### Clearing enables and ending a transfer -/

/-- IER after bits are cleared, with the mask of what is kept written out (20_memory.md R74). -/
theorem ierClear_keep (k : Nat) {m x : Byte} (hx : ~~~m &&& 0x87 = x) {u : Uart} (hd : u.dlab = false) :
    u.ierClear k m = { u with ier := u.ier &&& x } := by
  rw [ierClear_eq k m hd, BitVec.and_assoc, hx]

theorem Uart.endIrq_tx (k : Nat) {u : Uart} (hd : u.dlab = false) :
    u.endIrq k .tx = { u with ier := u.ier &&& 0x85, txSlot := .idle } := by
  rw [Uart.endIrq, ierClear_keep k (x := 0x85) rfl hd]; rfl

theorem Uart.endIrq_rx (k : Nat) {u : Uart} (hd : u.dlab = false) :
    u.endIrq k .rx = { u with ier := u.ier &&& 0x82, rxSlot := .idle } := by
  rw [Uart.endIrq, ierClear_keep k (x := 0x82) rfl hd]; rfl

/-- The end of an interrupt-driven transfer in closed form: enables cleared, slot Idle, one record, its callback running
(46_callback.md R235, R236, R240). -/
theorem finish_endIrq {c : Context} {n : Inst} {d : Dir} {s : State} {u v : Uart} {t : Transfer} (f : Nat) (err : Word32)
    (st : StatusFlags) (k : Word32) (hu : s.uart? n = some u) (ht : v.slot d = .active t) :
    finish c n d err st k (s.setUart n (v.ierClear f (irqEnables d))) = { s with
      uarts := s.uarts.set n.toNat (v.endIrq f d)
      cbLog := s.cbLog ++ [{ inst := n, dir := d, cb := t.cb, ctx := t.ctx, err := err, st := st, n := k }]
      callbacks := c :: s.callbacks } := by
  rw [finish_active err st k (State.uart?_setUart_self hu) ((Uart.slot_ierClear ..).trans ht)]
  simp [dispatch, State.setUart, Uart.endIrq]

/-! ### Starts (R186, R190) -/

theorem startIrq_some {d : Dir} {m : Byte} {n : Inst} {buf len cb ctx : Word32} {s : State} {u : Uart} (hu : s.uart? n = some u) :
    startIrq d m n buf len cb ctx s =
      if buf = 0 ∨ cb = 0 ∨ 2 ^ 32 < buf.toNat + len.toNat then .next (s.respond s.params.err.inval 0 0)
      else if u.slot d ≠ .idle then .next (s.respond s.params.err.busy 0 0)
      else .next ((s.setUart n ((u.setSlot d (.active
        { engine := .irq, buf := buf, len := len, done := 0, cb := cb, ctx := ctx })).ierSet s.freeCount m)).respond 0 0 0) := by
  rw [startIrq, forCommand_some _ hu]
  simp only [startOperandsBad_eq, Slot.isActive_eq, decide_eq_true_iff]
  rfl

/-- Settles O39: `startIrq_some` in each direction; the IER write is `ierSet_eq`. -/
theorem irqStartsATransfer : Obligations.IrqStartsATransfer := by
  unfold Obligations.IrqStartsATransfer
  intro s n buf len cb ctx
  refine ⟨fun hu => ⟨forCommand_none _ hu, forCommand_none _ hu⟩, fun u hu hd => ⟨?_, ?_⟩⟩
  · refine (startIrq_some (d := .tx) hu).trans ?_
    rw [Uart.setSlot_tx, ierSet_eq _ _ (by exact hd)]
    rfl
  · refine (startIrq_some (d := .rx) hu).trans ?_
    rw [Uart.setSlot_rx, ierSet_eq _ _ (by exact hd)]
    rfl

/-! ### Terminates (R194, R195, R196) -/

theorem terminateIrq_owned {d : Dir} {n : Inst} {s : State} {u : Uart} {t : Transfer} (hu : s.uart? n = some u)
    (ht : u.slot d = .active t) (he : t.engine = .irq) :
    terminateIrq d (irqEnables d) n s = .next (State.respond { s with
      uarts := s.uarts.set n.toNat (u.endIrq s.freeCount d)
      cbLog := s.cbLog ++ [{ inst := n, dir := d, cb := t.cb, ctx := t.ctx, err := s.params.err.canceled, st := 0, n := t.done }]
      callbacks := s.active :: s.callbacks } 0 0 0) := by
  rw [terminateIrq, forCommand_some _ hu, Slot.ownedBy_eq_some.mpr ⟨ht, he⟩, ← finish_endIrq s.freeCount _ _ _ hu ht]
  rfl

theorem terminateIrq_unowned {d : Dir} {m : Byte} {n : Inst} {s : State} {u : Uart} (hu : s.uart? n = some u)
    (ht : ∀ t, u.slot d = .active t → t.engine = .dma) : terminateIrq d m n s = .next (s.respond 0 0 0) := by
  have hno : (u.slot d).ownedBy .irq = none := Slot.ownedBy_eq_none.mpr fun t h => by simp [ht t h]
  rw [terminateIrq, forCommand_some _ hu, hno]
  rfl

/-- Settles O40: by the engine that owns the slot, `terminateIrq_owned` or `terminateIrq_unowned`. -/
theorem irqTerminateCancelsOnce : Obligations.IrqTerminateCancelsOnce := by
  unfold Obligations.IrqTerminateCancelsOnce
  intro s n
  refine ⟨fun hu => ⟨forCommand_none _ hu, forCommand_none _ hu⟩, fun u hu hd => ⟨fun t ht he => ?_, ?_, fun t ht he => ?_, ?_⟩⟩
  · rw [← Uart.endIrq_tx s.freeCount hd]
    exact terminateIrq_owned (d := .tx) hu ht he
  · exact terminateIrq_unowned (d := .tx) hu
  · rw [← Uart.endIrq_rx s.freeCount hd]
    exact terminateIrq_owned (d := .rx) hu ht he
  · exact terminateIrq_unowned (d := .rx) hu

/-! ### The THR-empty service (R202, R203) -/

theorem tetLevel_le : ∀ t : BitVec 2, tetLevel t ≤ 8 := by decide

/-- The service runs at most half full with FIFOs on, and empty with FIFOs off (10_state.md R42). -/
theorem Uart.txCount_le_of_iid_tx {u : Uart} (hi : u.iid = 0x2) : u.txCount ≤ if u.fifoe then 8 else 0 := by
  obtain ⟨-, -, -, hp⟩ := u.iid_tx_iff.mp hi
  have hlevel : u.txCount ≤ u.txLevel := of_decide_eq_true (Bool.and_eq_true_iff.mp hp).2
  refine hlevel.trans ?_
  unfold Uart.txLevel
  cases u.fifoe <;> cases u.ptime <;> simp [tetLevel_le]

/-- What the room left in the FIFO lets in of at most eight bytes: all, or one into the single register (R203). -/
theorem Uart.take_room_of_iid_tx {u : Uart} (hi : u.iid = 0x2) {bs : List Byte} (hlen : bs.length ≤ 8) :
    bs.take (u.depth - u.txCount) = if u.fifoe then bs else bs.take 1 := by
  have hroom := Uart.txCount_le_of_iid_tx hi
  unfold Uart.depth
  by_cases hf : u.fifoe = true
  · simp only [hf, if_true, fifoDepth] at hroom ⊢
    exact List.take_of_length_le (by omega)
  · simp only [hf] at hroom ⊢
    simp [Nat.le_zero.mp hroom]

/-- A refill that succeeds has found every byte it moved. -/
theorem txRefill_holdsBytes {m : Memory} : ∀ {k : Nat} {t : Transfer} {u : Uart} {r : Transfer × Uart},
    txRefill m k t u = .ok r → ∃ bs : List Byte, bs.length = k ∧ holdsBytes m (t.buf + t.done) bs
  | 0, _, _, _, _ => ⟨[], rfl, trivial⟩
  | k + 1, t, u, r, h => by
    rw [txRefill] at h
    split at h
    · cases h
    · next b hb =>
      obtain ⟨bs, hlen, hbs⟩ := txRefill_holdsBytes h
      refine ⟨b :: bs, congrArg (· + 1) hlen, hb, ?_⟩
      rw [BitVec.add_assoc]
      exact hbs

/-- The service in closed form, from what its loop leaves. -/
theorem serviceTx_refilled {n : Inst} {s : State} {u v : Uart} {t t' : Transfer} (hu : s.uart? n = some u)
    (ht : u.txSlot.ownedBy .irq = some t)
    (hr : txRefill s.mem (min txChunk (t.len.toNat - t.done.toNat)) t u = .ok (t', v)) (hd : v.dlab = false) :
    serviceTx n u s =
      if t'.done = t'.len then .next { s with
        uarts := s.uarts.set n.toNat { v with ier := v.ier &&& 0x85, txSlot := .idle }
        cbLog := s.cbLog ++ [{ inst := n, dir := .tx, cb := t'.cb, ctx := t'.ctx, err := 0, st := 0, n := t'.len }]
        callbacks := .interrupt :: s.callbacks }
      else .next { s with uarts := s.uarts.set n.toNat { v with txSlot := .active t' } } := by
  have hfin := finish_endIrq (c := .interrupt) (d := .tx) (v := v.setSlot .tx (.active t')) s.freeCount 0 0 t'.len hu rfl
  rw [Uart.endIrq_tx _ (by exact hd)] at hfin
  simp only [serviceTx, ht, hr]
  split
  · exact congrArg _ hfin
  · rfl

/-- Settles O42: the refill loop in closed form (`txRefill_eq`), cut to the room the trigger level leaves. -/
theorem handlerRefillsTheTxFifo : Obligations.HandlerRefillsTheTxFifo := by
  unfold Obligations.HandlerRefillsTheTxFifo
  intro s n u t bs hu hinv hm hi ht hlen hb
  have hd := hinv.dlab_eq_false
  have hr := txRefill_eq s.mem bs t u hd hb
  rw [Uart.take_room_of_iid_tx hi (by omega), hlen] at hr
  rw [exec_irq_tx hu hm hi, serviceTx_refilled hu (hinv.irqOwns_tx hi ht) hr (by exact hd), hlen]

/-- Settles O43: the service succeeded, so its bytes stood in memory and O42 says what was added, within the room of the level. -/
theorem refillNeverOverflows : Obligations.RefillNeverOverflows := by
  unfold Obligations.RefillNeverOverflows
  intro s s' n u u' t hu hinv hm hi hf ht h hu'
  have hown := hinv.irqOwns_tx hi ht
  obtain ⟨bs, hlen, hb⟩ : ∃ bs : List Byte, bs.length = min 8 (t.len.toNat - t.done.toNat) ∧
      holdsBytes s.mem (t.buf + t.done) bs := by
    rcases serviceTx_next ((exec_irq_tx hu hm hi).symm.trans h) with ⟨hno, -⟩ | ⟨r, _, _, hr, hrefill, -⟩
    · cases hown.symm.trans hno
    · cases hown.symm.trans hr
      exact txRefill_holdsBytes hrefill
  have hfifo : u'.txFifo = u.txFifo ++ bs := by
    rw [handlerRefillsTheTxFifo s n u t bs hu hinv hm hi ht hlen hb] at h
    simp only [hf, if_true] at h
    split at h
    all_goals
      cases h
      cases (State.uart?_setUart_self hu).symm.trans hu'
      rfl
  have hcount : u'.txCount = u.txCount + bs.length := by simp [Uart.txCount, hfifo]
  have hroom := Uart.txCount_le_of_iid_tx hi
  rw [if_pos hf] at hroom
  exact ⟨by omega, by omega⟩

/-! ### The RX service (R204, R205) -/

/-- The service in closed form, from what its loop leaves. -/
theorem serviceRx_drained {n : Inst} {s : State} {u v : Uart} {t t' : Transfer} {m : Memory} (hu : s.uart? n = some u)
    (ht : u.rxSlot.ownedBy .irq = some t) (hr : rxDrain s.freeCount rxDrainMax s.mem t u = (m, t', v)) (hd : v.dlab = false) :
    serviceRx n u s =
      if t'.done = t'.len then .next { s with
        mem := m
        uarts := s.uarts.set n.toNat { v with ier := v.ier &&& 0x82, rxSlot := .idle }
        cbLog := s.cbLog ++ [{ inst := n, dir := .rx, cb := t'.cb, ctx := t'.ctx, err := 0, st := 0, n := t'.len }]
        callbacks := .interrupt :: s.callbacks }
      else .next { s with mem := m, uarts := s.uarts.set n.toNat { v with rxSlot := .active t' } } := by
  have hfin := finish_endIrq (c := .interrupt) (d := .rx) (s := { s with mem := m }) (v := v.setSlot .rx (.active t'))
    s.freeCount 0 0 t'.len hu rfl
  rw [Uart.endIrq_rx _ (by exact hd)] at hfin
  simp only [serviceRx, ht, hr]
  split
  · exact congrArg _ hfin
  · rfl

/-- Settles O44: a full buffer stops the drain loop at once (`rxDrain_stop`), else it is `rxDrain_eq`. -/
theorem handlerDrainsTheRxFifo : Obligations.HandlerDrainsTheRxFifo := by
  unfold Obligations.HandlerDrainsTheRxFifo
  intro s n u t hu hinv hm hi ht
  have hd := hinv.dlab_eq_false
  have hown := hinv.irqOwns_rx (Uart.rxav_of_iid hi) ht
  rw [exec_irq_rx hu hm hi]
  refine ⟨fun hfull => ?_, fun e es rest hrx hgood hmax hfits hstop => ?_⟩
  · rw [serviceRx_drained hu hown (rxDrain_stop s.freeCount rxDrainMax s.mem t u (.inr (.inr (.inl hfull)))) hd, if_pos hfull]
  · have hr := rxDrain_eq s.freeCount es e rest rxDrainMax s.mem t u hd (hinv.lineErr_of_iid_rx hi) hrx hgood hfits hmax hstop
    exact serviceRx_drained hu hown hr hd

/-! ### The line-status service (R206) -/

/-- `ErrOf` of a UART's own LSR (42_status_fifo.md R142). -/
theorem Uart.errOf_lsr (u : Uart) : errOf u.lsr =
    (if u.latOe then 0x002 else 0) + (if u.latPe then 0x004 else 0) + (if u.latFe then 0x008 else 0)
      + (if u.latBi then 0x010 else 0) := by
  rw [Uart.lsr, errOf_flags]

theorem serviceLineStatus_owned {n : Inst} {s : State} {u : Uart} {t : Transfer} (hu : s.uart? n = some u)
    (ht : u.rxSlot.ownedBy .irq = some t) :
    serviceLineStatus n u s = .next { s with
      uarts := s.uarts.set n.toNat (u.readLsr.2.endIrq s.freeCount .rx)
      cbLog := s.cbLog ++ [{
        inst := n, dir := .rx, cb := t.cb, ctx := t.ctx, err := s.params.err.io, st := errOf u.lsr, n := t.done }]
      callbacks := .interrupt :: s.callbacks } := by
  have hread : u.regRead s.freeCount .lineStatus = (u.lsr, u.readLsr.2) := rfl
  have hslot : u.readLsr.2.rxSlot.ownedBy .irq = some t := ht
  simp only [serviceLineStatus, hread, hslot]
  exact congrArg _ (finish_endIrq (d := .rx) s.freeCount _ _ _ hu (Slot.ownedBy_eq_some.mp ht).1)

/-- Settles O45: the enabled line-status source means RX is owned by the IRQ engine (R54); the flags are those LSR carries. -/
theorem handlerReportsALineError : Obligations.HandlerReportsALineError := by
  unfold Obligations.HandlerReportsALineError
  intro s n u t hu hinv hm hi ht
  have hls : u.lsEnable = true := (Bool.and_eq_true_iff.mp (u.iid_lineStatus_iff.mp hi)).1
  have hown := hinv.irqOwns_rx (hinv.lsEnableEq.symm.trans hls) ht
  rw [exec_irq_lineStatus hu hm hi, serviceLineStatus_owned hu hown, Uart.endIrq_rx _ hinv.readLsr.dlab_eq_false,
    Uart.errOf_lsr]
  rfl

/-! ### A source without a transfer (R208) -/

theorem serviceTx_unowned {n : Inst} {s : State} {u : Uart} (hno : u.txSlot.ownedBy .irq = none) :
    serviceTx n u s = .next (s.setUart n (u.ierClear s.freeCount 0x02)) := by
  simp only [serviceTx, hno]

theorem serviceRx_unowned {n : Inst} {s : State} {u : Uart} (hno : u.rxSlot.ownedBy .irq = none) :
    serviceRx n u s = .next (s.setUart n (u.ierClear s.freeCount 0x05)) := by
  simp only [serviceRx, hno]

theorem serviceLineStatus_unowned {n : Inst} {s : State} {u : Uart} (hno : u.rxSlot.ownedBy .irq = none) :
    serviceLineStatus n u s = .next (s.setUart n (u.readLsr.2.ierClear s.freeCount 0x04)) := by
  have hslot : u.readLsr.2.rxSlot.ownedBy .irq = none := hno
  simp only [serviceLineStatus, Uart.regRead, hslot]

/-- Settles O46: each service finds its slot unowned and only clears its enables (`ierClear_keep`). -/
theorem handlerSilencesAnUnownedSource : Obligations.HandlerSilencesAnUnownedSource := by
  unfold Obligations.HandlerSilencesAnUnownedSource
  intro s n u hu hd hm
  refine ⟨?_, ?_, ?_⟩ <;> rintro ⟨hi, hno⟩
  · rw [exec_irq_tx hu hm hi, serviceTx_unowned hno, ierClear_keep _ (x := 0x85) rfl hd]
  · rw [exec_irq_rx hu hm hi, serviceRx_unowned hno, ierClear_keep _ (x := 0x82) rfl hd]
  · rw [exec_irq_lineStatus hu hm hi, serviceLineStatus_unowned hno, ierClear_keep _ (x := 0x83) rfl (by exact hd)]
    rfl

/-! ### Events that are not enabled (R200, 45_dma.md R226, R227; log entry 3) -/

theorem forEvent_none {n : Inst} {s : State} {p : Uart → Bool} (k : Uart → Result) (h : s.uart? n = none) :
    forEvent n s p k = .next s := by
  simp [forEvent, h]

theorem eventDir_eq_none : ∀ {b : BitVec 8}, 1 < b → eventDir b = none := by decide

/-- A DMA event does nothing if it does nothing in the direction its byte names. -/
theorem execDmaBeat_nothing {n : Inst} {dir : BitVec 8} {s : State} (htx : beatTx n s = .next s) (hrx : beatRx n s = .next s) :
    execDmaBeat n dir s = .next s := by
  unfold execDmaBeat
  split
  · rfl
  · exact htx
  · exact hrx

theorem execDmaDone_nothing {n : Inst} {dir : BitVec 8} {ok : Bool} {s : State} (h : ∀ d, dmaNotify n d ok s = .next s) :
    execDmaDone n dir ok s = .next s := by
  unfold execDmaDone
  split
  · rfl
  · exact h _

theorem exec_event_missing {i : Instr} {s : State} (hc : i.isCommand = false) (hu : s.uart? i.inst = none) :
    exec i s = .next s := by
  cases i with
  | irq | lineRx | lineTxLoad | lineTxDone | lineCto | lineCts => exact forEvent_none _ hu
  | dmaBeat => exact execDmaBeat_nothing (forEvent_none _ hu) (forEvent_none _ hu)
  | dmaDone => exact execDmaDone_nothing fun _ => forEvent_none _ hu
  | _ => cases hc

section
variable {s : State} {n : Inst} {u : Uart}

theorem exec_irq_disabled (hu : s.uart? n = some u) (h : u.irqMasked = true ∨ u.iid = 0x1) : exec (.irq n) s = .next s := by
  refine forEvent_disabled _ hu ?_
  rcases h with hm | hi
  · simp [Uart.irqEnabled, hm]
  · simp [Uart.irqEnabled, u.iid_none_iff.mp hi]

/-- A beat needs a DMA transfer with a byte to move, and room for it. -/
theorem beatTx_disabled (hu : s.uart? n = some u)
    (h : ∀ t, u.txSlot.ownedBy .dma = some t → t.len ≤ t.done ∨ u.depth ≤ u.txCount) : beatTx n s = .next s := by
  rw [beatTx, forEvent_some _ hu rfl]
  split
  · rfl
  · next t ht =>
    refine if_neg fun ⟨hlt, hroom⟩ => ?_
    rcases h t ht with hle | hfull
    · exact absurd hlt (BitVec.not_lt.mpr hle)
    · exact absurd (u.thre_iff.mp hroom) (Nat.not_lt.mpr hfull)

/-- A beat needs a DMA transfer that takes a byte, and a character for it. -/
theorem beatRx_disabled (hu : s.uart? n = some u)
    (h : ∀ t, u.rxSlot.ownedBy .dma = some t → t.len ≤ t.done ∨ u.rxFifo = []) : beatRx n s = .next s := by
  rw [beatRx, forEvent_some _ hu rfl]
  split
  · rfl
  · next t ht =>
    refine if_neg fun ⟨hlt, hdr⟩ => ?_
    rcases h t ht with hle | hempty
    · exact absurd hlt (BitVec.not_lt.mpr hle)
    · exact u.dr_iff.mp hdr hempty

/-- A notification needs a DMA transfer, and a successful one every byte moved. -/
theorem dmaNotify_disabled {d : Dir} {ok : Bool} (hu : s.uart? n = some u)
    (h : ∀ t, (u.slot d).ownedBy .dma = some t → ok = true ∧ t.done ≠ t.len) : dmaNotify n d ok s = .next s := by
  rw [dmaNotify, forEvent_some _ hu rfl]
  split
  · rfl
  · next t ht =>
    obtain ⟨rfl, hne⟩ := h t ht
    exact (if_pos rfl).trans (if_neg hne)

end

/-- Settles O57: a missing UART, a masked or silent handler, and the conditions of each DMA event, which only an owned slot can meet. -/
theorem disabledEventsChangeNothing : Obligations.DisabledEventsChangeNothing := by
  unfold Obligations.DisabledEventsChangeNothing
  refine ⟨fun i s hc hi => exec_event_missing hc (State.uart?_eq_none hi), fun s n u hu => ?_⟩
  refine ⟨exec_irq_disabled hu, fun dir hdir => ⟨?_, fun ok => ?_⟩, fun hno => ⟨?_, fun ok => ?_⟩, fun hno => ⟨?_, fun ok => ?_⟩,
    fun t ht => ⟨fun h => ?_, fun h => ?_⟩, fun t ht => ⟨fun h => ?_, fun h => ?_⟩⟩
  · rw [exec, execDmaBeat, eventDir_eq_none hdir]
  · rw [exec, execDmaDone, eventDir_eq_none hdir]
  · exact beatTx_disabled hu (by simp [hno])
  · exact dmaNotify_disabled (d := .tx) hu (by simp [hno])
  · exact beatRx_disabled hu (by simp [hno])
  · exact dmaNotify_disabled (d := .rx) hu (by simp [hno])
  · exact beatTx_disabled hu fun r hr => Slot.eq_of_ownedBy ht hr ▸ h
  · exact dmaNotify_disabled (d := .tx) hu fun r hr => ⟨rfl, Slot.eq_of_ownedBy ht hr ▸ h⟩
  · exact beatRx_disabled hu fun r hr => Slot.eq_of_ownedBy ht hr ▸ h
  · exact dmaNotify_disabled (d := .rx) hu fun r hr => ⟨rfl, Slot.eq_of_ownedBy ht hr ▸ h⟩

end Sys2Proof.Machine
end

section
/-! SUPPORT. Proofs of the statements of 45_dma.md. An Active RX transfer still has a part of its region to fill (`Transfer.Unfilled`), the
one place its engine stores to; each command and event is said once for both directions, by the direction's slot and binding. -/

namespace Sys2Proof.Machine

/-! ### Where a read transfer stores (R226, R228, 44_irq.md R204) -/

/-- The part of a transfer's region that holds no byte of it yet. -/
def Transfer.Unfilled (t : Transfer) (a : Word32) : Prop :=
  t.buf.toNat + t.done.toNat ≤ a.toNat ∧ a.toNat < t.buf.toNat + t.len.toNat

section
variable {t : Transfer} {a : Word32}

/-- The next byte goes to the first address of the unfilled part. -/
theorem Transfer.unfilled_next (hfits : t.buf.toNat + t.len.toNat ≤ 2 ^ 32) (hd : t.done < t.len) :
    t.Unfilled (t.buf + t.done) := by
  have hlt : t.done.toNat < t.len.toNat := BitVec.lt_def.mp hd
  have haddr : (t.buf + t.done).toNat = t.buf.toNat + t.done.toNat := BitVec.toNat_add_of_lt (by omega)
  exact ⟨haddr.ge, by omega⟩

/-- What is unfilled after a byte more was unfilled before it. -/
theorem Transfer.Unfilled.of_advance (h : Transfer.Unfilled { t with done := t.done + 1 } a) (hd : t.done < t.len) :
    t.Unfilled a := by
  have hlt : t.done.toNat < t.len.toNat := BitVec.lt_def.mp hd
  have hdone : (t.done + 1).toNat = t.done.toNat + 1 := BitVec.toNat_add_of_lt (y := 1#32) (by simp; omega)
  obtain ⟨hlow, hhigh⟩ := h
  simp only [hdone] at hlow
  exact ⟨by omega, hhigh⟩

theorem memWrite_unfilled {m : Memory} {b : Byte} (hfits : t.buf.toNat + t.len.toNat ≤ 2 ^ 32) (hd : t.done < t.len)
    (h : memRead (memWrite m (t.buf + t.done) b) a ≠ memRead m a) : t.Unfilled a := by
  by_contra hout
  refine h (memRead_memWrite_ne m b ?_)
  rintro rfl
  exact hout (Transfer.unfilled_next hfits hd)

end

/-- The drain loop stores in the unfilled part only: byte by byte, and what its later rounds find unfilled was so before. -/
theorem rxDrain_unfilled (n : Nat) {a : Word32} : ∀ (k : Nat) (m : Memory) (t : Transfer) (u : Uart),
    t.buf.toNat + t.len.toNat ≤ 2 ^ 32 → memRead (rxDrain n k m t u).1 a ≠ memRead m a → t.Unfilled a
  | 0, _, _, _, _, h => absurd rfl h
  | k + 1, m, t, u, hfits, h => by
    rw [rxDrain] at h
    split at h
    · next hgo =>
      have hd : t.done < t.len := by simp only [Bool.and_eq_true, decide_eq_true_iff] at hgo; exact hgo.1.2
      by_cases hw : memRead (memWrite m (t.buf + t.done) (u.regRead n .data).1) a = memRead m a
      · rw [← hw] at h
        exact (rxDrain_unfilled n k _ { t with done := t.done + 1 } _ hfits h).of_advance hd
      · exact memWrite_unfilled hfits hd hw
    · exact absurd rfl h

theorem State.UartsInv.of_uart? {s : State} {n : Inst} {u : Uart} (h : s.UartsInv) (hu : s.uart? n = some u) : u.Inv :=
  h u (List.mem_of_getElem? hu)

/-- A byte that differs in the memory an instruction leaves was unfilled in the RX transfer of the UART named. -/
theorem State.Stores.unfilled {s : State} {i : Instr} {m : Memory} {a : Word32} (h : s.Stores i m) (hs : s.UartsInv)
    (ha : memRead m a ≠ memRead s.mem a) :
    (i = .irq i.inst ∨ i = .dmaBeat i.inst 1) ∧
    ∃ u t, s.uart? i.inst = some u ∧ u.rxSlot = .active t ∧ t.Unfilled a := by
  cases h with
  | nothing => exact absurd rfl ha
  | @drain u t hi hu ht =>
    have hok := (hs.of_uart? hu).transferOk (d := .rx) ht
    exact ⟨.inl hi, u, t, hu, (Slot.ownedBy_eq_some.mp ht).1, rxDrain_unfilled _ _ _ t u hok.regionFits ha⟩
  | @beat u t hi hu ht hd =>
    have hok := (hs.of_uart? hu).transferOk (d := .rx) ht
    exact ⟨.inr hi, u, t, hu, (Slot.ownedBy_eq_some.mp ht).1, memWrite_unfilled hok.regionFits hd ha⟩

/-- Settles O20: by `exec_stores` only the drain loop and an RX beat write memory, and both stay in the unfilled part. -/
theorem memoryChangesOnlyInsideTheReadRegion : Obligations.MemoryChangesOnlyInsideTheReadRegion := by
  unfold Obligations.MemoryChangesOnlyInsideTheReadRegion
  intro i s s' a hs h ha
  exact (exec_stores h).unfilled hs ha

/-! ### `dma_channel_config` (R216) -/

theorem commandDir_eq_none {w : Word32} (h : 1 < w) : commandDir w = none := by
  unfold commandDir
  split
  · exact absurd h (by decide)
  · exact absurd h (by decide)
  · rfl

section
variable {s : State} {n : Inst} {u : Uart} {d : Dir}

theorem execDmaChannelConfig_badDir {dir : Word32} (ctrl chan : Word32) (hu : s.uart? n = some u) (hdir : 1 < dir) :
    execDmaChannelConfig n ctrl chan dir s = .next (s.respond s.params.err.inval 0 0) := by
  rw [execDmaChannelConfig, forCommand_some _ hu, commandDir_eq_none hdir]
  rfl

theorem execDmaChannelConfig_some {dir : Word32} (ctrl chan : Word32) (hu : s.uart? n = some u) (hdir : commandDir dir = some d) :
    execDmaChannelConfig n ctrl chan dir s =
      if s.params.nDmaCtrl ≤ ctrl.toNat ∨ s.params.nDmaChan ≤ chan.toNat then .next (s.respond s.params.err.inval 0 0)
      else if s.params.dmaReady (ctrl.setWidth 8) (chan.setWidth 8) = false then .next (s.respond s.params.err.state 0 0)
      else if u.slot d ≠ .idle then .next (s.respond s.params.err.busy 0 0)
      else .next (State.respond { s with
        uarts := s.uarts.set n.toNat (u.setBind d (.configured (ctrl.setWidth 8) (chan.setWidth 8)))
        dmaLog := s.dmaLog ++ [.cfg n d (ctrl.setWidth 8) (chan.setWidth 8)] } 0 0 0) := by
  rw [execDmaChannelConfig, forCommand_some _ hu, hdir]
  simp only [Slot.isActive_eq, decide_eq_true_iff, Bool.not_eq_true']
  rfl

end

/-- Settles O47: `execDmaChannelConfig_some` in each direction; a larger operand names none. -/
theorem dmaChannelConfigBinds : Obligations.DmaChannelConfigBinds := by
  unfold Obligations.DmaChannelConfigBinds
  intro s n ctrl chan
  refine ⟨fun hu _ => forCommand_none _ hu, fun u hu => ⟨fun dir hdir => ?_, ?_, ?_⟩⟩
  · exact execDmaChannelConfig_badDir ctrl chan hu hdir
  · exact execDmaChannelConfig_some (d := .tx) (dir := 0) ctrl chan hu rfl
  · exact execDmaChannelConfig_some (d := .rx) (dir := 1) ctrl chan hu rfl

/-! ### Starts (R219, R221) -/

section
variable {s : State} {n : Inst} {u : Uart} {d : Dir} {buf len cb : Word32}

/-- The operand checks of both engines and the bound of this one, as one condition. -/
theorem startDma_checks : (startOperandsBad buf len cb = true ∨ dmaMaxLen < len.toNat) ↔
    buf = 0 ∨ cb = 0 ∨ 2 ^ 32 < buf.toNat + len.toNat ∨ 4096 < len.toNat := by
  simp only [startOperandsBad_eq, decide_eq_true_iff, dmaMaxLen, or_assoc]

theorem startDma_invalid (ctx : Word32) (hu : s.uart? n = some u)
    (hbad : buf = 0 ∨ cb = 0 ∨ 2 ^ 32 < buf.toNat + len.toNat ∨ 4096 < len.toNat) :
    startDma d n buf len cb ctx s = .next (s.respond s.params.err.inval 0 0) := by
  rw [startDma, forCommand_some _ hu]
  split
  · rfl
  · next hops => exact if_pos ((startDma_checks.mpr hbad).resolve_left hops)

/-- With its operands in order a start depends on the binding, and then on the slot. -/
theorem startDma_valid (ctx : Word32) (hu : s.uart? n = some u)
    (hok : ¬ (buf = 0 ∨ cb = 0 ∨ 2 ^ 32 < buf.toNat + len.toNat ∨ 4096 < len.toNat)) :
    (u.bind d = .unconfigured → startDma d n buf len cb ctx s = .next (s.respond s.params.err.state 0 0)) ∧
    ∀ c h : BitVec 8, u.bind d = .configured c h →
      startDma d n buf len cb ctx s =
        if u.slot d ≠ .idle then .next (s.respond s.params.err.busy 0 0)
        else .next (State.respond { s with
          uarts := s.uarts.set n.toNat
            (u.setSlot d (.active { engine := .dma, buf := buf, len := len, done := 0, cb := cb, ctx := ctx }))
          dmaLog := s.dmaLog ++ [.arm n d c h buf len] } 0 0 0) := by
  obtain ⟨hops, hlen⟩ := not_or.mp (mt startDma_checks.mp hok)
  rw [startDma, forCommand_some _ hu, if_neg hops, if_neg hlen]
  refine ⟨fun hbind => ?_, fun c h hbind => ?_⟩
  · rw [hbind]
    rfl
  · simp only [hbind, Slot.isActive_eq, decide_eq_true_iff]
    rfl

end

/-- Settles O48: the operand checks are `startDma_invalid`, what follows them is `startDma_valid`, in each direction. -/
theorem dmaStartArmsTheChannel : Obligations.DmaStartArmsTheChannel := by
  unfold Obligations.DmaStartArmsTheChannel
  intro s n buf len cb ctx
  refine ⟨fun hu => ⟨forCommand_none _ hu, forCommand_none _ hu⟩, fun u hu => ⟨fun hbad => ?_, ?_, ?_, ?_, ?_⟩⟩
  · exact ⟨startDma_invalid ctx hu hbad, startDma_invalid ctx hu hbad⟩
  · exact fun hok => (startDma_valid (d := .tx) ctx hu hok).1
  · exact fun hok => (startDma_valid (d := .rx) ctx hu hok).1
  · exact fun c h hok => (startDma_valid (d := .tx) ctx hu hok).2 c h
  · exact fun c h hok => (startDma_valid (d := .rx) ctx hu hok).2 c h

/-! ### The end of a transfer (R223 to R225, R227) -/

section
variable {s : State} {n : Inst} {u : Uart} {d : Dir} {t : Transfer}

theorem terminateDma_owned {c h : BitVec 8} (hu : s.uart? n = some u) (ht : u.slot d = .active t) (he : t.engine = .dma)
    (hbind : u.bind d = .configured c h) :
    terminateDma d n s = .next (State.respond { s with
      uarts := s.uarts.set n.toNat (u.setSlot d .idle)
      dmaLog := s.dmaLog ++ [.disarm n d c h]
      cbLog := s.cbLog ++ [{ inst := n, dir := d, cb := t.cb, ctx := t.ctx, err := s.params.err.canceled, st := 0, n := t.done }]
      callbacks := s.active :: s.callbacks } 0 0 0) := by
  have hu' : (s.emitDma (.disarm n d c h)).uart? n = some u := hu
  rw [terminateDma, forCommand_some _ hu, Slot.ownedBy_eq_some.mpr ⟨ht, he⟩]
  simp only [hbind, emitDisarm, finish_active _ _ _ hu' ht]
  rfl

theorem terminateDma_unowned (hu : s.uart? n = some u) (ht : ∀ t, u.slot d = .active t → t.engine = .irq) :
    terminateDma d n s = .next (s.respond 0 0 0) := by
  have hno : (u.slot d).ownedBy .dma = none := Slot.ownedBy_eq_none.mpr fun t h => by simp [ht t h]
  rw [terminateDma, forCommand_some _ hu, hno]
  rfl

/-- A notification that is enabled ends the transfer with the length, or in error with the bytes done. -/
theorem dmaNotify_owned {ok : Bool} (hu : s.uart? n = some u) (ht : u.slot d = .active t) (he : t.engine = .dma)
    (hok : ok = true → t.done = t.len) :
    dmaNotify n d ok s = .next { s with
      uarts := s.uarts.set n.toNat (u.setSlot d .idle)
      cbLog := s.cbLog ++ [{
        inst := n, dir := d, cb := t.cb, ctx := t.ctx, err := if ok then 0 else s.params.err.io, st := 0, n := t.done }]
      callbacks := .dmaCompletion :: s.callbacks } := by
  rw [dmaNotify, forEvent_some _ hu rfl, Slot.ownedBy_eq_some.mpr ⟨ht, he⟩]
  cases ok with
  | true => simp only [if_true, hok rfl, finish_active _ _ _ hu ht]; rfl
  | false => exact congrArg _ (finish_active _ _ _ hu ht)

end

/-- Settles O49: by the engine that owns the slot, `terminateDma_owned` or `terminateDma_unowned`. -/
theorem dmaTerminateCancelsOnce : Obligations.DmaTerminateCancelsOnce := by
  unfold Obligations.DmaTerminateCancelsOnce
  intro s n
  refine ⟨fun hu => ⟨forCommand_none _ hu, forCommand_none _ hu⟩, fun u hu => ⟨?_, ?_, ?_, ?_⟩⟩
  · exact fun t c h => terminateDma_owned (d := .tx) hu
  · exact terminateDma_unowned (d := .tx) hu
  · exact fun t c h => terminateDma_owned (d := .rx) hu
  · exact terminateDma_unowned (d := .rx) hu

/-- Settles O52: `dmaNotify_owned` in each direction, with each result. -/
theorem dmaDoneEndsTheTransfer : Obligations.DmaDoneEndsTheTransfer := by
  unfold Obligations.DmaDoneEndsTheTransfer
  intro s n u t hu he
  refine ⟨fun ht hd => ?_, fun ht => ?_, fun ht hd => ?_, fun ht => ?_⟩
  · exact hd ▸ dmaNotify_owned (d := .tx) (ok := true) hu ht he fun _ => hd
  · exact dmaNotify_owned (d := .tx) (ok := false) hu ht he nofun
  · exact hd ▸ dmaNotify_owned (d := .rx) (ok := true) hu ht he fun _ => hd
  · exact dmaNotify_owned (d := .rx) (ok := false) hu ht he nofun

/-! ### Beats (R226) -/

/-- Settles O50: the slot is owned and the beat enabled; the write of THR is `regWrite_data_room`. -/
theorem dmaBeatSendsOneByte : Obligations.DmaBeatSendsOneByte := by
  unfold Obligations.DmaBeatSendsOneByte
  intro s n u t b hu hdlab ht he hd hroom hb
  have hthre : u.thre = true := u.thre_iff.mpr hroom
  change beatTx n s = _
  rw [beatTx, forEvent_some _ hu rfl, Slot.ownedBy_eq_some.mpr ⟨ht, he⟩]
  simp only [hd, hthre, and_self, if_true, hb, regWrite_data_room b hdlab hthre]
  rfl

/-- Settles O51: the slot is owned and the beat enabled; the read of RBR is `regRead_data_closed`. -/
theorem dmaBeatStoresOneByte : Obligations.DmaBeatStoresOneByte := by
  unfold Obligations.DmaBeatStoresOneByte
  intro s n u t e rest hu hdlab ht he hd hrx
  have hdr : u.dr = true := u.dr_iff.mpr (by simp [hrx])
  change beatRx n s = _
  rw [beatRx, forEvent_some _ hu rfl, Slot.ownedBy_eq_some.mpr ⟨ht, he⟩]
  simp only [hd, hdr, and_self, if_true, regRead_data_closed s.freeCount hdlab hrx]
  rfl

end Sys2Proof.Machine
end

section
/-! SUPPORT. Proofs of the statements of 46_callback.md. `State.Dispatches` says once what an instruction does to the callback records, the
running callbacks and the Active slots together: no transfer ends and no callback starts, or one transfer ends with one record and its
callback runs in the context of R240. Both statements are read off `exec_dispatches`. -/

namespace Sys2Proof.Machine

/-! ### No transfer ends and no callback starts -/

/-- No callback record is added, no callback starts or returns, and every Active slot is still Active. -/
structure State.Continues (s t : State) : Prop where
  cbLog : t.cbLog = s.cbLog
  callbacks : t.callbacks = s.callbacks
  slots : ∀ n d, s.slotActive n d = true → t.slotActive n d = true

/-- Whether a slot of a UART that exists is Active. -/
theorem State.slotActive_of_uart? {s : State} {n : Inst} {u : Uart} (hu : s.uart? n = some u) (d : Dir) :
    s.slotActive n d = (u.slot d).isActive := by
  simp [State.slotActive, hu]

/-- Writing one UART does not touch the slots of another. -/
theorem State.slotActive_setUart_ne {s : State} {m n : Inst} {v : Uart} (h : m ≠ n) (d : Dir) :
    (s.setUart n v).slotActive m d = s.slotActive m d := by
  simp [State.slotActive, State.uart?_setUart_ne h]

namespace State.Continues
variable {s t : State}

theorem refl (s : State) : s.Continues s := ⟨rfl, rfl, fun _ _ => id⟩

theorem setMem {m : Memory} (h : s.Continues t) : s.Continues { t with mem := m } := ⟨h.cbLog, h.callbacks, h.slots⟩

theorem hold {i : Instr} {k : Word32} (h : s.Continues t) : s.Continues (t.hold i k) := ⟨h.cbLog, h.callbacks, h.slots⟩

theorem respond {r v w : Word32} (h : s.Continues t) : s.Continues (t.respond r v w) := ⟨h.cbLog, h.callbacks, h.slots⟩

theorem emitDma {r : DmaRecord} (h : s.Continues t) : s.Continues (t.emitDma r) := ⟨h.cbLog, h.callbacks, h.slots⟩

theorem emitDisarm {n : Inst} {d : Dir} {b : DmaBinding} (h : s.Continues t) : s.Continues (emitDisarm n d b t) := by
  cases b
  · exact h
  · exact h.emitDma

/-- A UART is written that keeps every Active slot Active. -/
theorem setUart {n : Inst} {u v : Uart} (h : s.Continues t) (hu : t.uart? n = some u)
    (hv : ∀ d, (u.slot d).isActive = true → (v.slot d).isActive = true) : s.Continues (t.setUart n v) := by
  refine ⟨h.cbLog, h.callbacks, fun m d hs => ?_⟩
  have ht := h.slots m d hs
  by_cases hm : m = n
  · subst hm
    rw [State.slotActive_of_uart? hu] at ht
    rw [State.slotActive_of_uart? (State.uart?_setUart_self hu)]
    exact hv d ht
  · rw [State.slotActive_setUart_ne hm]; exact ht

/-- A UART is written whose slots are as they were. -/
theorem setUart_slots {n : Inst} {u v : Uart} (h : s.Continues t) (hu : t.uart? n = some u)
    (hv : ∀ d, v.slot d = u.slot d) : s.Continues (t.setUart n v) :=
  h.setUart hu fun d hd => hv d ▸ hd

/-- A UART is written of which one slot holds a transfer, the other is as it was. -/
theorem setUart_active {n : Inst} {u v : Uart} {d : Dir} {x : Transfer} (h : s.Continues t) (hu : t.uart? n = some u)
    (hv : ∀ e, v.slot e = if e = d then .active x else u.slot e) : s.Continues (t.setUart n v) :=
  h.setUart hu fun e he => by
    rw [hv e]
    split
    · rfl
    · exact he

end State.Continues

/-! ### One transfer ends -/

/-- The transfer of one slot ends: one record of that UART and direction is added, a callback starts in the context `c`, the slot is
no longer Active, and every other Active slot still is (46_callback.md R235, R236). -/
structure State.Ends (s : State) (n : Inst) (d : Dir) (c : Context) (t : State) : Prop where
  record : ∃ r : CbRecord, r.inst = n ∧ r.dir = d ∧ t.cbLog = s.cbLog ++ [r]
  callbacks : t.callbacks = c :: s.callbacks
  activeBefore : s.slotActive n d = true
  idleAfter : t.slotActive n d = false
  others : ∀ m e, ¬ (m = n ∧ e = d) → s.slotActive m e = true → t.slotActive m e = true

theorem State.Ends.respond {s t : State} {n : Inst} {d : Dir} {c : Context} {r v w : Word32} (h : s.Ends n d c t) :
    s.Ends n d c (t.respond r v w) := ⟨h.record, h.callbacks, h.activeBefore, h.idleAfter, h.others⟩

/-- Finish ends the transfer of a slot that was Active before the instruction, if nothing was ended or dispatched since (46_callback.md
R235). -/
theorem State.Continues.finish_ends {s r : State} {n : Inst} {d : Dir} {c : Context} {u : Uart} {t : Transfer} {e : Engine}
    {err : Word32} {st : StatusFlags} {k : Word32} (h : s.Continues r) (hu : s.uart? n = some u)
    (ht : (u.slot d).ownedBy e = some t) : s.Ends n d c (finish c n d err st k r) := by
  have hs : s.slotActive n d = true := State.slotActive_iff.mpr ⟨u, hu, Slot.isActive_of_ownedBy ht⟩
  obtain ⟨v, hv, hact⟩ := State.slotActive_iff.mp (h.slots n d hs)
  obtain ⟨x, hx⟩ : ∃ x, v.slot d = .active x := by
    cases hvd : v.slot d with
    | idle => rw [hvd] at hact; cases hact
    | active x => exact ⟨x, rfl⟩
  have hself := State.uart?_setUart_self (u := v.setSlot d .idle) hv
  rw [finish_active err st k hv hx]
  refine ⟨⟨_, rfl, rfl, by rw [← h.cbLog]; rfl⟩, by rw [← h.callbacks]; rfl, hs, ?_, fun m e' hne hme => ?_⟩
  · change (r.setUart n (v.setSlot d .idle)).slotActive n d = false
    rw [State.slotActive_of_uart? hself, Uart.slot_setSlot, if_pos rfl]
    rfl
  · change (r.setUart n (v.setSlot d .idle)).slotActive m e' = true
    have hr := h.slots m e' hme
    by_cases hm : m = n
    · subst hm
      rw [State.slotActive_of_uart? hself, Uart.slot_setSlot, if_neg fun he => hne ⟨rfl, he⟩, ← State.slotActive_of_uart? hv]
      exact hr
    · rw [State.slotActive_setUart_ne hm]; exact hr

/-! ### What an instruction does to transfers and callbacks -/

/-- The context a callback runs in when this instruction, performed in the context `active`, starts it (46_callback.md R240). -/
def runsCallbackIn (i : Instr) (active c : Context) : Prop :=
  (i = .irq i.inst ∧ c = .interrupt) ∨
  ((∃ (dir : BitVec 8) (ok : Bool), i = .dmaDone i.inst dir ok) ∧ c = .dmaCompletion) ∨
  (i ∈ [.irqWriteTerminate i.inst, .irqReadTerminate i.inst, .dmaWriteTerminate i.inst, .dmaReadTerminate i.inst] ∧ c = active)

/-- An instruction ends no transfer and starts no callback, or it ends one transfer of the UART it names, whose callback runs where
R240 has it run. -/
inductive State.Dispatches (s : State) (i : Instr) (t : State) : Prop
  | none (h : s.Continues t)
  | one {d : Dir} {c : Context} (h : s.Ends i.inst d c t) (hc : runsCallbackIn i s.active c)

section
variable {s s' : State} {i : Instr} {n : Inst} {d : Dir} {buf len cb ctx : Word32}

theorem startIrq_continues {m : Byte} (h : startIrq d m n buf len cb ctx s = .next s') : s.Continues s' := by
  rcases startIrq_next h with rfl | ⟨-, -, -, rfl⟩ | ⟨u, hu, -, -, rfl⟩
  · exact (State.Continues.refl s).respond
  · exact (State.Continues.refl s).respond
  · exact ((State.Continues.refl s).setUart_active hu fun e => by rw [Uart.slot_ierSet, Uart.slot_setSlot]).respond

theorem startDma_continues (h : startDma d n buf len cb ctx s = .next s') : s.Continues s' := by
  rcases startDma_next h with rfl | ⟨u, hu, ⟨-, rfl⟩ | ⟨-, rfl⟩ | ⟨-, -, -, -, -, -, rfl⟩⟩
  · exact (State.Continues.refl s).respond
  · exact (State.Continues.refl s).respond
  · exact (State.Continues.refl s).respond
  · exact ((State.Continues.refl s).setUart_active hu fun e => Uart.slot_setSlot ..).emitDma.respond

theorem terminateIrq_dispatches {m : Byte} (hn : i.inst = n) (hi : runsCallbackIn i s.active s.active)
    (h : terminateIrq d m n s = .next s') : s.Dispatches i s' := by
  subst hn
  rcases terminateIrq_next h with rfl | rfl | ⟨u, t, hu, ht, rfl⟩
  · exact .none (State.Continues.refl s).respond
  · exact .none (State.Continues.refl s).respond
  · have hc := (State.Continues.refl s).setUart_slots hu (Uart.slot_ierClear s.freeCount m u)
    exact .one (hc.finish_ends hu ht).respond hi

theorem terminateDma_dispatches (hn : i.inst = n) (hi : runsCallbackIn i s.active s.active)
    (h : terminateDma d n s = .next s') : s.Dispatches i s' := by
  subst hn
  rcases terminateDma_next h with rfl | rfl | ⟨u, t, hu, ht, rfl⟩
  · exact .none (State.Continues.refl s).respond
  · exact .none (State.Continues.refl s).respond
  · exact .one ((State.Continues.refl s).emitDisarm.finish_ends hu ht).respond hi

/-- What both transfer services leave: the transfer goes on, or Finish has ended it (44_irq.md R202, R204). -/
theorem service_dispatches {m : Memory} {u v : Uart} {r t : Transfer} {k : Nat} {e : Byte} (hu : s.uart? n = some u)
    (ht : (u.slot d).ownedBy .irq = some r) (hv : ∀ g, v.slot g = u.slot g)
    (h : (t.done = t.len ∧
        s' = finish .interrupt n d 0 0 t.len (({ s with mem := m } : State).setUart n ((v.setSlot d (.active t)).ierClear k e))) ∨
      (t.done ≠ t.len ∧ s' = ({ s with mem := m } : State).setUart n (v.setSlot d (.active t)))) :
    s.Dispatches (.irq n) s' := by
  have hslot : ∀ g, (v.setSlot d (.active t)).slot g = if g = d then .active t else u.slot g := fun g => by
    rw [Uart.slot_setSlot, hv]
  rcases h with ⟨-, rfl⟩ | ⟨-, rfl⟩
  · have hc := (State.Continues.refl s).setMem (m := m) |>.setUart_active hu fun g => (Uart.slot_ierClear k e _ g).trans (hslot g)
    exact .one (hc.finish_ends hu ht) (.inl ⟨rfl, rfl⟩)
  · exact .none ((State.Continues.refl s).setMem.setUart_active hu hslot)

theorem serviceTx_dispatches {u : Uart} (hu : s.uart? n = some u) (h : serviceTx n u s = .next s') :
    s.Dispatches (.irq n) s' := by
  rcases serviceTx_next h with ⟨-, rfl⟩ | ⟨t, t', u', ht, hr, hs'⟩
  · exact .none ((State.Continues.refl s).setUart_slots hu (Uart.slot_ierClear _ _ u))
  · obtain ⟨-, tx, dll, rfl, -⟩ := txRefill_changes _ _ _ _ _ _ hr
    exact service_dispatches (m := s.mem) (d := .tx) hu ht (fun g => by cases g <;> rfl) hs'

theorem serviceRx_dispatches {u : Uart} (hu : s.uart? n = some u) (h : serviceRx n u s = .next s') :
    s.Dispatches (.irq n) s' := by
  rcases serviceRx_next h with ⟨-, rfl⟩ | ⟨t, m, t', u', ht, hr, hs'⟩
  · exact .none ((State.Continues.refl s).setUart_slots hu (Uart.slot_ierClear _ _ u))
  · obtain ⟨_, done, rx, cto, pe, fe, bi, hc, -⟩ := rxDrain_changes s.freeCount rxDrainMax s.mem t u
    rw [hc] at hr
    cases hr
    exact service_dispatches (d := .rx) hu ht (fun g => by cases g <;> rfl) hs'

theorem serviceLineStatus_dispatches {u : Uart} (hu : s.uart? n = some u) (h : serviceLineStatus n u s = .next s') :
    s.Dispatches (.irq n) s' := by
  have hslot (m : Byte) (g : Dir) : (u.readLsr.2.ierClear s.freeCount m).slot g = u.slot g := by simp
  rcases serviceLineStatus_next h with ⟨-, rfl⟩ | ⟨t, ht, rfl⟩
  · exact .none ((State.Continues.refl s).setUart_slots hu (hslot 0x04))
  · exact .one (((State.Continues.refl s).setUart_slots hu (hslot 0x05)).finish_ends (d := .rx) hu ht) (.inl ⟨rfl, rfl⟩)

theorem execIrq_dispatches (h : execIrq n s = .next s') : s.Dispatches (.irq n) s' := by
  rcases execIrq_next h with rfl | ⟨u, hu, -, ⟨-, h⟩ | ⟨-, h⟩ | ⟨-, h⟩⟩
  · exact .none (.refl s')
  · exact serviceLineStatus_dispatches hu h
  · exact serviceRx_dispatches hu h
  · exact serviceTx_dispatches hu h

theorem execDmaBeat_continues {dir : BitVec 8} (h : execDmaBeat n dir s = .next s') : s.Continues s' := by
  rcases execDmaBeat_next h with rfl | ⟨-, h⟩ | ⟨-, h⟩
  · exact .refl s'
  · rcases beatTx_next h with rfl | ⟨u, t, b, hu, -, -, -, rfl⟩
    · exact .refl s'
    · exact (State.Continues.refl s).setUart_active (d := .tx) hu fun e =>
        ((u.regWrite .data b).slot_setSlot .tx e _).trans (by rw [Uart.slot_regWrite_data])
  · rcases beatRx_next h with rfl | ⟨u, t, hu, -, -, -, rfl⟩
    · exact .refl s'
    · exact (State.Continues.refl s).setMem.setUart_active (d := .rx) hu fun e =>
        ((u.regRead s.freeCount .data).2.slot_setSlot .rx e _).trans (by rw [Uart.slot_regRead_data])

theorem execDmaDone_dispatches {dir : BitVec 8} {ok : Bool} (h : execDmaDone n dir ok s = .next s') :
    s.Dispatches (.dmaDone n dir ok) s' := by
  have hc : runsCallbackIn (.dmaDone n dir ok) s.active .dmaCompletion := .inr (.inl ⟨⟨dir, ok, rfl⟩, rfl⟩)
  rcases execDmaDone_next h with rfl | ⟨d, u, t, hu, ht, ⟨-, rfl⟩ | rfl⟩
  · exact .none (.refl s')
  · exact .one ((State.Continues.refl s).finish_ends hu ht) hc
  · exact .one ((State.Continues.refl s).finish_ends hu ht) hc

theorem execWriteBuffer_continues (h : execWriteBuffer n buf len s = .next s') : s.Continues s' := by
  have hw {u : Uart} (b : Byte) (hu : s.uart? n = some u) := (State.Continues.refl s).setUart_slots hu (Uart.slot_regWrite_data b u)
  obtain ⟨-, rfl | rfl | ⟨k, rfl⟩ | ⟨u, b, hu, rfl | ⟨k, rfl⟩⟩⟩ := execWriteBuffer_next h
  · exact (State.Continues.refl s).respond
  · exact (State.Continues.refl s).respond
  · exact (State.Continues.refl s).hold
  · exact (hw b hu).respond
  · exact (hw b hu).hold

theorem execDmaChannelConfig_continues {ctrl chan dir : Word32} (h : execDmaChannelConfig n ctrl chan dir s = .next s') :
    s.Continues s' := by
  rcases execDmaChannelConfig_next h with rfl | ⟨u, d, hu, -, ⟨-, rfl⟩ | ⟨-, rfl⟩ | ⟨-, rfl⟩⟩
  · exact (State.Continues.refl s).respond
  · exact (State.Continues.refl s).respond
  · exact (State.Continues.refl s).respond
  · exact ((State.Continues.refl s).setUart_slots hu fun e => Uart.slot_setBind ..).emitDma.respond

end

/-- Every instruction that answers a next state ends no transfer, or one with its callback. -/
theorem exec_dispatches {i : Instr} {s s' : State} (h : exec i s = .next s') : s.Dispatches i s' := by
  have hs := State.Continues.refl s
  cases i with
  | irqWriteTerminate | irqReadTerminate => exact terminateIrq_dispatches rfl (.inr (.inr ⟨by simp [Instr.inst], rfl⟩)) h
  | dmaWriteTerminate | dmaReadTerminate => exact terminateDma_dispatches rfl (.inr (.inr ⟨by simp [Instr.inst], rfl⟩)) h
  | irq => exact execIrq_dispatches h
  | dmaDone => exact execDmaDone_dispatches h
  | irqWrite | irqRead => exact .none (startIrq_continues h)
  | dmaWrite | dmaRead => exact .none (startDma_continues h)
  | dmaBeat => exact .none (execDmaBeat_continues h)
  | dmaChannelConfig => exact .none (execDmaChannelConfig_continues h)
  | writeBuffer => exact .none (execWriteBuffer_continues h)
  | setConfig =>
    rcases execSetConfig_next h with rfl | ⟨u, hu, hl, rfl⟩
    · exact .none hs.respond
    · exact .none (hs.setUart_slots hu fun d => by rw [configSequence_eq _ _ _ _ _ hl]; cases d <;> rfl).respond
  | setThreshold =>
    rcases execSetThreshold_next h with rfl | ⟨u, p, hu, -, rfl⟩
    · exact .none hs.respond
    · exact .none (hs.setUart_slots hu fun d => by rw [writeFcr_fcrValue]; cases d <;> rfl).respond
  | getStatus =>
    rcases execGetStatus_next h with rfl | ⟨u, -, hu, rfl⟩
    · exact .none hs.respond
    · exact .none (hs.setUart_slots hu u.slot_readLsr).respond
  | write =>
    obtain ⟨-, rfl | rfl | ⟨u, hu, rfl⟩⟩ := execWrite_next h
    · exact .none hs.respond
    · exact .none hs.hold
    · exact .none (hs.setUart_slots hu (Uart.slot_regWrite_data _ u)).respond
  | read =>
    obtain ⟨-, rfl | rfl | ⟨u, -, -, hu, rfl⟩⟩ := execRead_next h
    · exact .none hs.respond
    · exact .none hs.hold
    · exact .none (hs.setUart_slots hu fun d => (Uart.slot_regRead_data ..).trans (u.slot_readLsr d)).respond
  | writeNonBlock =>
    rcases execWriteNonBlock_next h with rfl | ⟨-, -, -, rfl⟩ | ⟨u, hu, rfl⟩
    · exact .none hs.respond
    · exact .none hs.respond
    · exact .none (hs.setUart_slots hu (Uart.slot_regWrite_data _ u)).respond
  | readNonBlock =>
    rcases execReadNonBlock_next h with rfl | ⟨-, -, -, rfl⟩ | ⟨u, -, hu, rfl⟩
    · exact .none hs.respond
    · exact .none hs.respond
    · exact .none (hs.setUart_slots hu (Uart.slot_regRead_data _ u)).respond
  | lineRx =>
    rcases execLineRx_next h with rfl | ⟨u, hu, rfl⟩
    · exact .none hs
    · exact .none (hs.setUart_slots hu (Uart.slot_receive _ _ _ _ u))
  | lineTxLoad =>
    rcases execLineTxLoad_next h with rfl | ⟨u, -, -, hu, -, -, rfl⟩
    · exact .none hs
    · exact .none (hs.setUart_slots hu fun d => by cases d <;> rfl)
  | lineTxDone =>
    rcases execLineTxDone_next h with rfl | ⟨u, -, hu, -, rfl⟩
    · exact .none hs
    · exact .none (hs.setUart_slots hu fun d => by cases d <;> rfl)
  | lineCto =>
    rcases execLineCto_next h with rfl | ⟨u, hu, -, rfl⟩
    · exact .none hs
    · exact .none (hs.setUart_slots hu fun d => by cases d <;> rfl)
  | lineCts =>
    rcases execLineCts_next h with rfl | ⟨u, hu, rfl⟩
    · exact .none hs
    · exact .none (hs.setUart_slots hu fun d => by cases d <;> rfl)

/-! ### Exactly once (R237) -/

/-- One slot and its callback records across a step: both as they were, or the slot becomes Active with no record, or it becomes Idle
with one more (46_callback.md R237). -/
def State.ExactlyOnce (s t : State) (n : Inst) (d : Dir) : Prop :=
  (t.slotActive n d = s.slotActive n d ∧ t.callbackCount n d = s.callbackCount n d) ∨
  (s.slotActive n d = false ∧ t.slotActive n d = true ∧ t.callbackCount n d = s.callbackCount n d) ∨
  (s.slotActive n d = true ∧ t.slotActive n d = false ∧ t.callbackCount n d = s.callbackCount n d + 1)

/-- A slot that is not made Idle, and gets no record. -/
theorem State.exactlyOnce_of_active {s t : State} {n : Inst} {d : Dir} (hs : s.slotActive n d = true → t.slotActive n d = true)
    (hc : t.callbackCount n d = s.callbackCount n d) : s.ExactlyOnce t n d := by
  cases hb : s.slotActive n d with
  | true => exact .inl ⟨(hs hb).trans hb.symm, hc⟩
  | false =>
    cases ha : t.slotActive n d with
    | true => exact .inr (.inl ⟨hb, ha, hc⟩)
    | false => exact .inl ⟨ha.trans hb.symm, hc⟩

/-- The count of a slot after one record more. -/
theorem State.callbackCount_append {s t : State} {r : CbRecord} (h : t.cbLog = s.cbLog ++ [r]) (n : Inst) (d : Dir) :
    t.callbackCount n d = s.callbackCount n d + if r.inst = n ∧ r.dir = d then 1 else 0 := by
  simp [State.callbackCount, h, List.countP_append, List.countP_singleton]

theorem State.Ends.exactlyOnce {s t : State} {m : Inst} {e : Dir} {c : Context} (h : s.Ends m e c t) (n : Inst) (d : Dir) :
    s.ExactlyOnce t n d := by
  obtain ⟨r, rfl, rfl, hr⟩ := h.record
  have hcount := State.callbackCount_append hr n d
  by_cases hnd : r.inst = n ∧ r.dir = d
  · obtain ⟨rfl, rfl⟩ := hnd
    exact .inr (.inr ⟨h.activeBefore, h.idleAfter, by simpa using hcount⟩)
  · exact State.exactlyOnce_of_active (h.others n d fun ⟨hn, hd⟩ => hnd ⟨hn.symm, hd.symm⟩) (by simpa [hnd] using hcount)

theorem State.Dispatches.exactlyOnce {s t : State} {i : Instr} (h : s.Dispatches i t) (n : Inst) (d : Dir) :
    s.ExactlyOnce t n d := by
  cases h with
  | none h => exact State.exactlyOnce_of_active (h.slots n d) (by rw [State.callbackCount, h.cbLog]; rfl)
  | one h => exact h.exactlyOnce n d

/-! ### What a turn leaves of the callback records -/

theorem takeCommand_cbLog (w : BitVec 144) (s : State) : (takeCommand w s).state.cbLog = s.cbLog := by
  unfold takeCommand
  split <;> rfl

theorem takeEvent_cbLog (w : BitVec 32) (s : State) : (takeEvent w s).state.cbLog = s.cbLog := by
  unfold takeEvent
  split <;> rfl

theorem takeHost_cbLog (c : Context) (s : State) : (takeHost c s).state.cbLog = s.cbLog := by
  unfold takeHost
  repeat' split
  · rfl
  · rfl
  · exact takeCommand_cbLog ..
  · rfl

/-- A turn adds no callback record before its instruction runs. -/
theorem take_cbLog (s : State) : (take s).state.cbLog = s.cbLog := by
  unfold take
  split
  · rfl
  · next t ts _ =>
    cases t with
    | host c => exact takeHost_cbLog ..
    | event w => exact takeEvent_cbLog ..
    | store a b => rfl
    | callbackReturn c => rfl

/-- Before its instruction runs, a turn leaves every slot and every count of callback records as it was. -/
theorem take_slotActive_callbackCount (s : State) (n : Inst) (d : Dir) :
    (take s).state.slotActive n d = s.slotActive n d ∧ (take s).state.callbackCount n d = s.callbackCount n d := by
  constructor
  · rw [State.slotActive, State.uart?, take_uarts]; rfl
  · rw [State.callbackCount, take_cbLog]; rfl

/-! ### Contexts (R240, 60_exceptions.md R265) -/

/-- While a callback runs in the context of a command that can hold, the command is refused. -/
theorem unlessCallback_refused {s : State} (k : Result) (h : s.active ∈ s.callbacks) :
    unlessCallback s k = .refused .blockingInCallback :=
  if_pos h

/-- A Host turn in a context that holds no command and is not entered is used up, no more. -/
theorem take_notEntered {s : State} {c : Context} {ts : List Turn} (ht : s.turns = .host c :: ts) (hh : s.heldOf c = none)
    (he : ¬ s.entered c = true) : take s = .done { s with turns := ts, freeCount := s.freeCount + 1 } := by
  have hh' : State.heldOf { s with turns := ts, freeCount := s.freeCount + 1 } c = none := hh
  have he' : ¬ State.entered { s with turns := ts, freeCount := s.freeCount + 1 } c = true := he
  simp only [take, ht, takeTurn, takeHost, hh', if_neg he']

/-- The return of a callback is a whole turn: it brings no instruction (log entry 5). -/
theorem take_callbackReturn {s : State} {c : Context} {ts : List Turn} (ht : s.turns = .callbackReturn c :: ts) :
    take s = .done { s with turns := ts, freeCount := s.freeCount + 1, callbacks := s.callbacks.erase c } := by
  simp only [take, ht, takeTurn, State.callbackReturn]

/-! ### The statements -/

/-- Settles O17: a turn leaves slots and records alone, and its instruction ends no transfer, or one with one record. -/
theorem oneCallbackForEachTransferEnded : Obligations.OneCallbackForEachTransferEnded := by
  unfold Obligations.OneCallbackForEachTransferEnded
  intro s s' n d h
  have hturn := take_slotActive_callbackCount s n d
  rcases step_next h with ht | ⟨i, r, ht, hexec⟩
  · rw [ht] at hturn
    exact .inl hturn
  · rw [ht] at hturn
    obtain ⟨hslot, hcount⟩ := hturn
    rw [← hslot, ← hcount]
    exact (exec_dispatches hexec).exactlyOnce n d

/-- Settles O38: the refusal by `unlessCallback_refused`, the start of a callback by `exec_dispatches`, the two turns by what they
take. -/
theorem blockingCallbackIsRefused : Obligations.BlockingCallbackIsRefused := by
  unfold Obligations.BlockingCallbackIsRefused
  refine ⟨fun i s hi hc => ?_, fun i s s' h => ?_, fun s c ts ht hh hasync hc => ?_, fun s c ts ht => ?_⟩
  · cases i with
    | write | read | writeBuffer => exact unlessCallback_refused _ hc
    | _ => cases hi
  · cases exec_dispatches h with
    | none hs => exact .inl ⟨hs.cbLog, hs.callbacks⟩
    | @one d c he hrun =>
      obtain ⟨r, -, -, hr⟩ := he.record
      exact .inr ⟨r, c, hr, he.callbacks, hrun⟩
  · have he : ¬ s.entered c = true := by
      rw [State.entered_iff]
      rcases hasync with rfl | rfl <;> simp [Context.isForeground, hc]
    rw [step, take_notEntered ht hh he]
  · rw [step, take_callbackReturn ht]

end Sys2Proof.Machine
end

section
/-! SUPPORT. Proofs of the statements of 60_exceptions.md. `exec_alike` runs every instruction on two states that agree on the UART it
names; `State.Completes` says once how an instruction leaves the command port, and the statements on errors and on held commands are read
off `exec_completes`. -/

namespace Sys2Proof

/-! ### Error codes (00_scope.md R5) -/

/-- The error kinds, in the order of their codes. -/
def ErrorKind.all : List ErrorKind := [.inval, .busy, .again, .state, .io, .canceled]

theorem ErrorKind.mem_all (e : ErrorKind) : e ∈ ErrorKind.all := by
  cases e <;> decide

theorem ErrorCodes.all_eq_map (c : ErrorCodes) : c.all = ErrorKind.all.map c.code := rfl

/-- Error codes are negative, and 0 is success. -/
theorem ErrorCodes.code_ne_zero {c : ErrorCodes} (h : c.Valid) (e : ErrorKind) : c.code e ≠ 0 := by
  obtain ⟨hneg, -⟩ := h
  rw [c.all_eq_map] at hneg
  have hmsb : (c.code e).msb = true := List.all_eq_true.mp hneg _ (List.mem_map_of_mem e.mem_all)
  intro hz
  rw [hz] at hmsb
  cases hmsb

theorem ErrorCodes.code_injective {c : ErrorCodes} (h : c.Valid) {e f : ErrorKind} (hc : c.code e = c.code f) : e = f := by
  obtain ⟨-, hnodup⟩ := h
  rw [c.all_eq_map] at hnodup
  exact List.inj_on_of_nodup_map hnodup e.mem_all f.mem_all hc

end Sys2Proof

namespace Sys2Proof.Machine

/-! ### Two runs that agree on one UART (R269) -/

/-- What an instruction that names the UART `n` has reached from `b`, and what it has reached from a state that agrees with `b` on `n` and
on all that UARTs share: the two again agree so, and the DMA records added since `b` are of `n`. -/
inductive State.Alike (b : State) (n : Inst) (s : State) : State → Prop
  | intro {us : List Uart} (uart : us[n.toNat]? = s.uarts[n.toNat]?)
    (records : ∃ l : List DmaRecord, s.dmaLog = b.dmaLog ++ l ∧ ∀ r ∈ l, r.inst = n) : Alike b n s { s with uarts := us }

namespace State.Alike
variable {b s t : State} {n : Inst}

theorem start {us : List Uart} (h : us[n.toNat]? = s.uarts[n.toNat]?) : s.Alike n s { s with uarts := us } :=
  ⟨h, [], by simp⟩

theorem uart? (h : b.Alike n s t) : t.uart? n = s.uart? n := by
  obtain ⟨hu, -⟩ := h
  exact hu

theorem setUart (h : b.Alike n s t) (u : Uart) : b.Alike n (s.setUart n u) (t.setUart n u) := by
  obtain ⟨hu, hr⟩ := h
  exact ⟨by simp only [State.setUart_uarts, List.getElem?_set_self', hu], hr⟩

theorem setMem (h : b.Alike n s t) (m : Memory) : b.Alike n { s with mem := m } { t with mem := m } := by
  obtain ⟨hu, hr⟩ := h
  exact ⟨hu, hr⟩

theorem respond (h : b.Alike n s t) (r v w : Word32) : b.Alike n (s.respond r v w) (t.respond r v w) := by
  obtain ⟨hu, hr⟩ := h
  exact ⟨hu, hr⟩

theorem raise (h : b.Alike n s t) (e : ErrorKind) : b.Alike n (s.raise e) (t.raise e) := by
  obtain ⟨hu, hr⟩ := h
  exact ⟨hu, hr⟩

theorem hold (h : b.Alike n s t) (i : Instr) (k : Word32) : b.Alike n (s.hold i k) (t.hold i k) := by
  obtain ⟨hu, hr⟩ := h
  exact ⟨hu, hr⟩

theorem emitDma (h : b.Alike n s t) {r : DmaRecord} (hr : r.inst = n) : b.Alike n (s.emitDma r) (t.emitDma r) := by
  obtain ⟨hu, l, hl, hn⟩ := h
  refine ⟨hu, l ++ [r], by simp [hl], fun x hx => ?_⟩
  rcases List.mem_append.mp hx with hx | hx
  · exact hn x hx
  · exact List.mem_singleton.mp hx ▸ hr

theorem emitDisarm (h : b.Alike n s t) (d : Dir) (x : DmaBinding) :
    b.Alike n (emitDisarm n d x s) (emitDisarm n d x t) := by
  cases x with
  | unconfigured => exact h
  | configured c g => exact h.emitDma rfl

theorem dispatch (h : b.Alike n s t) (c : Context) (d : Dir) (cb ctx err : Word32) (st : StatusFlags) (k : Word32) :
    b.Alike n (dispatch c n d cb ctx err st k s) (dispatch c n d cb ctx err st k t) := by
  obtain ⟨hu, hr⟩ := h
  exact ⟨hu, hr⟩

theorem finish (h : b.Alike n s t) (c : Context) (d : Dir) (err : Word32) (st : StatusFlags) (k : Word32) :
    b.Alike n (finish c n d err st k s) (finish c n d err st k t) := by
  unfold Machine.finish
  rw [h.uart?]
  cases s.uart? n with
  | none => exact h
  | some u =>
    cases hx : u.slot d with
    | idle => simpa only [hx] using h
    | active x => simpa only [hx] using (h.setUart _).dispatch ..

end State.Alike

/-- The outcomes of the two runs: the same stop, or next states that agree. -/
inductive AlikeOutcomes (b : State) (n : Inst) : Result → Result → Prop
  | next {s t : State} (h : b.Alike n s t) : AlikeOutcomes b n (.next s) (.next t)
  | fault (f : Fault) : AlikeOutcomes b n (.fault f) (.fault f)
  | refused (r : Refusal) : AlikeOutcomes b n (.refused r) (.refused r)

/-- A test of what the two runs agree on goes the same way in both. -/
theorem AlikeOutcomes.ite {b : State} {n : Inst} {c : Prop} [Decidable c] {x x' y y' : Result} (hx : AlikeOutcomes b n x x')
    (hy : AlikeOutcomes b n y y') : AlikeOutcomes b n (if c then x else y) (if c then x' else y') := by
  split
  · exact hx
  · exact hy

theorem unlessCallback_alike {s : State} {n : Inst} {us : List Uart} {k k' : Result} (hk : AlikeOutcomes s n k k') :
    AlikeOutcomes s n (unlessCallback s k) (unlessCallback { s with uarts := us } k') :=
  .ite (.refused _) hk

section
variable {s : State} {n : Inst} {us : List Uart} (h : us[n.toNat]? = s.uarts[n.toNat]?)

include h

theorem forCommand_alike {k k' : Uart → Result} (hk : ∀ u, AlikeOutcomes s n (k u) (k' u)) :
    AlikeOutcomes s n (forCommand n s k) (forCommand n { s with uarts := us } k') := by
  have ha := State.Alike.start h
  unfold forCommand
  rw [ha.uart?]
  cases s.uart? n with
  | none => exact .next (ha.raise _)
  | some u => exact hk u

theorem forEvent_alike {p : Uart → Bool} {k k' : Uart → Result} (hk : ∀ u, AlikeOutcomes s n (k u) (k' u)) :
    AlikeOutcomes s n (forEvent n s p k) (forEvent n { s with uarts := us } p k') := by
  have ha := State.Alike.start h
  unfold forEvent
  rw [ha.uart?]
  cases s.uart? n with
  | none => exact .next ha
  | some u => exact .ite (hk u) (.next ha)

/-! The meanings that several instructions share, and those with a case split of their own. -/

theorem startIrq_alike (d : Dir) (m : Byte) (buf len cb ctx : Word32) :
    AlikeOutcomes s n (startIrq d m n buf len cb ctx s) (startIrq d m n buf len cb ctx { s with uarts := us }) := by
  have ha := State.Alike.start h
  exact forCommand_alike h fun u =>
    .ite (.next (ha.raise _)) <| .ite (.next (ha.raise _)) <| .next ((ha.setUart _).respond ..)

theorem terminateIrq_alike (d : Dir) (m : Byte) :
    AlikeOutcomes s n (terminateIrq d m n s) (terminateIrq d m n { s with uarts := us }) := by
  have ha := State.Alike.start h
  refine forCommand_alike h fun u => ?_
  cases (u.slot d).ownedBy .irq with
  | none => exact .next (ha.respond ..)
  | some t => exact .next (((ha.setUart _).finish ..).respond ..)

theorem startDma_alike (d : Dir) (buf len cb ctx : Word32) :
    AlikeOutcomes s n (startDma d n buf len cb ctx s) (startDma d n buf len cb ctx { s with uarts := us }) := by
  have ha := State.Alike.start h
  refine forCommand_alike h fun u => .ite (.next (ha.raise _)) <| .ite (.next (ha.raise _)) ?_
  cases u.bind d with
  | unconfigured => exact .next (ha.raise _)
  | configured c g => exact .ite (.next (ha.raise _)) <| .next (((ha.setUart _).emitDma rfl).respond ..)

theorem terminateDma_alike (d : Dir) : AlikeOutcomes s n (terminateDma d n s) (terminateDma d n { s with uarts := us }) := by
  have ha := State.Alike.start h
  refine forCommand_alike h fun u => ?_
  cases (u.slot d).ownedBy .dma with
  | none => exact .next (ha.respond ..)
  | some t => exact .next (((ha.emitDisarm ..).finish ..).respond ..)

theorem execDmaChannelConfig_alike (ctrl chan dir : Word32) :
    AlikeOutcomes s n (execDmaChannelConfig n ctrl chan dir s) (execDmaChannelConfig n ctrl chan dir { s with uarts := us }) := by
  have ha := State.Alike.start h
  refine forCommand_alike h fun u => ?_
  cases commandDir dir with
  | none => exact .next (ha.raise _)
  | some d =>
    exact .ite (.next (ha.raise _)) <| .ite (.next (ha.raise _)) <| .ite (.next (ha.raise _)) <|
      .next (((ha.setUart _).emitDma rfl).respond ..)

theorem execSetThreshold_alike (preset : Word32) :
    AlikeOutcomes s n (execSetThreshold n preset s) (execSetThreshold n preset { s with uarts := us }) := by
  have ha := State.Alike.start h
  refine forCommand_alike h fun u => ?_
  cases presetOf preset with
  | none => exact .next (ha.raise _)
  | some p => exact .next ((ha.setUart _).respond ..)

theorem execWriteBuffer_alike (buf len : Word32) :
    AlikeOutcomes s n (execWriteBuffer n buf len s) (execWriteBuffer n buf len { s with uarts := us }) := by
  have ha := State.Alike.start h
  refine unlessCallback_alike <| forCommand_alike h fun u =>
    .ite (.next (ha.raise _)) <| .ite (.next (ha.respond ..)) <| .ite (.next (ha.hold ..)) ?_
  have hk : State.progressOf { s with uarts := us } (.writeBuffer n buf len) = s.progressOf (.writeBuffer n buf len) := rfl
  dsimp only
  rw [hk]
  cases memRead s.mem (buf + s.progressOf (.writeBuffer n buf len)) with
  | none => exact .fault _
  | some b => exact .ite (.next ((ha.setUart _).respond ..)) (.next ((ha.setUart _).hold ..))

theorem serviceTx_alike (u : Uart) : AlikeOutcomes s n (serviceTx n u s) (serviceTx n u { s with uarts := us }) := by
  have ha := State.Alike.start h
  unfold serviceTx
  cases u.txSlot.ownedBy .irq with
  | none => exact .next (ha.setUart _)
  | some t =>
    dsimp only
    cases txRefill s.mem (min txChunk (t.len.toNat - t.done.toNat)) t u with
    | error f => exact .fault f
    | ok r => exact .ite (.next ((ha.setUart _).finish ..)) (.next (ha.setUart _))

theorem serviceRx_alike (u : Uart) : AlikeOutcomes s n (serviceRx n u s) (serviceRx n u { s with uarts := us }) := by
  have ha := State.Alike.start h
  unfold serviceRx
  cases u.rxSlot.ownedBy .irq with
  | none => exact .next (ha.setUart _)
  | some t => exact .ite (.next (((ha.setMem _).setUart _).finish ..)) (.next ((ha.setMem _).setUart _))

theorem serviceLineStatus_alike (u : Uart) :
    AlikeOutcomes s n (serviceLineStatus n u s) (serviceLineStatus n u { s with uarts := us }) := by
  have ha := State.Alike.start h
  unfold serviceLineStatus
  dsimp only
  cases (u.regRead s.freeCount .lineStatus).2.rxSlot.ownedBy .irq with
  | none => exact .next (ha.setUart _)
  | some t => exact .next ((ha.setUart _).finish ..)

theorem execIrq_alike : AlikeOutcomes s n (execIrq n s) (execIrq n { s with uarts := us }) :=
  forEvent_alike h fun u => by
    split
    · exact serviceLineStatus_alike h u
    · exact serviceRx_alike h u
    · exact serviceRx_alike h u
    · exact serviceTx_alike h u
    · exact .next (.start h)

theorem beatTx_alike : AlikeOutcomes s n (beatTx n s) (beatTx n { s with uarts := us }) := by
  have ha := State.Alike.start h
  refine forEvent_alike h fun u => ?_
  cases u.txSlot.ownedBy .dma with
  | none => exact .next ha
  | some t =>
    refine .ite ?_ (.next ha)
    dsimp only
    cases memRead s.mem (t.buf + t.done) with
    | none => exact .fault _
    | some b => exact .next (ha.setUart _)

theorem beatRx_alike : AlikeOutcomes s n (beatRx n s) (beatRx n { s with uarts := us }) := by
  have ha := State.Alike.start h
  refine forEvent_alike h fun u => ?_
  cases u.rxSlot.ownedBy .dma with
  | none => exact .next ha
  | some t => exact .ite (.next ((ha.setMem _).setUart _)) (.next ha)

theorem execDmaBeat_alike (dir : BitVec 8) :
    AlikeOutcomes s n (execDmaBeat n dir s) (execDmaBeat n dir { s with uarts := us }) := by
  unfold execDmaBeat
  split
  · exact .next (.start h)
  · exact beatTx_alike h
  · exact beatRx_alike h

theorem dmaNotify_alike (d : Dir) (ok : Bool) :
    AlikeOutcomes s n (dmaNotify n d ok s) (dmaNotify n d ok { s with uarts := us }) := by
  have ha := State.Alike.start h
  refine forEvent_alike h fun u => ?_
  cases (u.slot d).ownedBy .dma with
  | none => exact .next ha
  | some t => exact .ite (.ite (.next (ha.finish ..)) (.next ha)) (.next (ha.finish ..))

theorem execDmaDone_alike (dir : BitVec 8) (ok : Bool) :
    AlikeOutcomes s n (execDmaDone n dir ok s) (execDmaDone n dir ok { s with uarts := us }) := by
  unfold execDmaDone
  split
  · exact .next (.start h)
  · exact dmaNotify_alike h _ ok

theorem execLineTxLoad_alike : AlikeOutcomes s n (execLineTxLoad n s) (execLineTxLoad n { s with uarts := us }) := by
  have ha := State.Alike.start h
  refine forEvent_alike h fun u => ?_
  cases u.txFifo with
  | nil => exact .next ha
  | cons b rest => exact .next (ha.setUart _)

theorem execLineTxDone_alike : AlikeOutcomes s n (execLineTxDone n s) (execLineTxDone n { s with uarts := us }) := by
  have ha := State.Alike.start h
  refine forEvent_alike h fun u => ?_
  cases u.shifter with
  | idle => exact .next ha
  | busy b => exact .next (ha.setUart _)

end

/-- Every instruction does the same from two states that agree on the UART it names. -/
theorem exec_alike (i : Instr) {s : State} {us : List Uart} (h : us[i.inst.toNat]? = s.uarts[i.inst.toNat]?) :
    AlikeOutcomes s i.inst (exec i s) (exec i { s with uarts := us }) := by
  have ha := State.Alike.start h
  cases i with
  | setConfig =>
    exact forCommand_alike h fun u => .ite (.next (ha.raise _)) <| .ite (.next (ha.raise _)) <| .ite (.next (ha.raise _)) <|
      .next ((ha.setUart _).respond ..)
  | getStatus => exact forCommand_alike h fun u => .next ((ha.setUart _).respond ..)
  | write | read =>
    exact unlessCallback_alike <| forCommand_alike h fun u => .ite (.next ((ha.setUart _).respond ..)) (.next (ha.hold ..))
  | writeNonBlock | readNonBlock =>
    exact forCommand_alike h fun u => .ite (.next (ha.raise _)) (.next ((ha.setUart _).respond ..))
  | writeBuffer => exact execWriteBuffer_alike h ..
  | irqWrite | irqRead => exact startIrq_alike h ..
  | irqWriteTerminate | irqReadTerminate => exact terminateIrq_alike h ..
  | dmaChannelConfig => exact execDmaChannelConfig_alike h ..
  | dmaWrite | dmaRead => exact startDma_alike h ..
  | dmaWriteTerminate | dmaReadTerminate => exact terminateDma_alike h _
  | setThreshold => exact execSetThreshold_alike h _
  | irq => exact execIrq_alike h
  | dmaBeat => exact execDmaBeat_alike h _
  | dmaDone => exact execDmaDone_alike h ..
  | lineTxLoad => exact execLineTxLoad_alike h
  | lineTxDone => exact execLineTxDone_alike h
  | lineRx | lineCto | lineCts => exact forEvent_alike h fun u => .next (ha.setUart _)

/-- The state an instruction answers, and the one it answers from a state that agrees on the UART it names. -/
theorem exec_next_alike {i : Instr} {s s' : State} {us : List Uart} (hexec : exec i s = .next s')
    (h : us[i.inst.toNat]? = s.uarts[i.inst.toNat]?) :
    ∃ t, exec i { s with uarts := us } = .next t ∧ s.Alike i.inst s' t := by
  have hk := exec_alike i h
  rw [hexec] at hk
  generalize exec i { s with uarts := us } = r at hk
  cases hk with
  | next ha => exact ⟨_, rfl, ha⟩

theorem State.Performs.uarts_length {s s' : State} {i : Instr} (h : s.Performs i s') : s'.uarts.length = s.uarts.length := by
  rcases h.uarts with he | ⟨u, v, -, -, he⟩ <;> simp [he]

theorem State.Performs.uarts_other {s s' : State} {i : Instr} (h : s.Performs i s') {k : Nat} (hk : k ≠ i.inst.toNat) :
    s'.uarts[k]? = s.uarts[k]? := by
  rcases h.uarts with he | ⟨u, v, -, -, he⟩
  · rw [he]
  · rw [he, List.getElem?_set_ne hk.symm]

theorem State.Dispatches.cbLog {s s' : State} {i : Instr} (h : s.Dispatches i s') :
    ∃ l : List CbRecord, s'.cbLog = s.cbLog ++ l ∧ ∀ r ∈ l, r.inst = i.inst := by
  cases h with
  | none h => exact ⟨[], by simp [h.cbLog]⟩
  | one h =>
    obtain ⟨r, hn, -, hr⟩ := h.record
    exact ⟨[r], hr, by simpa using hn⟩

/-- Settles O19: the frame by `exec_performs` and `exec_dispatches`; the run from the same UARTs gives the DMA records, the run from
others the independence. -/
theorem instancesAreIndependent : Obligations.InstancesAreIndependent := by
  unfold Obligations.InstancesAreIndependent
  intro i s s' h
  have hp := exec_performs h
  obtain ⟨-, -, ⟨-, hdma⟩⟩ := exec_next_alike h (us := s.uarts) rfl
  refine ⟨hp.uarts_length, fun k hk => hp.uarts_other hk, (exec_dispatches h).cbLog, hdma, fun us hus => ?_⟩
  obtain ⟨-, ht, ⟨hu, -⟩⟩ := exec_next_alike h hus
  exact ⟨_, ht, hu⟩

/-! ### How an instruction completes (R245, R246, R266, R270) -/

/-- What makes an instruction answer an error: of E_BUSY, E_AGAIN and E_STATE the causes of R249, R250 and R251; E_IO and E_CANCELED are
answered by none (R247). -/
def State.Causes (s : State) (i : Instr) : ErrorKind → Prop
  | .inval => True
  | .busy => ∃ d : Dir, s.slotActive i.inst d = true ∧
      (startsTransfer i i.inst d = true ∨
        ∃ ctrl chan dir : Word32, i = .dmaChannelConfig i.inst ctrl chan dir ∧ commandDir dir = some d)
  | .again => ∃ u : Uart, s.uart? i.inst = some u ∧
      ((∃ b : Byte, i = .writeNonBlock i.inst b ∧ ¬ u.txCount < u.depth) ∨ (i = .readNonBlock i.inst ∧ u.rxCount = 0))
  | .state => ∃ u : Uart, s.uart? i.inst = some u ∧
      ((∃ ctrl chan dir : Word32, i = .dmaChannelConfig i.inst ctrl chan dir ∧
          s.params.dmaReady (ctrl.setWidth 8) (chan.setWidth 8) = false) ∨
       (∃ buf len cb ctx : Word32, i = .dmaWrite i.inst buf len cb ctx ∧ u.txBind = .unconfigured) ∨
       (∃ buf len cb ctx : Word32, i = .dmaRead i.inst buf len cb ctx ∧ u.rxBind = .unconfigured))
  | .io => False
  | .canceled => False

/-- How an instruction leaves the command port: it answers an error, for one of its causes, and changes nothing else; it answers success,
perhaps with a callback started in its context; it is held; or it is an event, perhaps with a callback started in an asynchronous
context. -/
inductive State.Completes (s : State) (i : Instr) (t : State) : Prop
  | fails (e : ErrorKind) (he : s.Causes i e) (h : t = s.raise e)
  | succeeds {v w : Word32} (hresp : t.responses = s.responses ++ [(s.active, { res := 0, v0 := v, v1 := w })])
    (hheld : t.held = s.held.filter (fun h => decide (h.ctx ≠ s.active)))
    (hcb : t.callbacks = s.callbacks ∨ t.callbacks = s.active :: s.callbacks)
  | holds {k : Word32} (hi : i.canHold = true) (hc : s.active ∉ s.callbacks) (hresp : t.responses = s.responses)
    (hheld : t.held = { ctx := s.active, instr := i, progress := k } :: s.held.filter (fun h => decide (h.ctx ≠ s.active)))
    (hcb : t.callbacks = s.callbacks)
  | event (hresp : t.responses = s.responses) (hheld : t.held = s.held)
    (hcb : t.callbacks = s.callbacks ∨ ∃ c : Context, c.isForeground = false ∧ t.callbacks = c :: s.callbacks)

/-- The same command port, held commands and running callbacks. -/
structure State.SamePort (s r : State) : Prop where
  responses : r.responses = s.responses
  held : r.held = s.held
  active : r.active = s.active
  callbacks : r.callbacks = s.callbacks

theorem State.samePort_emitDisarm (s : State) (n : Inst) (d : Dir) (b : DmaBinding) : s.SamePort (emitDisarm n d b s) := by
  cases b <;> exact ⟨rfl, rfl, rfl, rfl⟩

/-- Finish answers nothing and drops no held command; it starts a callback in its context at most (46_callback.md R235, R236). -/
theorem finish_port (c : Context) (n : Inst) (d : Dir) (err : Word32) (st : StatusFlags) (k : Word32) (s : State) :
    (finish c n d err st k s).responses = s.responses ∧ (finish c n d err st k s).held = s.held ∧
    (finish c n d err st k s).active = s.active ∧
    ((finish c n d err st k s).callbacks = s.callbacks ∨ (finish c n d err st k s).callbacks = c :: s.callbacks) := by
  unfold finish
  repeat' split
  · exact ⟨rfl, rfl, rfl, .inl rfl⟩
  · exact ⟨rfl, rfl, rfl, .inl rfl⟩
  · exact ⟨rfl, rfl, rfl, .inr rfl⟩

namespace State.Completes
variable {s r : State} {i : Instr} {n : Inst} {d : Dir} {err : Word32} {st : StatusFlags} {k : Word32}

theorem invalid : s.Completes i (s.respond s.params.err.inval 0 0) := .fails .inval trivial rfl

/-- A terminate answers success after Finish (R240). -/
theorem terminates (h : s.SamePort r) : s.Completes i ((finish s.active n d err st k r).respond 0 0 0) := by
  obtain ⟨hr, hh, ha, hc⟩ := finish_port s.active n d err st k r
  refine .succeeds (v := 0) (w := 0) ?_ ?_ (by rw [← h.callbacks]; exact hc)
  · rw [State.respond_responses, hr, ha, h.responses, h.active]
  · rw [State.respond_held, hh, ha, h.held, h.active]

/-- An event that ends a transfer. -/
theorem finishes {c : Context} (hc : c.isForeground = false) (h : s.SamePort r) : s.Completes i (finish c n d err st k r) := by
  obtain ⟨hr, hh, -, hcb⟩ := finish_port c n d err st k r
  refine .event (hr.trans h.responses) (hh.trans h.held) ?_
  rw [← h.callbacks]
  exact hcb.imp_right fun hcb => ⟨c, hc, hcb⟩

end State.Completes

section
variable {s s' : State} {i : Instr} {n : Inst} {d : Dir} {buf len cb ctx : Word32}

theorem State.slotActive_of_ne_idle {u : Uart} (hu : s.uart? n = some u) (h : u.slot d ≠ .idle) : s.slotActive n d = true := by
  rw [State.slotActive_of_uart? hu, Slot.isActive_eq, decide_eq_true h]

theorem startIrq_completes {m : Byte} (hn : i.inst = n) (hi : startsTransfer i n d = true)
    (h : startIrq d m n buf len cb ctx s = .next s') : s.Completes i s' := by
  subst hn
  rcases startIrq_next h with rfl | ⟨u, hu, hs, rfl⟩ | ⟨u, -, -, -, rfl⟩
  · exact .invalid
  · exact .fails .busy ⟨d, State.slotActive_of_ne_idle hu hs, .inl hi⟩ rfl
  · exact .succeeds rfl rfl (.inl rfl)

theorem startDma_completes (hn : i.inst = n) (hi : startsTransfer i n d = true)
    (hstate : ∀ u, s.uart? n = some u → u.bind d = .unconfigured → s.Causes i .state)
    (h : startDma d n buf len cb ctx s = .next s') : s.Completes i s' := by
  subst hn
  rcases startDma_next h with rfl | ⟨u, hu, ⟨hb, rfl⟩ | ⟨hs, rfl⟩ | ⟨-, -, -, -, -, -, rfl⟩⟩
  · exact .invalid
  · exact .fails .state (hstate u hu hb) rfl
  · exact .fails .busy ⟨d, State.slotActive_of_ne_idle hu hs, .inl hi⟩ rfl
  · exact .succeeds rfl rfl (.inl rfl)

theorem terminateIrq_completes {m : Byte} (h : terminateIrq d m n s = .next s') : s.Completes i s' := by
  rcases terminateIrq_next h with rfl | rfl | ⟨-, -, -, -, rfl⟩
  · exact .invalid
  · exact .succeeds rfl rfl (.inl rfl)
  · exact .terminates ⟨rfl, rfl, rfl, rfl⟩

theorem terminateDma_completes (h : terminateDma d n s = .next s') : s.Completes i s' := by
  rcases terminateDma_next h with rfl | rfl | ⟨-, -, -, -, rfl⟩
  · exact .invalid
  · exact .succeeds rfl rfl (.inl rfl)
  · exact .terminates (s.samePort_emitDisarm ..)

theorem execDmaChannelConfig_completes {ctrl chan dir : Word32} (h : execDmaChannelConfig n ctrl chan dir s = .next s') :
    s.Completes (.dmaChannelConfig n ctrl chan dir) s' := by
  rcases execDmaChannelConfig_next h with rfl | ⟨u, d, hu, hd, ⟨hr, rfl⟩ | ⟨hs, rfl⟩ | ⟨-, rfl⟩⟩
  · exact .invalid
  · exact .fails .state ⟨u, hu, .inl ⟨ctrl, chan, dir, rfl, hr⟩⟩ rfl
  · exact .fails .busy ⟨d, State.slotActive_of_ne_idle hu hs, .inr ⟨ctrl, chan, dir, rfl, hd⟩⟩ rfl
  · exact .succeeds rfl rfl (.inl rfl)

theorem execWriteBuffer_completes (h : execWriteBuffer n buf len s = .next s') : s.Completes (.writeBuffer n buf len) s' := by
  obtain ⟨hc, rfl | rfl | ⟨-, rfl⟩ | ⟨-, -, -, rfl | ⟨-, rfl⟩⟩⟩ := execWriteBuffer_next h
  · exact .invalid
  · exact .succeeds rfl rfl (.inl rfl)
  · exact .holds rfl hc rfl rfl rfl
  · exact .succeeds rfl rfl (.inl rfl)
  · exact .holds rfl hc rfl rfl rfl

theorem serviceLineStatus_completes {u : Uart} (h : serviceLineStatus n u s = .next s') : s.Completes i s' := by
  rcases serviceLineStatus_next h with ⟨-, rfl⟩ | ⟨-, -, rfl⟩
  · exact .event rfl rfl (.inl rfl)
  · exact .finishes rfl ⟨rfl, rfl, rfl, rfl⟩

theorem serviceRx_completes {u : Uart} (h : serviceRx n u s = .next s') : s.Completes i s' := by
  rcases serviceRx_next h with ⟨-, rfl⟩ | ⟨-, -, -, -, -, -, ⟨-, rfl⟩ | ⟨-, rfl⟩⟩
  · exact .event rfl rfl (.inl rfl)
  · exact .finishes rfl ⟨rfl, rfl, rfl, rfl⟩
  · exact .event rfl rfl (.inl rfl)

theorem serviceTx_completes {u : Uart} (h : serviceTx n u s = .next s') : s.Completes i s' := by
  rcases serviceTx_next h with ⟨-, rfl⟩ | ⟨-, -, -, -, -, ⟨-, rfl⟩ | ⟨-, rfl⟩⟩
  · exact .event rfl rfl (.inl rfl)
  · exact .finishes rfl ⟨rfl, rfl, rfl, rfl⟩
  · exact .event rfl rfl (.inl rfl)

theorem execIrq_completes (h : execIrq n s = .next s') : s.Completes i s' := by
  rcases execIrq_next h with rfl | ⟨_, -, -, ⟨-, h⟩ | ⟨-, h⟩ | ⟨-, h⟩⟩
  · exact .event rfl rfl (.inl rfl)
  · exact serviceLineStatus_completes h
  · exact serviceRx_completes h
  · exact serviceTx_completes h

theorem execDmaBeat_completes {dir : BitVec 8} (h : execDmaBeat n dir s = .next s') : s.Completes i s' := by
  rcases execDmaBeat_next h with rfl | ⟨-, h⟩ | ⟨-, h⟩
  · exact .event rfl rfl (.inl rfl)
  · rcases beatTx_next h with rfl | ⟨-, -, -, -, -, -, -, rfl⟩ <;> exact .event rfl rfl (.inl rfl)
  · rcases beatRx_next h with rfl | ⟨-, -, -, -, -, -, rfl⟩ <;> exact .event rfl rfl (.inl rfl)

theorem execDmaDone_completes {dir : BitVec 8} {ok : Bool} (h : execDmaDone n dir ok s = .next s') : s.Completes i s' := by
  rcases execDmaDone_next h with rfl | ⟨-, -, -, -, -, ⟨-, rfl⟩ | rfl⟩
  · exact .event rfl rfl (.inl rfl)
  · exact .finishes rfl ⟨rfl, rfl, rfl, rfl⟩
  · exact .finishes rfl ⟨rfl, rfl, rfl, rfl⟩

end

/-- Every instruction that answers a next state completes in one of these ways. -/
theorem exec_completes {i : Instr} {s s' : State} (h : exec i s = .next s') : s.Completes i s' := by
  cases i with
  | setConfig =>
    rcases execSetConfig_next h with rfl | ⟨-, -, -, rfl⟩
    · exact .invalid
    · exact .succeeds rfl rfl (.inl rfl)
  | setThreshold =>
    rcases execSetThreshold_next h with rfl | ⟨-, -, -, -, rfl⟩
    · exact .invalid
    · exact .succeeds rfl rfl (.inl rfl)
  | getStatus =>
    rcases execGetStatus_next h with rfl | ⟨-, -, -, rfl⟩
    · exact .invalid
    · exact .succeeds rfl rfl (.inl rfl)
  | write =>
    obtain ⟨hc, rfl | rfl | ⟨-, -, rfl⟩⟩ := execWrite_next h
    · exact .invalid
    · exact .holds rfl hc rfl rfl rfl
    · exact .succeeds rfl rfl (.inl rfl)
  | read =>
    obtain ⟨hc, rfl | rfl | ⟨-, -, -, -, rfl⟩⟩ := execRead_next h
    · exact .invalid
    · exact .holds rfl hc rfl rfl rfl
    · exact .succeeds rfl rfl (.inl rfl)
  | writeNonBlock n b =>
    rcases execWriteNonBlock_next h with rfl | ⟨u, hu, ht, rfl⟩ | ⟨-, -, rfl⟩
    · exact .invalid
    · exact .fails .again ⟨u, hu, .inl ⟨b, rfl, Nat.not_lt.mpr (u.thre_eq_false_iff.mp ht)⟩⟩ rfl
    · exact .succeeds rfl rfl (.inl rfl)
  | readNonBlock =>
    rcases execReadNonBlock_next h with rfl | ⟨u, hu, hd, rfl⟩ | ⟨-, -, -, rfl⟩
    · exact .invalid
    · exact .fails .again ⟨u, hu, .inr ⟨rfl, Nat.eq_zero_of_not_pos (of_decide_eq_false hd)⟩⟩ rfl
    · exact .succeeds rfl rfl (.inl rfl)
  | writeBuffer => exact execWriteBuffer_completes h
  | irqWrite => exact startIrq_completes (d := .tx) rfl (decide_eq_true rfl) h
  | irqRead => exact startIrq_completes (d := .rx) rfl (decide_eq_true rfl) h
  | irqWriteTerminate | irqReadTerminate => exact terminateIrq_completes h
  | dmaChannelConfig => exact execDmaChannelConfig_completes h
  | dmaWrite n buf len cb ctx =>
    exact startDma_completes (d := .tx) rfl (decide_eq_true rfl)
      (fun u hu hb => ⟨u, hu, .inr (.inl ⟨buf, len, cb, ctx, rfl, hb⟩)⟩) h
  | dmaRead n buf len cb ctx =>
    exact startDma_completes (d := .rx) rfl (decide_eq_true rfl)
      (fun u hu hb => ⟨u, hu, .inr (.inr ⟨buf, len, cb, ctx, rfl, hb⟩)⟩) h
  | dmaWriteTerminate | dmaReadTerminate => exact terminateDma_completes h
  | irq => exact execIrq_completes h
  | dmaBeat => exact execDmaBeat_completes h
  | dmaDone => exact execDmaDone_completes h
  | lineRx => rcases execLineRx_next h with rfl | ⟨-, -, rfl⟩ <;> exact .event rfl rfl (.inl rfl)
  | lineTxLoad => rcases execLineTxLoad_next h with rfl | ⟨-, -, -, -, -, -, rfl⟩ <;> exact .event rfl rfl (.inl rfl)
  | lineTxDone => rcases execLineTxDone_next h with rfl | ⟨-, -, -, -, rfl⟩ <;> exact .event rfl rfl (.inl rfl)
  | lineCto => rcases execLineCto_next h with rfl | ⟨-, -, -, rfl⟩ <;> exact .event rfl rfl (.inl rfl)
  | lineCts => rcases execLineCts_next h with rfl | ⟨-, -, rfl⟩ <;> exact .event rfl rfl (.inl rfl)

/-! ### Errors (R245 to R251) -/

/-- A response is an error for one of its causes, and then nothing but the port changes, or a success (R245, R246). -/
theorem State.Completes.response {s t : State} {i : Instr} {r : Response} (h : s.Completes i t)
    (hr : t.responses = s.responses ++ [(s.active, r)]) :
    r.res = 0 ∨ ∃ e, s.Causes i e ∧ r = { res := s.params.err.code e, v0 := 0, v1 := 0 } ∧ t = s.raise e := by
  have hlast {q : Response} (hq : t.responses = s.responses ++ [(s.active, q)]) : r = q := by
    rw [hr] at hq
    simpa using hq
  have hnone : t.responses ≠ s.responses := by rw [hr]; simp
  cases h with
  | fails e he h => exact .inr ⟨e, he, hlast (by rw [h]; rfl), h⟩
  | succeeds hresp => exact .inl (by rw [hlast hresp])
  | holds _ _ hresp | event hresp => exact absurd hresp hnone

/-- Settles O21: a response other than a success is `raise` (`State.Completes.response`). -/
theorem errorResultsChangeNothing : Obligations.ErrorResultsChangeNothing := by
  unfold Obligations.ErrorResultsChangeNothing
  intro i s s' r h hr hres
  obtain ⟨e, -, rfl, rfl⟩ := ((exec_completes h).response hr).resolve_left hres
  exact ⟨rfl, rfl, rfl⟩

/-- An answer with the code of an error has a cause of that error: the codes are distinct, and none is 0 (00_scope.md R5). -/
theorem State.Completes.cause {s t : State} {i : Instr} {r : Response} {e : ErrorKind} (h : s.Completes i t)
    (hv : s.params.err.Valid) (hr : t.responses = s.responses ++ [(s.active, r)]) (hres : r.res = s.params.err.code e) :
    s.Causes i e := by
  obtain ⟨f, hf, rfl, -⟩ := (h.response hr).resolve_left (hres ▸ ErrorCodes.code_ne_zero hv e)
  exact ErrorCodes.code_injective hv hres ▸ hf

/-- Settles O22: by `State.Completes.cause`, for each of the three codes. -/
theorem errorCodesHaveTheirCauses : Obligations.ErrorCodesHaveTheirCauses := by
  unfold Obligations.ErrorCodesHaveTheirCauses
  rintro i s s' r ⟨hv, -⟩ h hr
  have hc := exec_completes h
  exact ⟨hc.cause (e := .busy) hv hr, hc.cause (e := .again) hv hr, hc.cause (e := .state) hv hr⟩

/-! ### The port invariant under an instruction (R266, R270) -/

/-- Dropping held commands keeps the port invariant, if no callback is started in the context of one that is left. -/
theorem State.PortInv.of_sublist {s t : State} (h : s.PortInv) (hheld : t.held.Sublist s.held)
    (hcb : ∀ x ∈ t.held, x.ctx ∈ t.callbacks → x.ctx ∈ s.callbacks) : t.PortInv := by
  obtain ⟨hnodup, hall⟩ := h
  refine ⟨hnodup.sublist (hheld.map _), fun x hx => ?_⟩
  obtain ⟨hcan, hfore, hno⟩ := hall x (hheld.subset hx)
  exact ⟨hcan, hfore, fun hc => hno (hcb x hx hc)⟩

theorem State.mem_filter_ctx {s : State} {x : Held} (h : x ∈ s.held.filter (fun h => decide (h.ctx ≠ s.active))) :
    x.ctx ≠ s.active :=
  of_decide_eq_true (List.mem_filter.mp h).2

/-- An answer drops the held command of its context, so a callback may start there. -/
theorem State.PortInv.answered {s t : State} (h : s.PortInv)
    (hheld : t.held = s.held.filter (fun h => decide (h.ctx ≠ s.active)))
    (hcb : t.callbacks = s.callbacks ∨ t.callbacks = s.active :: s.callbacks) : t.PortInv := by
  refine h.of_sublist (hheld ▸ List.filter_sublist) fun x hx hc => ?_
  rcases hcb with hcb | hcb <;> rw [hcb] at hc
  · exact hc
  · exact (List.mem_cons.mp hc).resolve_left (State.mem_filter_ctx (hheld ▸ hx))

/-- A command is held in the place of the one its context held. -/
theorem State.PortInv.hold {s : State} {i : Instr} {k : Word32} (h : s.PortInv) (hi : i.canHold = true)
    (hf : s.active.isForeground = true) (hc : s.active ∉ s.callbacks) : (s.hold i k).PortInv := by
  obtain ⟨hnodup, hall⟩ : (s.respond 0 0 0).PortInv := h.answered rfl (.inl rfl)
  refine ⟨List.nodup_cons.mpr ⟨fun hm => ?_, hnodup⟩, List.forall_mem_cons.mpr ⟨⟨hi, hf, hc⟩, hall⟩⟩
  obtain ⟨x, hx, hctx⟩ := List.mem_map.mp hm
  exact State.mem_filter_ctx hx hctx

/-- A callback in an asynchronous context is in none that holds a command. -/
theorem State.PortInv.event {s t : State} (h : s.PortInv) (hheld : t.held = s.held)
    (hcb : t.callbacks = s.callbacks ∨ ∃ c : Context, c.isForeground = false ∧ t.callbacks = c :: s.callbacks) : t.PortInv := by
  refine h.of_sublist (hheld ▸ List.Sublist.refl _) fun x hx hc => ?_
  rcases hcb with hcb | ⟨c, hasync, hcb⟩ <;> rw [hcb] at hc
  · exact hc
  · refine (List.mem_cons.mp hc).resolve_left fun he => ?_
    obtain ⟨-, hfore, -⟩ := h.2 x (hheld ▸ hx)
    rw [he, hasync] at hfore
    cases hfore

theorem State.Completes.keepsPortInv {s t : State} {i : Instr} (hc : s.Completes i t) (h : s.PortInv)
    (hent : i.canHold = true → s.entered s.active = true) : t.PortInv := by
  cases hc with
  | fails e _ ht => exact h.answered (ht ▸ rfl) (.inl (ht ▸ rfl))
  | succeeds _ hheld hcb => exact h.answered hheld hcb
  | @holds k hi hno _ hheld hcb =>
    have hf := ((s.entered_iff _).mp (hent hi)).resolve_right hno
    have ht := h.hold (k := k) hi hf hno
    rw [State.PortInv, hheld, hcb]
    exact ht
  | event _ hheld hcb => exact h.event hheld hcb

/-! ### The port invariant under a turn (R265, R270) -/

/-- What a turn leaves is ready: the port meets its invariant, and a command that can hold is brought only in a context that is
entered. -/
def Taken.PortReady : Taken → Prop
  | .run i s => s.PortInv ∧ (i.canHold = true → s.entered s.active = true)
  | .done s => s.PortInv

theorem takeCommand_portReady (w : BitVec 144) {s : State} (h : s.PortInv) (he : s.entered s.active = true) :
    (takeCommand w s).PortReady := by
  unfold takeCommand
  split
  · exact ⟨h, fun _ => he⟩
  · exact h.answered rfl (.inl rfl)

/-- Events cannot hold. -/
theorem canHold_isCommand {i : Instr} (h : i.canHold = true) : i.isCommand = true := by
  cases i with
  | write | read | writeBuffer => rfl
  | _ => cases h

theorem takeEvent_portReady (w : BitVec 32) {s : State} (h : s.PortInv) : (takeEvent w s).PortReady := by
  unfold takeEvent
  split
  · next i hi =>
    refine ⟨h, fun hcan => ?_⟩
    obtain ⟨-, hevent, -⟩ := decodeEvent_ok hi
    rw [canHold_isCommand hcan] at hevent
    cases hevent
  · exact h

theorem takeHost_portReady (c : Context) {s : State} (h : s.PortInv) : (takeHost c s).PortReady := by
  unfold takeHost
  split
  · next x hx =>
    obtain ⟨-, hfore, -⟩ := h.2 x (List.mem_of_find?_eq_some hx)
    exact ⟨h, fun _ => (State.entered_iff _ _).mpr (.inl hfore)⟩
  · split
    · next he =>
      split
      · exact h
      · next p ps hp =>
        obtain ⟨_, _, -, -, rfl, -⟩ := takePresented_some hp
        exact takeCommand_portReady _ h he
    · exact h

theorem take_portReady {s : State} (h : s.PortInv) : (take s).PortReady := by
  unfold take
  split
  · exact h
  · next t ts _ =>
    cases t with
    | host c => exact takeHost_portReady c h
    | event w => exact takeEvent_portReady w h
    | store a b => exact h
    | callbackReturn c => exact h.of_sublist (List.Sublist.refl _) fun x _ hc => List.mem_of_mem_erase hc

/-- Settles O16: a turn leaves the port ready (`take_portReady`), and however its instruction completes, the invariant is kept. -/
theorem stepKeepsOneHeldCommandAContext : Obligations.StepKeepsOneHeldCommandAContext := by
  unfold Obligations.StepKeepsOneHeldCommandAContext
  intro s s' h hstep
  have hturn := take_portReady h
  rcases step_next hstep with ht | ⟨i, r, ht, hexec⟩
  · rw [ht] at hturn
    exact hturn
  · rw [ht] at hturn
    obtain ⟨hr, hent⟩ := hturn
    exact (exec_completes hexec).keepsPortInv hr hent

/-! ### Held commands (R270) -/

/-- The Host's turn in a context that holds a command retries it. -/
theorem take_held {s : State} {c : Context} {ts : List Turn} {h : Held} (ht : s.turns = .host c :: ts) (hh : s.heldOf c = some h) :
    take s = .run h.instr { s with turns := ts, freeCount := s.freeCount + 1, active := h.ctx } := by
  have hh' : State.heldOf { s with turns := ts, freeCount := s.freeCount + 1 } c = some h := hh
  simp only [take, ht, takeTurn, takeHost, hh']

/-- Settles O9: by `take_held` the turn brings the held command. -/
theorem stepRetriesTheHeldCommand : Obligations.StepRetriesTheHeldCommand := by
  unfold Obligations.StepRetriesTheHeldCommand
  intro s c ts h ht hh
  rw [step, take_held ht hh]

/-! ### Identities (R252 to R256) -/

theorem rtLevel_eq (t : BitVec 2) : rtLevel t = if t = 0 then 1 else if t = 1 then 4 else if t = 2 then 8 else 14 := by
  revert t; decide

theorem tetLevel_eq (t : BitVec 2) : tetLevel t = if t = 0 then 0 else if t = 1 then 2 else if t = 2 then 4 else 8 := by
  revert t; decide

theorem Uart.rxLevel_eq (u : Uart) : u.rxLevel =
    if u.fifoe = false ∨ u.rt = 0 then 1 else if u.rt = 1 then 4 else if u.rt = 2 then 8 else 14 := by
  rw [Uart.rxLevel, rtLevel_eq]
  cases u.fifoe <;> simp

theorem Uart.txLevel_eq (u : Uart) : u.txLevel =
    if u.fifoe = false ∨ u.ier.getLsbD 7 = false ∨ u.tet = 0 then 0
    else if u.tet = 1 then 2 else if u.tet = 2 then 4 else 8 := by
  rw [Uart.txLevel, tetLevel_eq, Uart.ptime]
  cases u.fifoe <;> cases u.ier.getLsbD 7 <;> simp

theorem Uart.iid_rxData_iff (u : Uart) : u.iid = 0x4 ↔ ¬ u.pendLs = true ∧ u.pendRx = true := by
  unfold Uart.iid
  repeat' split
  all_goals simp_all

theorem Uart.iid_timeout_iff (u : Uart) : u.iid = 0xC ↔ ¬ u.pendLs = true ∧ ¬ u.pendRx = true ∧ u.pendCto = true := by
  unfold Uart.iid
  repeat' split
  all_goals simp_all

theorem Uart.pendLs_iff (u : Uart) : u.pendLs = true ↔
    u.ier.getLsbD 2 = true ∧ (u.latOe = true ∨ u.latPe = true ∨ u.latFe = true ∨ u.latBi = true) := by
  simp only [Uart.pendLs, Uart.lineErr, Bool.and_eq_true, Bool.or_eq_true, or_assoc]
  rfl

theorem Uart.pendRx_iff (u : Uart) : u.pendRx = true ↔ u.ier.getLsbD 0 = true ∧
    (if u.fifoe = false ∨ u.rt = 0 then 1 else if u.rt = 1 then 4 else if u.rt = 2 then 8 else 14) ≤ u.rxFifo.length := by
  rw [← u.rxLevel_eq]
  simp only [Uart.pendRx, Uart.rxCond, Bool.and_eq_true, decide_eq_true_iff]
  rfl

theorem Uart.pendCto_iff (u : Uart) : u.pendCto = true ↔ u.ier.getLsbD 0 = true ∧ u.cto = true := Bool.and_eq_true_iff

theorem Uart.pendTx_iff (u : Uart) : u.pendTx = true ↔ u.ier.getLsbD 1 = true ∧
    u.txFifo.length ≤ if u.fifoe = false ∨ u.ier.getLsbD 7 = false ∨ u.tet = 0 then 0
      else if u.tet = 1 then 2 else if u.tet = 2 then 4 else 8 := by
  rw [← u.txLevel_eq]
  simp only [Uart.pendTx, Uart.txCond, Bool.and_eq_true, decide_eq_true_iff]
  rfl

theorem Uart.irqOut_eq_false_iff (u : Uart) : u.irqOut = false ↔
    ¬ u.pendLs = true ∧ ¬ u.pendRx = true ∧ ¬ u.pendCto = true ∧ ¬ u.pendTx = true := by
  simp only [Uart.irqOut, Bool.or_eq_false_iff, Bool.not_eq_true, and_assoc]

/-- Settles O41: each source written out (`Uart.pendRx_iff` and its companions), then the priorities of `Uart.iid`. -/
theorem identityIsTheFirstPendingSource : Obligations.IdentityIsTheFirstPendingSource := by
  unfold Obligations.IdentityIsTheFirstPendingSource
  intro u rxLevel txLevel ls rx ct tx
  have hls : u.pendLs = true ↔ ls := u.pendLs_iff
  have hrx : u.pendRx = true ↔ rx := u.pendRx_iff
  have hct : u.pendCto = true ↔ ct := u.pendCto_iff
  have htx : u.pendTx = true ↔ tx := u.pendTx_iff
  rw [← hls, ← hrx, ← hct, ← htx]
  refine ⟨u.iid_lineStatus_iff, u.iid_rxData_iff, u.iid_timeout_iff, ?_, u.iid_none_iff.trans u.irqOut_eq_false_iff, ?_,
    fun k => iir_low ..⟩
  · simpa only [Bool.not_eq_true] using u.iid_tx_iff
  · rw [ne_eq, u.iid_none_iff, Bool.not_eq_false]

end Sys2Proof.Machine
end
